-- ==== Sys2Proof/Word.lean ====
section
/-! DEFINITION. The word types of the host port and the value type of the datapath: what a NUMFMT number is.
The arithmetic on numbers stands in Machine/Float.lean. -/

namespace Sys2Proof

/-- One byte of the frame (40_bitreader.md R150). -/
abbrev Byte := BitVec 8

/-- The data width of the host port (20_memory.md R80). -/
abbrev Word32 := BitVec 32

/-- One 64-bit slot of the STATE or OUT window (20_memory.md R95, R102). -/
abbrev Slot64 := BitVec 64

/-- A byte offset of the host port, 0x0000 to 0x3FFF (20_memory.md R80). -/
abbrev Offset := BitVec 14

/-- The number format NUMFMT (00_scope.md R11, R12): fixed when the engine is built (10_state.md R44). -/
inductive NumFmt where
  | binary32
  | binary64
deriving DecidableEq, Repr, Inhabited

/-- A NUMFMT value (00_scope.md R12), as the datum an IEEE 754 encoding stands for, so that a value that both formats
hold (−32, +0.0) is written the same in both (notes/assumptions/2.md).
`fin s m e` is the number (−1)^s · m · 2^e; in a stored value m is odd, or m = 0 and e = 0 (`Machine.numWf`).
`nan s p` is a quiet NaN with sign s and the fraction bits p below the quiet bit. -/
inductive NumVal where
  | fin (neg : Bool) (mant : Nat) (exp : Int)
  | inf (neg : Bool)
  | nan (neg : Bool) (payload : BitVec 51)
deriving DecidableEq, Repr, Inhabited

/-- The arithmetic operations that can deliver a NaN (00_scope.md R12). -/
inductive ArithOp where
  | add | sub | mul | div
deriving DecidableEq, Repr, Inhabited

/-- +0.0, the "Zero" of 10_state.md R60. -/
def NumVal.zero : NumVal := .fin false 0 0

end Sys2Proof
end

