-- ==== Sys2Proof/Machine/Loop.lean ====
section
/-! DEFINITION. The pseudocode's own notation: an indexed read and write of a state vector, and a counted loop
(00_scope.md R18, R19). -/

namespace Sys2Proof.Machine

/-- `X[i]`. Every index the rules form lies inside its vector except the lag buffer's (20_memory.md R103), which has its
own read, `lagRead`; so the answer for an index outside is never used (notes/assumptions/19.md). -/
def rd {α : Type} [Inhabited α] {n : Nat} (x : Vector α n) (i : Nat) : α := x[i]?.getD default

/-- `X[i] <- v` -/
def wr {α : Type} {n : Nat} (x : Vector α n) (i : Nat) (v : α) : Vector α n := x.setIfInBounds i v

/-- `for i in lo..hi: body`, i = lo, lo + 1, …, hi − 1 in increasing order (00_scope.md R18). -/
def forRange {σ : Type} (lo hi : Nat) (body : Nat → σ → σ) (s : σ) : σ :=
  (List.range' lo (hi - lo)).foldl (fun t i => body i t) s

end Sys2Proof.Machine
end

