-- ==== Sys2Proof/Syntax.lean ====
section
/-! DEFINITION. The syntax the engine decodes: the command set (46_commands.md) and the frame, DECODE's operand
(30_encoding.md section 1). -/

namespace Sys2Proof

/-- The engine's whole instruction set (46_commands.md R233–R235); the word has no operand (30_encoding.md R126). -/
inductive Instr where
  /-- NOP, R235 -/
  | nop
  /-- RESET, R234 -/
  | reset
  /-- DECODE, R233 -/
  | decode
deriving DecidableEq, Repr

/-- The field values of one frame (30_encoding.md R121), as the `FRAME` notation of R134 gives them.
A field is a plain number here; `Frame.wf` says that each fits its width. -/
structure Frame where
  /-- LAGIDX[s], 6 bits -/
  lagIdx : Vector Nat 4
  /-- LAGV[s], 7 bits -/
  lagV   : Vector Nat 4
  /-- LSFIDX[i], LSF_BITS[i] bits -/
  lsfIdx : Vector Nat 10
  /-- CBSIGN[n], 1 bit, n = 12·s + v -/
  cbSign : Vector Nat 48
  /-- CBIDX[n], 5 bits -/
  cbIdx  : Vector Nat 48
deriving DecidableEq, Repr

end Sys2Proof
end

