-- ==== Sys2Proof/WellFormed.lean ====
section
/-! DEFINITION. Which syntax is well formed: the width of every frame field (30_encoding.md R121, R134) and the two
conditions on a command word (30_encoding.md R125). -/

namespace Sys2Proof

/-- Every command is well formed: the word has no immediate and no register field (30_encoding.md R126). -/
def Instr.wf : Instr → Bool
  | .nop => true
  | .reset => true
  | .decode => true

/-- Well-formedness of a command word before decoding: bits [31:4] are 0 and OP is 0, 1 or 2 (30_encoding.md R125, R127). -/
def commandWordWf (d : Word32) : Bool :=
  d.extractLsb' 4 28 == 0 && decide ((d.extractLsb' 0 4).toNat ≤ 2)

/-- LSF_BITS = (6, 6, 5, 5, 4, 4, 4, 4, 3, 3), which sum to 44 (10_state.md R50). -/
def lsfBitsTable : Vector Nat 10 := #v[6, 6, 5, 5, 4, 4, 4, 4, 3, 3]

/-- Every LAGIDX is a 6-bit value (30_encoding.md R121). -/
def Frame.lagIdxFit (f : Frame) : Bool := f.lagIdx.all (· < 2 ^ 6)

/-- Every LAGV is a 7-bit value, 0 to 127 (30_encoding.md R130). -/
def Frame.lagVFit (f : Frame) : Bool := f.lagV.all (· < 2 ^ 7)

/-- LSFIDX[i] has LSF_BITS[i] bits (10_state.md R50). -/
def Frame.lsfIdxFit (f : Frame) : Bool := (f.lsfIdx.zip lsfBitsTable).all fun (x, w) => x < 2 ^ w

/-- Every CBSIGN is one bit. -/
def Frame.cbSignFit (f : Frame) : Bool := f.cbSign.all (· < 2 ^ 1)

/-- Every CBIDX is a 5-bit value. -/
def Frame.cbIdxFit (f : Frame) : Bool := f.cbIdx.all (· < 2 ^ 5)

/-- Each field of the frame fits the width R121 gives it, as R134 asks of the value packed (0 ≤ x < 2^width). -/
def Frame.wf (f : Frame) : Bool :=
  f.lagIdxFit && f.lagVFit && f.lsfIdxFit && f.cbSignFit && f.cbIdxFit

end Sys2Proof
end

