-- ==== Sys2Proof/Decode.lean ====
section
/-! DEFINITION. The two encodings of 30_encoding.md: the command word (decoder, then encoder) and the packed frame. -/

namespace Sys2Proof

/-- Why a command word is no command (30_encoding.md R127). -/
inductive CommandReject where
  /-- OP is 0x3 to 0xF with bits [31:4] zero: `reserved` in the table of R125 -/
  | reservedOp (op : BitVec 4)
  /-- some bit of [31:4] is set: `reserved` in the table of R125 -/
  | reservedBits (high : BitVec 28)
  /-- fewer bytes than the one 32-bit word every command has (R128) -/
  | truncated
deriving DecidableEq, Repr

/-- The command a CMD word stands for (30_encoding.md R125; the test of 46_commands.md R230). -/
def decodeCommand (d : Word32) : Except CommandReject Instr :=
  if d.extractLsb' 4 28 ≠ 0 then .error (.reservedBits (d.extractLsb' 4 28))
  else match (d.extractLsb' 0 4).toNat with
    | 0 => .ok .nop
    | 1 => .ok .reset
    | 2 => .ok .decode
    | _ => .error (.reservedOp (d.extractLsb' 0 4))

/-- The 32-bit word whose bytes 0 to 3 are given: byte k holds bits [8k+7 : 8k] (20_memory.md R93). -/
def wordOfBytes (b0 b1 b2 b3 : Byte) : Word32 := b3 ++ b2 ++ b1 ++ b0

/-- Byte k of a port word (20_memory.md R93). -/
def byteOfWord (w : Word32) (k : Nat) : Byte := w.extractLsb' (8 * k) 8

/-- Decoding total on any bytes, the lowest address first; the rest of the bytes is returned. -/
def decodeBytes : List Byte → Except CommandReject (Instr × List Byte)
  | b0 :: b1 :: b2 :: b3 :: rest => (decodeCommand (wordOfBytes b0 b1 b2 b3)).map (·, rest)
  | _ => .error .truncated

/-- The word of a command (30_encoding.md R125, R133). -/
def encode : Instr → Word32
  | .nop => 0x00000000#32
  | .reset => 0x00000001#32
  | .decode => 0x00000002#32

/-- The bytes of a command's word as the port lays them out (20_memory.md R93). -/
def encodeBytes (i : Instr) : List Byte := (List.range 4).map (byteOfWord (encode i))

/-- The bytes of a table word of `nbits` bits: its low 32 bits, every bit above `nbits` zero, lowest byte first
(notes/assumptions/16.md). -/
def tableBytes (nbits w : Nat) : List Byte :=
  (List.range 4).map (byteOfWord (BitVec.ofNat 32 (w % 2 ^ nbits)))

/-- The instruction the decoder reads from a table word: bit 0 is the least significant bit of the word. -/
def decodeTableWord (nbits w : Nat) : Option Instr :=
  match decodeBytes (tableBytes nbits w) with
  | .ok (i, _) => some i
  | .error _ => none

/-! ### The frame (30_encoding.md R120–R122, R134) -/

/-- LSF_BITS[i] (10_state.md R50). -/
def lsfBits (i : Nat) : Nat := lsfBitsTable[i]?.getD 0

/-- First bit of LSFIDX[i] (30_encoding.md R121). -/
def lsfFirst (i : Nat) : Nat := (#v[52, 58, 64, 69, 74, 78, 82, 86, 90, 93] : Vector Nat 10)[i]?.getD 0

/-- A field of the frame layout: its first bit and its width (30_encoding.md R121). -/
structure FieldPos where
  first : Nat
  width : Nat
deriving DecidableEq, Repr

/-- LAGIDX[s] (30_encoding.md R121). -/
def posLagIdx (s : Nat) : FieldPos := ⟨13 * s, 6⟩
/-- LAGV[s] (30_encoding.md R121). -/
def posLagV (s : Nat) : FieldPos := ⟨13 * s + 6, 7⟩
/-- LSFIDX[i] (30_encoding.md R121). -/
def posLsfIdx (i : Nat) : FieldPos := ⟨lsfFirst i, lsfBits i⟩
/-- CBSIGN[n] (30_encoding.md R121). -/
def posCbSign (n : Nat) : FieldPos := ⟨96 + 6 * n, 1⟩
/-- CBIDX[n] (30_encoding.md R121). -/
def posCbIdx (n : Nat) : FieldPos := ⟨97 + 6 * n, 5⟩

/-- Every field of a frame with its place, in the order of R121's table. -/
def Frame.fields (f : Frame) : List (FieldPos × Nat) :=
  ((List.range 4).flatMap fun s =>
    [(posLagIdx s, f.lagIdx[s]?.getD 0), (posLagV s, f.lagV[s]?.getD 0)])
  ++ ((List.range 10).map fun i => (posLsfIdx i, f.lsfIdx[i]?.getD 0))
  ++ ((List.range 48).flatMap fun n =>
    [(posCbSign n, f.cbSign[n]?.getD 0), (posCbIdx n, f.cbIdx[n]?.getD 0)])

/-- Set bit p + j of the frame to x[j] for j = 0 to width − 1, in a frame whose field is still zero (30_encoding.md R134). -/
def setField (bits : BitVec 384) (p : FieldPos) (x : Nat) : BitVec 384 :=
  bits ||| (BitVec.ofNat 384 (x % 2 ^ p.width) <<< p.first)

/-- Packing a frame from field values, starting from 384 zero bits (30_encoding.md R134). -/
def packFrame (f : Frame) : BitVec 384 :=
  f.fields.foldl (fun bits px => setField bits px.1 px.2) 0

/-- The twelve words of a packed frame: w_j = Σ bit(32j + b)·2^b (30_encoding.md R134). -/
def frameWords (bits : BitVec 384) : Vector Word32 12 := Vector.ofFn fun j => bits.extractLsb' (32 * j.val) 32

/-- The value of a field: Σ bit(p + j)·2^j (20_memory.md R94). -/
def getField (bits : BitVec 384) (p : FieldPos) : Nat := (bits.extractLsb' p.first p.width).toNat

/-- The field values of 384 frame bits; every pattern is a valid frame (30_encoding.md R123). -/
def unpackFrame (bits : BitVec 384) : Frame where
  lagIdx := Vector.ofFn fun s => getField bits (posLagIdx s.val)
  lagV := Vector.ofFn fun s => getField bits (posLagV s.val)
  lsfIdx := Vector.ofFn fun i => getField bits (posLsfIdx i.val)
  cbSign := Vector.ofFn fun n => getField bits (posCbSign n.val)
  cbIdx := Vector.ofFn fun n => getField bits (posCbIdx n.val)

end Sys2Proof
end

