-- ==== Sys2Proof/Config.lean ====
section
/-! DEFINITION. What an engine fixes when it is built, and the values the spec leaves free. The constants below have no
body: no proof can learn what they are, so a claim about the machine holds whatever they are. The functions of the
datapath take a `Params`, and the machine runs them at `Config.params`. -/

namespace Sys2Proof

/-- The configuration of one engine (00_scope.md R11; 93_implementation_defined.md I1, I4, I5, I6). The table fields are
the raw contents; Machine/Operands.lean reads them with the scale and the constraints of 10_state.md R49 to R57. -/
structure Params where
  /-- NUMFMT (R11, R12; D1, D29) -/
  numfmt : NumFmt
  /-- POW10 outside the four arguments R21 fixes (D5) -/
  pow10 : NumVal → NumVal
  /-- ROM_LAGCOEF[row][column], used as stored (R52) -/
  lagCoef : Nat → Nat → NumVal
  /-- the integer n of ROM_LSF[i][k] = n/32768 (R53) -/
  lsfInt : Nat → Nat → Int
  /-- the integer n of ROM_CBVEC[row][i] = n/4096 (R54) -/
  cbvecInt : Nat → Nat → Int
  /-- the integer n of ROM_DGAIN[k] = n/8192 (R55) -/
  dgainInt : Nat → Int
  /-- the integer n_k of ROM_RATIO[k] = n_k/32768 for k = 1 to 13 (R56) -/
  ratioInt : Nat → Int
  /-- sign and payload of the NaN an operation delivers on two operands (notes/assumptions/3.md) -/
  nanBits : ArithOp → NumVal → NumVal → Bool × BitVec 51
deriving Inhabited

/-- NUMFMT: OPEN, fixed when the engine is built (00_scope.md R11; D1, D29; notes/assumptions/1.md). -/
opaque Config.numfmt : NumFmt

/-- POW10: OPEN (00_scope.md R11, R21; D5; notes/assumptions/4.md). -/
opaque Config.pow10 : NumVal → NumVal

/-- ROM_LAGCOEF: OPEN contents (10_state.md R52; D6; notes/assumptions/5.md). -/
opaque Config.romLagCoef : Nat → Nat → NumVal

/-- ROM_LSF: OPEN contents (10_state.md R53; D6). -/
opaque Config.romLsfInt : Nat → Nat → Int

/-- ROM_CBVEC: OPEN contents (10_state.md R54; D6). -/
opaque Config.romCbvecInt : Nat → Nat → Int

/-- ROM_DGAIN: OPEN contents (10_state.md R55; D6). -/
opaque Config.romDgainInt : Nat → Int

/-- ROM_RATIO[1..13]: OPEN contents (10_state.md R56; D6). -/
opaque Config.romRatioInt : Nat → Int

/-- FREE VALUE: sign and payload of a NaN result (notes/assumptions/3.md). -/
opaque Config.nanBits : ArithOp → NumVal → NumVal → Bool × BitVec 51

/-- FREE VALUE: the n-th unspecified word a host read returns while BUSY = 1 (20_memory.md R89, R100, R101;
93_implementation_defined.md I12, I13, I14; notes/assumptions/12.md). -/
opaque Config.freeWord : Nat → Word32

/-- The configuration the machine runs with. -/
def Config.params : Params where
  numfmt := Config.numfmt
  pow10 := Config.pow10
  lagCoef := Config.romLagCoef
  lsfInt := Config.romLsfInt
  cbvecInt := Config.romCbvecInt
  dgainInt := Config.romDgainInt
  ratioInt := Config.romRatioInt
  nanBits := Config.nanBits

end Sys2Proof
end

