-- ==== Sys2Proof/Machine/Float.lean ====
section
/-! DEFINITION. The numeric model: IEEE 754 binary32 and binary64 arithmetic, round to nearest, ties to even
(00_scope.md R12 to R14, R20, R21). IEEE 754's own content is taken by reference, as R12 does (notes/assumptions/2.md). -/

namespace Sys2Proof.Machine

open Sys2Proof

/-! ### Format parameters -/

/-- Significand bits p: 24 or 53. -/
def fmtPrec : NumFmt → Nat
  | .binary32 => 24
  | .binary64 => 53

/-- Largest exponent of a leading bit: 127 or 1023. -/
def fmtEmax : NumFmt → Int
  | .binary32 => 127
  | .binary64 => 1023

/-- Exponent of the smallest subnormal: −149 or −1074. -/
def fmtQmin : NumFmt → Int
  | .binary32 => -149
  | .binary64 => -1074

/-- How many payload bits a quiet NaN has below its quiet bit: 22 or 51. -/
def fmtPayloadBits : NumFmt → Nat
  | .binary32 => 22
  | .binary64 => 51

/-! ### Exact numbers and the one rounding -/

/-- Exponent of the lowest set bit of m > 0. -/
def trailingZeros (m : Nat) : Nat := Nat.log2 (m ^^^ (m - 1))

/-- The number (−1)^neg · m · 2^e with its trailing zeros moved into the exponent: the stored form of a finite value. -/
def normalize (neg : Bool) (m : Nat) (e : Int) : NumVal :=
  if m = 0 then .fin neg 0 0
  else .fin neg (m >>> trailingZeros m) (e + trailingZeros m)

/-- m / 2^k rounded to the nearest integer, ties to even. -/
def shiftRightRne (m k : Nat) : Nat :=
  let d := m >>> k
  let r := m % 2 ^ k
  if 2 ^ k < 2 * r ∨ (2 * r = 2 ^ k ∧ d % 2 = 1) then d + 1 else d

/-- The exponent of the last place of the format's value nearest m · 2^e: p bits below the leading bit of m, but not below
the smallest subnormal (no flush to zero, 00_scope.md R12). -/
def quantum (f : NumFmt) (m : Nat) (e : Int) : Int :=
  max (e + (Nat.log2 m : Int) - ((fmtPrec f : Int) - 1)) (fmtQmin f)

/-- A finite magnitude m · 2^e already on the format's grid, or the infinity it overflows to. -/
def overflowOr (f : NumFmt) (neg : Bool) (m : Nat) (e : Int) : NumVal :=
  if m ≠ 0 ∧ fmtEmax f < e + (Nat.log2 m : Int) then .inf neg else normalize neg m e

/-- (−1)^neg · m · 2^e rounded once to the format: round to nearest, ties to even (00_scope.md R12). A zero keeps the sign. -/
def roundTo (f : NumFmt) (neg : Bool) (m : Nat) (e : Int) : NumVal :=
  let q := quantum f m e
  if q ≤ e then overflowOr f neg m e
  else overflowOr f neg (shiftRightRne m (q - e).toNat) q

/-- (−1)^neg · (a / b) · 2^e rounded once to the format, for b > 0: the quotient is taken to at least p + 2 bits and its
remainder is kept as one last bit, so that the rounding sees the exact quotient. -/
def roundQuotient (f : NumFmt) (neg : Bool) (a b : Nat) (e : Int) : NumVal :=
  let k := fmtPrec f + 2 + Nat.log2 b - Nat.log2 a
  let q := (a <<< k) / b
  let sticky := if (a <<< k) % b = 0 then 0 else 1
  roundTo f neg (2 * q + sticky) (e - k - 1)

/-! ### Properties of one value -/

/-- x is a NaN. -/
def isNaN : NumVal → Bool
  | .nan _ _ => true
  | _ => false

/-- x is a finite number. -/
def isFinite : NumVal → Bool
  | .fin _ _ _ => true
  | _ => false

/-- The sign bit. -/
def signBit : NumVal → Bool
  | .fin s _ _ => s
  | .inf s => s
  | .nan s _ => s

/-- x is a value of the format, in its stored form (10_state.md R30: "Every numeric element is a NUMFMT value"). -/
def numWf (f : NumFmt) : NumVal → Bool
  | .fin _ m e =>
      (m == 0 && e == 0) ||
      (m % 2 == 1 && decide (m < 2 ^ fmtPrec f) && decide (fmtQmin f ≤ e) &&
        decide (e + (Nat.log2 m : Int) ≤ fmtEmax f))
  | .inf _ => true
  | .nan _ p => decide (p.toNat < 2 ^ fmtPayloadBits f)

/-- The integer n as a NUMFMT value, when the format holds it exactly (00_scope.md R14). -/
def numOfInt (n : Int) : NumVal := normalize (decide (n < 0)) n.natAbs 0

/-- num(n / d): the decimal or fraction rounded once to NUMFMT (00_scope.md R14), for d > 0. -/
def num (f : NumFmt) (n : Int) (d : Nat) : NumVal :=
  if n = 0 then NumVal.zero else roundQuotient f (decide (n < 0)) n.natAbs d 0

/-- The format's value nearest a number given in any form; used on configuration functions, which answer NUMFMT values. -/
def toFormat (f : NumFmt) : NumVal → NumVal
  | .fin s m e => roundTo f s m e
  | .inf s => .inf s
  | .nan s p => .nan s (BitVec.ofNat 51 (p.toNat % 2 ^ fmtPayloadBits f))

/-! ### The operations (00_scope.md R12, R20) -/

/-- `-f x` flips the sign bit (00_scope.md R12). -/
def fneg : NumVal → NumVal
  | .fin s m e => .fin (!s) m e
  | .inf s => .inf (!s)
  | .nan s p => .nan (!s) p

/-- The NaN an operation delivers: quiet, its sign and payload a free function of the operation and its operands
(notes/assumptions/3.md). -/
def freeNaN (P : Params) (op : ArithOp) (a b : NumVal) : NumVal :=
  let r := P.nanBits op a b
  .nan r.1 (BitVec.ofNat 51 (r.2.toNat % 2 ^ fmtPayloadBits P.numfmt))

/-- (−1)^s · m as an integer. -/
def signedInt (s : Bool) (m : Nat) : Int := if s then -(m : Int) else m

/-- The exact sum of two finite numbers, scaled by 2^(−min e g). -/
def alignedSum (s : Bool) (m : Nat) (e : Int) (t : Bool) (n : Nat) (g : Int) : Int :=
  signedInt s (m <<< (e - min e g).toNat) + signedInt t (n <<< (g - min e g).toNat)

/-- Sum with `invalid` the NaN delivered for a NaN operand or for ∞ − ∞. An exact zero sum is +0.0 unless both operands
carry a minus sign. -/
def sumOr (f : NumFmt) (invalid : NumVal) : NumVal → NumVal → NumVal
  | .nan _ _, _ => invalid
  | _, .nan _ _ => invalid
  | .inf s, .inf t => if s = t then .inf s else invalid
  | .inf s, .fin _ _ _ => .inf s
  | .fin _ _ _, .inf t => .inf t
  | .fin s m e, .fin t n g =>
      let x := alignedSum s m e t n g
      if x = 0 then .fin (s && t) 0 0 else roundTo f (decide (x < 0)) x.natAbs (min e g)

/-- a +f b -/
def fadd (P : Params) (a b : NumVal) : NumVal := sumOr P.numfmt (freeNaN P .add a b) a b

/-- a -f b -/
def fsub (P : Params) (a b : NumVal) : NumVal := sumOr P.numfmt (freeNaN P .sub a b) a (fneg b)

/-- a *f b -/
def fmul (P : Params) (a b : NumVal) : NumVal :=
  match a, b with
  | .nan _ _, _ => freeNaN P .mul a b
  | _, .nan _ _ => freeNaN P .mul a b
  | .inf s, .inf t => .inf (s != t)
  | .inf s, .fin t n _ => if n = 0 then freeNaN P .mul a b else .inf (s != t)
  | .fin s m _, .inf t => if m = 0 then freeNaN P .mul a b else .inf (s != t)
  | .fin s m e, .fin t n g => roundTo P.numfmt (s != t) (m * n) (e + g)

/-- a /f b -/
def fdiv (P : Params) (a b : NumVal) : NumVal :=
  match a, b with
  | .nan _ _, _ => freeNaN P .div a b
  | _, .nan _ _ => freeNaN P .div a b
  | .inf _, .inf _ => freeNaN P .div a b
  | .inf s, .fin t _ _ => .inf (s != t)
  | .fin s _ _, .inf t => .fin (s != t) 0 0
  | .fin s m e, .fin t n g =>
      if n = 0 then (if m = 0 then freeNaN P .div a b else .inf (s != t))
      else if m = 0 then .fin (s != t) 0 0
      else roundQuotient P.numfmt (s != t) m n (e - g)

/-- a <f b: the ordered less-than, false when either operand is a NaN; −0.0 and +0.0 are equal (00_scope.md R12). -/
def flt : NumVal → NumVal → Bool
  | .nan _ _, _ => false
  | _, .nan _ _ => false
  | .inf s, .inf t => s && !t
  | .inf s, .fin _ _ _ => s
  | .fin _ _ _, .inf t => !t
  | .fin s m e, .fin t n g => decide (alignedSum s m e (!t) n g < 0)

/-- clamp(x, lo, hi) (00_scope.md R20; D9): a NaN and −0.0 come back unchanged. -/
def clamp (x lo hi : NumVal) : NumVal := if flt x lo then lo else if flt hi x then hi else x

/-- x is the number c (either zero for c = 0). -/
def numEq (x c : NumVal) : Bool := !isNaN x && !isNaN c && !flt x c && !flt c x

/-- POW10(x) (00_scope.md R21): 1, 10, 100, 1000 at 0, 1, 2, 3 and the configuration's function elsewhere. -/
def pow10 (P : Params) (x : NumVal) : NumVal :=
  if numEq x (numOfInt 0) then numOfInt 1
  else if numEq x (numOfInt 1) then numOfInt 10
  else if numEq x (numOfInt 2) then numOfInt 100
  else if numEq x (numOfInt 3) then numOfInt 1000
  else toFormat P.numfmt (P.pow10 x)

/-! ### The encoding of a value in a window slot (20_memory.md R102) -/

/-- m · 2^e in units of 2^q (exact when q ≤ e). -/
def inUnits (m : Nat) (e q : Int) : Nat := if q ≤ e then m <<< (e - q).toNat else m >>> (q - e).toNat

/-- Sign, exponent field and fraction field of an IEEE 754 encoding. -/
def ieeeFields (f : NumFmt) : NumVal → Bool × Nat × Nat
  | .nan s p => (s, 2 * (fmtEmax f).toNat + 1, 2 ^ fmtPayloadBits f + p.toNat % 2 ^ fmtPayloadBits f)
  | .inf s => (s, 2 * (fmtEmax f).toNat + 1, 0)
  | .fin s m e =>
      let q := quantum f m e
      let sig := inUnits m e q
      if m = 0 then (s, 0, 0)
      else if sig < 2 ^ (fmtPrec f - 1) then (s, 0, sig)
      else (s, (q - fmtQmin f + 1).toNat, sig - 2 ^ (fmtPrec f - 1))

/-- The 64-bit slot of a value: the binary64 encoding, or the binary32 encoding with the high word 0 (20_memory.md R102). -/
def slotOf (f : NumFmt) (x : NumVal) : Slot64 :=
  let r := ieeeFields f x
  match f with
  | .binary64 => BitVec.ofBool r.1 ++ BitVec.ofNat 11 r.2.1 ++ BitVec.ofNat 52 r.2.2
  | .binary32 => 0#32 ++ (BitVec.ofBool r.1 ++ BitVec.ofNat 8 r.2.1 ++ BitVec.ofNat 23 r.2.2)

end Sys2Proof.Machine
end

