-- ==== Sys2Proof/Machine/Operands.lean ====
section
/-! DEFINITION. The operands of a DECODE: the static tables as the datapath reads them and the constants
(10_state.md R48 to R58; 30_encoding.md R129 to R132). -/

namespace Sys2Proof.Machine

open Sys2Proof

/-- A table entry as a finite NUMFMT value; a value that the format does not hold as a finite number is no table content
(10_state.md R64), and +0.0 stands for it (notes/assumptions/5.md). -/
def finiteEntry : NumVal → NumVal
  | .fin s m e => if m = 0 then NumVal.zero else .fin s m e
  | _ => NumVal.zero

/-- The table entry n / 2^k, converted to NUMFMT (10_state.md R49). -/
def scaledEntry (f : NumFmt) (n : Int) (k : Nat) : NumVal :=
  finiteEntry (roundTo f (decide (n < 0)) n.natAbs (-(k : Int)))

/-- ROM_LAGCOEF[row][col], used as stored (10_state.md R52; 44_pitch_excitation.md R207;
notes/assumptions/6.md). -/
def romLagCoef (P : Params) (row col : Nat) : NumVal := finiteEntry (toFormat P.numfmt (P.lagCoef row col))

/-- ROM_LSF[i][k] = n/32768 (10_state.md R53). -/
def romLsf (P : Params) (i k : Nat) : NumVal := scaledEntry P.numfmt (P.lsfInt i k) 15

/-- ROM_CBVEC[row][i] = n/4096 (10_state.md R54). -/
def romCbvec (P : Params) (row i : Nat) : NumVal := scaledEntry P.numfmt (P.cbvecInt row i) 12

/-- ROM_DGAIN[k] = n/8192 (10_state.md R55). -/
def romDgain (P : Params) (k : Nat) : NumVal := scaledEntry P.numfmt (P.dgainInt k) 13

/-- The integer n_k of ROM_RATIO[k]: 32190 at row 0, −1768 at row 14, and in between the configuration's integers, never
above the row before and never below −1768 (10_state.md R56). -/
def ratioInt (P : Params) : Nat → Int
  | 0 => 32190
  | k + 1 => if 14 ≤ k + 1 then -1768 else max (-1768) (min (ratioInt P k) (P.ratioInt (k + 1)))

/-- ROM_RATIO[k] = n_k/32768 (10_state.md R56). -/
def romRatio (P : Params) (k : Nat) : NumVal := scaledEntry P.numfmt (ratioInt P k) 15

/-- The power column in hundredths, rows 0 to 14 (10_state.md R57). -/
def powerHundredths : List Int := [92, 90, 88, 86, 83, 80, 75, 70, 65, 60, 50, 40, 30, 15, 0]

/-- ROM_POWER[k] = num(c) (10_state.md R57). -/
def romPower (P : Params) (k : Nat) : NumVal := num P.numfmt (powerHundredths[k]?.getD 0) 100

/-- FALLBACK_POWER = −0.10 (10_state.md R58). -/
def fallbackPower (P : Params) : NumVal := num P.numfmt (-10) 100

/-- K_GEF = num(0.8836), not 0.94 *f 0.94 (10_state.md R58; 90_conflicts.md C9). -/
def kGef (P : Params) : NumVal := num P.numfmt 8836 10000

/-- K_PREV = num(1.88) (10_state.md R58). -/
def kPrev (P : Params) : NumVal := num P.numfmt 188 100

/-- GL_MIN = −32 (10_state.md R58). -/
def glMin : NumVal := numOfInt (-32)
/-- GL_MAX = 28 (10_state.md R58). -/
def glMax : NumVal := numOfInt 28
/-- GL_OFF = 32 (10_state.md R58). -/
def glOff : NumVal := numOfInt 32
/-- GL_DIV = 20 (10_state.md R58). -/
def glDiv : NumVal := numOfInt 20

end Sys2Proof.Machine
end

