-- ==== Sys2Proof/Machine/State.lean ====
section
/-! DEFINITION. The state of the engine as plain data (10_state.md), why a step could stop, and the machine right after
power-on reset (10_state.md R60). -/

namespace Sys2Proof.Machine

open Sys2Proof

/-- Which event stops the machine: none. "The engine raises no synchronous exception and takes no trap"
(60_exceptions.md R240); 93_implementation_defined.md says of the treatment `fault`: "not used, because the engine raises
no fault". There is therefore no constructor (notes/assumptions/18.md). -/
inductive Fault where
deriving DecidableEq, Repr

/-- Why an instruction has no meaning. -/
inductive Refusal where
  /-- Raised by an arm of `exec` whose instruction is not modelled yet. Safe: the model stops. No arm raises it now. -/
  | notModelled (mnemonic : String)
deriving DecidableEq, Repr

/-- PENDING, the command being executed (10_state.md R45). -/
inductive Pending where
  | none
  | reset
  | decode
deriving DecidableEq, Repr

/-- The phase of the frame sequencer (10_state.md R47). -/
inductive Phase where
  | unpack
  | subframeStart
  | step
  | frameEnd
deriving DecidableEq, Repr

/-- The frame sequencer position (10_state.md R47): subframe s, codebook step v, and the phase. -/
structure SeqPos where
  s : Fin 4
  v : Fin 12
  phase : Phase
deriving DecidableEq, Repr

/-- The persistent decoder state (10_state.md R30). -/
structure Decoder where
  /-- PREV_VALID, R31 -/
  prevValid : Bool
  /-- PREV_LSF[0..10], R31, R32 -/
  prevLsf : Vector NumVal 10
  /-- SYN[0..10], index 0 the oldest, R33 -/
  syn : Vector NumVal 10
  /-- LAG[0..169], index 0 the oldest, R34 -/
  lag : Vector NumVal 169
  /-- CUR_GL, R35 -/
  curGl : NumVal
  /-- PREV_GL, R35 -/
  prevGl : NumVal
  /-- CUR_GE[0..3], R36 -/
  curGe : Vector NumVal 3
  /-- PREV_GE[0..3], R36 -/
  prevGe : Vector NumVal 3
  /-- CGP, R37 -/
  cgp : NumVal
deriving DecidableEq, Repr

/-- The working registers of one DECODE (10_state.md R46, R47), the flag oor (43_frame.md R195) and O (45_synthesis.md R220). -/
structure Work where
  /-- CURSOR, 0 to 384 -/
  cursor : BitVec 9
  /-- LAGC[s][0..3] -/
  lagc : Vector (Vector NumVal 3) 4
  /-- LAGV[s] -/
  lagv : Vector (BitVec 7) 4
  /-- LSF[0..10] -/
  lsf : Vector NumVal 10
  /-- LPC[0..11] -/
  lpc : Vector NumVal 11
  /-- E2_INIT -/
  e2Init : NumVal
  /-- CB_GL, the codebook gain level -/
  cbGl : NumVal
  /-- CB_GAIN, the codebook gain -/
  cbGain : NumVal
  /-- CB_SIGN -/
  cbSign : Bool
  /-- CB_IDX -/
  cbIdx : BitVec 5
  /-- PITCH[0..4] -/
  pitch : Vector NumVal 4
  /-- COMB[0..4] -/
  comb : Vector NumVal 4
  /-- O[0..4], the four outputs of the step -/
  o : Vector NumVal 4
  /-- OUTBUF[0..192] -/
  outbuf : Vector NumVal 192
  /-- oor, the DECODE's internal out-of-range flag (R19, R208) -/
  oor : Bool
  /-- seq, the sequencer position -/
  seq : SeqPos
deriving DecidableEq, Repr

/-- What the host cannot address (20_memory.md R82): the decoder state, FRAME_LATCH and the working registers. -/
structure Engine where
  dec : Decoder
  /-- FRAME_LATCH[0..48], 10_state.md R41 -/
  latch : Vector Byte 48
  wk : Work
deriving DecidableEq, Repr

/-- The stored bits of STATUS (10_state.md R42). Bit 5 mirrors PREV_VALID and has no storage; bits [31:6] are 0. -/
structure Status where
  /-- bit 0 -/
  busy : Bool
  /-- bit 1 -/
  done : Bool
  /-- bit 2 -/
  lagoor : Bool
  /-- bit 3 -/
  cmderr : Bool
  /-- bit 4 -/
  accerr : Bool
deriving DecidableEq, Repr

/-- Which agent the current step belongs to (notes/assumptions/10.md): the host, whose CMD write issues a command
(46_commands.md R230), or the engine, which completes it (46_commands.md R236). -/
inductive Agent where
  | host
  | engine
deriving DecidableEq, Repr

/-- One thing that happens at the engine's boundary (20_memory.md R80, R97; notes/assumptions/9.md). -/
inductive PortEvent where
  /-- a host read at byte offset `off` with byte enables `be` -/
  | read (off : Offset) (be : BitVec 4)
  /-- a host write of `d` -/
  | write (off : Offset) (be : BitVec 4) (d : Word32)
  /-- the engine completes the pending command, if there is one -/
  | engine
  /-- the reset input goes to `level` (true = asserted) -/
  | rst (level : Bool)
deriving DecidableEq, Repr

/-- The whole machine. -/
structure State where
  /-- the internal spaces -/
  eng : Engine
  /-- FRAME_IN[0..12], 10_state.md R40 -/
  frameIn : Vector Word32 12
  /-- OUT[0..192], 10_state.md R43 -/
  out : Vector NumVal 192
  /-- STATUS, 10_state.md R42 -/
  status : Status
  /-- PENDING, 10_state.md R45 -/
  pending : Pending
  /-- the level of the rst input, 20_memory.md R80 -/
  rst : Bool
  /-- the read data of the last host read, 20_memory.md R80 -/
  rdata : Word32
  /-- MODEL's own: the events still to come, the next one first -/
  script : List PortEvent
  /-- MODEL's own: whose step this is -/
  actor : Agent
  /-- MODEL's own: how many unspecified words have been drawn from `Config.freeWord` -/
  freeCount : Nat
deriving DecidableEq, Repr

/-- −32 as a NUMFMT value: exact in both formats (00_scope.md R14). -/
def numMinus32 : NumVal := .fin true 1 5

/-- The decoder state after power-on reset and after the RESET command (10_state.md R59, R60). -/
def Decoder.reset : Decoder where
  prevValid := false
  prevLsf := Vector.replicate 10 NumVal.zero
  syn := Vector.replicate 10 NumVal.zero
  lag := Vector.replicate 169 NumVal.zero
  curGl := numMinus32
  prevGl := numMinus32
  curGe := Vector.replicate 3 NumVal.zero
  prevGe := Vector.replicate 3 NumVal.zero
  cgp := NumVal.zero

/-- The working registers at power-on. DESIGN CHOICE (notes/assumptions/7.md): R60 says "unspecified, never observable";
LPC[0] is 1 because R163 says it always is. -/
def Work.reset : Work where
  cursor := 0
  lagc := Vector.replicate 4 (Vector.replicate 3 NumVal.zero)
  lagv := Vector.replicate 4 0
  lsf := Vector.replicate 10 NumVal.zero
  lpc := (Vector.replicate 11 NumVal.zero).setIfInBounds 0 (.fin false 1 0)
  e2Init := NumVal.zero
  cbGl := NumVal.zero
  cbGain := NumVal.zero
  cbSign := false
  cbIdx := 0
  pitch := Vector.replicate 4 NumVal.zero
  comb := Vector.replicate 4 NumVal.zero
  o := Vector.replicate 4 NumVal.zero
  outbuf := Vector.replicate 192 NumVal.zero
  oor := false
  seq := ⟨0, 0, .unpack⟩

/-- The internal spaces after power-on reset: FRAME_LATCH is 0 (10_state.md R60). -/
def Engine.reset : Engine := ⟨Decoder.reset, Vector.replicate 48 0, Work.reset⟩

/-- STATUS = 0 (70_reset_and_hazards.md R260). -/
def Status.reset : Status := ⟨false, false, false, false, false⟩

/-- The machine right after power-on reset, `rst` released (10_state.md R60; 70_reset_and_hazards.md R260). The fields
`rdata`, `script`, `actor` and `freeCount` have no value in the spec (notes/assumptions/8.md, 9.md, 10.md, 12.md). -/
def State.reset : State where
  eng := Engine.reset
  frameIn := Vector.replicate 12 0
  out := Vector.replicate 192 NumVal.zero
  status := Status.reset
  pending := .none
  rst := false
  rdata := 0
  script := []
  actor := .host
  freeCount := 0

end Sys2Proof.Machine
end

