-- ==== Sys2Proof/Machine/BitReader.lean ====
section
/-! DEFINITION. The bit reader and frame unpacking (40_bitreader.md). -/

namespace Sys2Proof.Machine

open Sys2Proof

/-- Frame bit p: bit p mod 8 of byte p div 8 of FRAME_LATCH, and 0 past bit 383 (40_bitreader.md R150; D23). -/
def latchBit (latch : Vector Byte 48) (p : Nat) : Nat :=
  if p < 384 then ((rd latch (p / 8)).getLsbD (p % 8)).toNat else 0

/-- The n bits from bit p on as an unsigned integer, the first bit the least significant (40_bitreader.md R150). -/
@[irreducible] def bitsFrom (latch : Vector Byte 48) (p n : Nat) : Nat :=
  forRange 0 n (fun j x => x + latchBit latch (p + j) * 2 ^ j) 0

/-- CURSOR <- c -/
def setCursor (c : Nat) (e : Engine) : Engine := { e with wk := { e.wk with cursor := BitVec.ofNat 9 c } }

/-- GETBITS(n) (40_bitreader.md R150). -/
def getBits (n : Nat) (e : Engine) : Nat × Engine :=
  (bitsFrom e.latch e.wk.cursor.toNat n, setCursor (e.wk.cursor.toNat + n) e)

/-- The row of ROM_LAGCOEF a 6-bit index selects (30_encoding.md R129). -/
def lagRow (P : Params) (k : Nat) : Vector NumVal 3 := #v[romLagCoef P k 0, romLagCoef P k 1, romLagCoef P k 2]

/-- One subframe's lag fields: the coefficient index, then the raw lag (40_bitreader.md R152). -/
def unpackLag (P : Params) (s : Nat) (e : Engine) : Engine :=
  let r := getBits 6 e
  let e := { r.2 with wk := { r.2.wk with lagc := wr r.2.wk.lagc s (lagRow P r.1) } }
  let r := getBits 7 e
  { r.2 with wk := { r.2.wk with lagv := wr r.2.wk.lagv s (BitVec.ofNat 7 r.1) } }

/-- One LSF index: LSF[i] <- ROM_LSF[i][GETBITS(LSF_BITS[i])] (40_bitreader.md R152; 30_encoding.md R131). -/
def unpackLsf (P : Params) (i : Nat) (e : Engine) : Engine :=
  let r := getBits (lsfBits i) e
  { r.2 with wk := { r.2.wk with lsf := wr r.2.wk.lsf i (romLsf P i r.1) } }

/-- UNPACK_HEADER (40_bitreader.md R152). -/
def unpackHeader (P : Params) (e : Engine) : Engine :=
  forRange 0 10 (unpackLsf P) (forRange 0 4 (unpackLag P) (setCursor 0 e))

/-- READ_CB: the sign bit, then the index (40_bitreader.md R153). -/
def readCb (e : Engine) : Engine :=
  let r := getBits 1 e
  let e := { r.2 with wk := { r.2.wk with cbSign := r.1 == 1 } }
  let r := getBits 5 e
  { r.2 with wk := { r.2.wk with cbIdx := BitVec.ofNat 5 r.1 } }

end Sys2Proof.Machine
end

