-- ==== Sys2Proof/Machine/Gain.lean ====
section
/-! DEFINITION. The adaptive-gain energy tracker, gain-power selection and codebook gain (42_gain.md). -/

namespace Sys2Proof.Machine

open Sys2Proof

/-- ENERGY_UPDATE(g1, g2, E): the new E; the value it returns is its element 2 (42_gain.md R175). -/
@[irreducible] def energyUpdate (P : Params) (g1 g2 : NumVal) (ge : Vector NumVal 3) : Vector NumVal 3 :=
  (forRange 0 3 (fun i (r : NumVal × Vector NumVal 3) =>
    let acc := fadd P r.1 (fmul P (kGef P) (rd r.2 i))
    (acc, wr r.2 i acc)) (fmul P g1 g2, ge)).2

/-- CAPTURE_E2, step 1 (42_gain.md R178). -/
def captureE2 (e : Engine) : Engine := { e with wk := { e.wk with e2Init := rd e.dec.curGe 2 } }

/-- CUR_ENERGY_STEP, step 2 (42_gain.md R176). -/
def curEnergyStep (P : Params) (e : Engine) : Engine :=
  { e with dec := { e.dec with curGe := energyUpdate P e.dec.curGl e.dec.curGl e.dec.curGe } }

/-- PREV_ENERGY_STEP, step 3 (42_gain.md R177). -/
def prevEnergyStep (P : Params) (e : Engine) : Engine :=
  { e with dec := { e.dec with prevGe := energyUpdate P e.dec.curGl e.dec.prevGl e.dec.prevGe } }

/-- The ratio ladder: the power of the first row whose strict test holds, rows 0 to 14 in order, and the fallback when
none does (42_gain.md R180). -/
def ladderPower (P : Params) (cE pE : NumVal) : NumVal :=
  match (List.range 15).find? fun k => flt (fmul P cE (romRatio P k)) pE with
  | some k => romPower P k
  | none => fallbackPower P

/-- currentEnergy of 42_gain.md R180. -/
def currentEnergy (P : Params) (e : Engine) : NumVal := fadd P (fmul P e.wk.e2Init (kGef P)) (rd e.dec.curGe 2)

/-- previousEnergy of 42_gain.md R180. -/
def previousEnergy (P : Params) (e : Engine) : NumVal := fmul P (rd e.dec.prevGe 2) (kPrev P)

/-- GAIN_POWER_SELECT, step 4 (42_gain.md R180). -/
def gainPowerSelect (P : Params) (e : Engine) : Engine :=
  { e with dec := { e.dec with cgp := ladderPower P (currentEnergy P e) (previousEnergy P e) } }

/-- CB_LEVEL, step 5 (42_gain.md R181). -/
def cbLevel (P : Params) (e : Engine) : Engine :=
  { e with wk := { e.wk with cbGl := clamp (fmul P e.dec.cgp e.dec.curGl) glMin glMax } }

/-- The codebook gain of a gain level: POW10((CB_GL +f GL_OFF) /f GL_DIV) (42_gain.md R182). -/
def levelToGain (P : Params) (gl : NumVal) : NumVal := pow10 P (fdiv P (fadd P gl glOff) glDiv)

/-- CB_GAIN, step 6 (42_gain.md R182). -/
def cbGain (P : Params) (e : Engine) : Engine :=
  { e with wk := { e.wk with cbGain := levelToGain P e.wk.cbGl } }

/-- GAIN_LEVEL_UPDATE, step 8: PREV_GL takes the old CUR_GL; no clamp is applied (42_gain.md R183; 90_conflicts.md C2). -/
def gainLevelUpdate (P : Params) (e : Engine) : Engine :=
  { e with dec := { e.dec with
      prevGl := e.dec.curGl
      curGl := fadd P e.wk.cbGl (romDgain P e.wk.cbIdx.toNat) } }

/-- SIGN_APPLY, step 9 (42_gain.md R184). -/
def signApply (e : Engine) : Engine :=
  { e with wk := { e.wk with cbGain := if e.wk.cbSign then fneg e.wk.cbGain else e.wk.cbGain } }

end Sys2Proof.Machine
end

