-- ==== Sys2Proof/Machine/Lsf.lean ====
section
/-! DEFINITION. The LSF→LPC polynomial converter and the LSF interpolator (41_lsf.md). -/

namespace Sys2Proof.Machine

open Sys2Proof

/-- The update of one pair (a, b), both values captured before either write (41_lsf.md R160, R161). -/
def lpcPair (P : Params) (f : NumVal) (a b : Nat) (lpc : Vector NumVal 11) : Vector NumVal 11 :=
  let fa := rd lpc a
  let fb := rd lpc b
  wr (wr lpc a (fadd P (fmul P f fb) fa)) b (fadd P (fmul P f fa) fb)

/-- `while b >= a` of 41_lsf.md R160; `fuel` bounds the number of turns. -/
def lpcWhile (P : Params) (f : NumVal) : (fuel a b : Nat) → Vector NumVal 11 → Vector NumVal 11
  | 0, _, _, lpc => lpc
  | fuel + 1, a, b, lpc => if a ≤ b then lpcWhile P f fuel (a + 1) (b - 1) (lpcPair P f a b lpc) else lpc

/-- Iteration i of 41_lsf.md R160: lpc[i] <- f, then the pairs (1, i−1), (2, i−2), …; i turns are more than they need. -/
def lpcIteration (P : Params) (f : NumVal) (i : Nat) (lpc : Vector NumVal 11) : Vector NumVal 11 :=
  lpcWhile P f i 1 (i - 1) (wr lpc i f)

/-- LSF_TO_LPC(x) (41_lsf.md R160). Elements 1 to 10 are written before they are read, so LPC needs no initial value. -/
@[irreducible] def lsfToLpc (P : Params) (x : Vector NumVal 10) : Vector NumVal 11 :=
  forRange 1 11 (fun i lpc => lpcIteration P (rd x (i - 1)) i lpc)
    (wr (Vector.replicate 11 NumVal.zero) 0 (numOfInt 1))

/-- new_ratio of subframe s: num(0.25) *f num(s + 1) (41_lsf.md R165, R166). -/
def newRatio (P : Params) (s : Nat) : NumVal := fmul P (num P.numfmt 25 100) (numOfInt (s + 1))

/-- old_ratio of subframe s: num(1) -f new_ratio (41_lsf.md R165). -/
def oldRatio (P : Params) (s : Nat) : NumVal := fsub P (numOfInt 1) (newRatio P s)

/-- LSF_INTERP(s) on the previous and the current vector (41_lsf.md R165). -/
def lsfInterp (P : Params) (s : Nat) (prev cur : Vector NumVal 10) : Vector NumVal 10 :=
  Vector.ofFn fun i => fadd P (fmul P (oldRatio P s) prev[i]) (fmul P (newRatio P s) cur[i])

/-- LPC_SELECT(s) (41_lsf.md R167). -/
def lpcSelect (P : Params) (s : Nat) (e : Engine) : Engine :=
  let x := if e.dec.prevValid then lsfInterp P s e.dec.prevLsf e.wk.lsf else e.wk.lsf
  { e with wk := { e.wk with lpc := lsfToLpc P x } }

end Sys2Proof.Machine
end

