-- ==== Sys2Proof/Machine/Pitch.lean ====
section
/-! DEFINITION. The lag buffer, the pitch vector and the combined excitation (44_pitch_excitation.md). -/

namespace Sys2Proof.Machine

open Sys2Proof

/-- The shift of the buffer by 48 places (44_pitch_excitation.md R205). -/
@[irreducible] def lagShifted (lag : Vector NumVal 169) : Vector NumVal 169 :=
  forRange 48 169 (fun i x => wr x (i - 48) (rd x i)) lag

/-- LAG_SHIFT (44_pitch_excitation.md R205). -/
def lagShift (e : Engine) : Engine := { e with dec := { e.dec with lag := lagShifted e.dec.lag } }

/-- The index is inside the buffer: 0 ≤ j ≤ 168 (44_pitch_excitation.md R208). -/
def lagInRange (j : Int) : Bool := decide (0 ≤ j) && decide (j ≤ 168)

/-- `raise LagOutOfRange`: the DECODE's oor flag is set; execution continues (00_scope.md R19; 60_exceptions.md R241). -/
def raiseLagOutOfRange (e : Engine) : Engine := { e with wk := { e.wk with oor := true } }

/-- LAGRD(j): the element, or +0.0 with the event outside 0 to 168 (44_pitch_excitation.md R208; D8). -/
def lagRead (j : Int) (e : Engine) : NumVal × Engine :=
  if lagInRange j then (rd e.dec.lag j.toNat, e) else (NumVal.zero, raiseLagOutOfRange e)

/-- R of step v for a raw lag: W − lag − 1 with W = 169 − 48 + 4v (44_pitch_excitation.md R206). -/
def pitchBase (v lag : Nat) : Int := (169 - 48 + 4 * v : Int) - lag - 1

/-- Output i of the pitch predictor: three taps, c2 on the oldest (44_pitch_excitation.md R206, R207). -/
def pitchTap (P : Params) (R : Int) (c : Vector NumVal 3) (i : Nat) (e : Engine) : Engine :=
  let a := lagRead (R + i) e
  let b := lagRead (R + i + 1) a.2
  let d := lagRead (R + i + 2) b.2
  let y := fadd P (fadd P (fmul P a.1 (rd c 2)) (fmul P b.1 (rd c 1))) (fmul P d.1 (rd c 0))
  { d.2 with wk := { d.2.wk with pitch := wr d.2.wk.pitch i y } }

/-- PITCH(s, v), step 10 (44_pitch_excitation.md R206). -/
def pitch (P : Params) (s v : Nat) (e : Engine) : Engine :=
  forRange 0 4 (pitchTap P (pitchBase v (rd e.wk.lagv s).toNat) (rd e.wk.lagc s)) e

/-- COMBINE, step 11 (44_pitch_excitation.md R209). -/
def combine (P : Params) (e : Engine) : Engine :=
  { e with wk := { e.wk with
      comb := forRange 0 4 (fun i x =>
        wr x i (fadd P (fmul P e.wk.cbGain (romCbvec P e.wk.cbIdx.toNat i)) (rd e.wk.pitch i))) e.wk.comb } }

/-- LAG_WRITE(v), step 12 (44_pitch_excitation.md R210). -/
def lagWrite (v : Nat) (e : Engine) : Engine :=
  { e with dec := { e.dec with
      lag := forRange 0 4 (fun i x => wr x (121 + 4 * v + i) (rd e.wk.comb i)) e.dec.lag } }

end Sys2Proof.Machine
end

