-- ==== Sys2Proof/Machine/Synthesis.lean ====
section
/-! DEFINITION. The LPC synthesis filter and sample emission (45_synthesis.md). -/

namespace Sys2Proof.Machine

open Sys2Proof

/-- The past output that tap k of output j multiplies: an output of this step, or an element of SYN (45_synthesis.md R220). -/
def synTap (syn : Vector NumVal 10) (o : Vector NumVal 4) (j k : Nat) : NumVal :=
  if k ≤ j then rd o (j - k) else rd syn (10 + j - k)

/-- Output j: COMB[j] less each lpc[k]·x, k = 1 to 10, one rounded product at a time (45_synthesis.md R220, R221). -/
def synOutput (P : Params) (lpc : Vector NumVal 11) (syn : Vector NumVal 10) (comb o : Vector NumVal 4) (j : Nat) : NumVal :=
  forRange 1 11 (fun k acc => fsub P acc (fmul P (rd lpc k) (synTap syn o j k))) (rd comb j)

/-- SYN_SHIFT_STORE (45_synthesis.md R222). -/
@[irreducible] def synShiftStore (syn : Vector NumVal 10) (o : Vector NumVal 4) : Vector NumVal 10 :=
  let t := forRange 4 10 (fun i x => wr x (i - 4) (rd x i)) syn
  wr (wr (wr (wr t 6 (rd o 0)) 7 (rd o 1)) 8 (rd o 2)) 9 (rd o 3)

/-- The four outputs of the step, o0 first: each sees the ones before it (45_synthesis.md R220). -/
@[irreducible] def synOutputs (P : Params) (e : Engine) : Vector NumVal 4 :=
  forRange 0 4 (fun j o => wr o j (synOutput P e.wk.lpc e.dec.syn e.wk.comb o j)) e.wk.o

/-- LPC_SYNTH, step 13 (45_synthesis.md R220). -/
def lpcSynth (P : Params) (e : Engine) : Engine :=
  { e with
    wk := { e.wk with o := synOutputs P e }
    dec := { e.dec with syn := synShiftStore e.dec.syn (synOutputs P e) } }

/-- EMIT(s, v), step 14: SYN[5] to SYN[8], so the last output of the step before comes first (45_synthesis.md R223;
90_conflicts.md C3). -/
def emit (s v : Nat) (e : Engine) : Engine :=
  { e with wk := { e.wk with
      outbuf := forRange 0 4 (fun i x => wr x ((s * 12 + v) * 4 + i) (rd e.dec.syn (10 - 5 + i))) e.wk.outbuf } }

end Sys2Proof.Machine
end

