-- ==== Sys2Proof/Machine/Frame.lean ====
section
/-! DEFINITION. The frame sequencer, DECODE_FRAME (43_frame.md). -/

namespace Sys2Proof.Machine

open Sys2Proof

/-- seq <- (s, v) with its phase (10_state.md R47; 00_scope.md R19). R195 gives the assignment at a codebook step only; the
other places are the model's choice (notes/assumptions/11.md). -/
def setSeq (s v : Nat) (ph : Phase) (e : Engine) : Engine :=
  { e with wk := { e.wk with seq := ⟨Fin.ofNat 4 s, Fin.ofNat 12 v, ph⟩ } }

/-- SUBFRAME_START(s) (43_frame.md R196). DESIGN CHOICE (notes/assumptions/11.md): R195 assigns seq only at a codebook step
and R47 gives no v for this phase; the model moves seq to (s, 0) here. No rule reads it. -/
def subframeStart (P : Params) (s : Nat) (e : Engine) : Engine :=
  lagShift (lpcSelect P s (setSeq s 0 .subframeStart e))

/-- Step 4 runs at step 0 of subframes 1, 2 and 3 only (43_frame.md R197; 42_gain.md R180). -/
def maybeGainPower (P : Params) (s v : Nat) (e : Engine) : Engine :=
  if s ≠ 0 ∧ v = 0 then gainPowerSelect P e else e

/-- Steps 1 to 9 of 43_frame.md R197: the gain chain and the codebook fields. -/
def gainSteps (P : Params) (s v : Nat) (e : Engine) : Engine :=
  let e := captureE2 e
  let e := curEnergyStep P e
  let e := prevEnergyStep P e
  let e := maybeGainPower P s v e
  let e := cbLevel P e
  let e := cbGain P e
  let e := readCb e
  let e := gainLevelUpdate P e
  signApply e

/-- Steps 10 to 14 of 43_frame.md R197: excitation, synthesis and emission. -/
def sampleSteps (P : Params) (s v : Nat) (e : Engine) : Engine :=
  let e := pitch P s v e
  let e := combine P e
  let e := lagWrite v e
  let e := lpcSynth P e
  emit s v e

/-- CODEBOOK_STEP(s, v): the fourteen steps in order (43_frame.md R197), after seq <- (s, v). -/
def codebookStep (P : Params) (s v : Nat) (e : Engine) : Engine :=
  sampleSteps P s v (gainSteps P s v (setSeq s v .step e))

/-- One subframe: its start and its twelve codebook steps (43_frame.md R195). -/
def subframe (P : Params) (s : Nat) (e : Engine) : Engine :=
  forRange 0 12 (codebookStep P s) (subframeStart P s e)

/-- FRAME_END: PREV_LSF takes the frame's quantized vector (43_frame.md R199). DESIGN CHOICE (notes/assumptions/11.md): seq
keeps (3, 11), and its phase becomes `frameEnd` here. -/
def frameEnd (e : Engine) : Engine :=
  { e with
    dec := { e.dec with prevLsf := e.wk.lsf, prevValid := true }
    wk := { e.wk with seq := { e.wk.seq with phase := .frameEnd } } }

/-- oor <- false, at the start of DECODE_FRAME (43_frame.md R195). -/
def clearOor (e : Engine) : Engine := { e with wk := { e.wk with oor := false } }

/-- DECODE_FRAME (43_frame.md R195): its results are the decoder state, OUTBUF and oor of the engine it answers.
DESIGN CHOICE (notes/assumptions/11.md): R195 assigns seq only at a codebook step; the model moves it to (0, 0), phase
`unpack`, before UNPACK_HEADER. No rule reads it. -/
@[irreducible] def decodeFrame (P : Params) (e : Engine) : Engine :=
  let e := unpackHeader P (setSeq 0 0 .unpack (clearOor e))
  let e := forRange 0 4 (subframe P) e
  frameEnd e

end Sys2Proof.Machine
end

