-- ==== Sys2Proof/Machine/Flags.lean ====
section
/-! DEFINITION. Every computation on the STATUS register (10_state.md R42; 60_exceptions.md R240 to R245). -/

namespace Sys2Proof.Machine

open Sys2Proof

/-- The word a STATUS read gives, with the given bit 5; bits [31:6] are 0 (10_state.md R42). -/
def statusWord (st : Status) (bit5 : Bool) : Word32 :=
  0#26 ++ BitVec.ofBool bit5 ++ BitVec.ofBool st.accerr ++ BitVec.ofBool st.cmderr ++ BitVec.ofBool st.lagoor
    ++ BitVec.ofBool st.done ++ BitVec.ofBool st.busy

/-- A write of d to STATUS: each W1C bit, 1 to 4, whose data bit is 1 is cleared; BUSY and PREV_VALID ignore the write
(20_memory.md R86, R89). -/
def statusWriteOne (st : Status) (d : Word32) : Status where
  busy := st.busy
  done := st.done && !d.getLsbD 1
  lagoor := st.lagoor && !d.getLsbD 2
  cmderr := st.cmderr && !d.getLsbD 3
  accerr := st.accerr && !d.getLsbD 4

/-- LagOutOfRange: LAGOOR is set when the DECODE's oor flag is; it is sticky (46_commands.md R233; 60_exceptions.md R241). -/
def statusOrLagoor (st : Status) (oor : Bool) : Status := { st with lagoor := st.lagoor || oor }

/-- CommandRejected (60_exceptions.md R242). -/
def statusCmderr (st : Status) : Status := { st with cmderr := true }

/-- AccessRefused (60_exceptions.md R243). -/
def statusAccerr (st : Status) : Status := { st with accerr := true }

/-- Acceptance: DONE <- 0, BUSY <- 1 (46_commands.md R231). -/
def statusAccept (st : Status) : Status := { st with done := false, busy := true }

/-- Completion: BUSY <- 0, DONE <- 1 (46_commands.md R236). -/
def statusComplete (st : Status) : Status := { st with busy := false, done := true }

end Sys2Proof.Machine
end

