-- ==== Sys2Proof/Machine/Ops.lean ====
section
/-! DEFINITION. The named operations on the machine that commands and the port share: recording an event, the frame latch,
acceptance and completion of a command, power-on reset, and an unspecified value. The engine has no exception entry and no
return (60_exceptions.md R247, R248): recording an event in STATUS is all an event does (R240). -/

namespace Sys2Proof.Machine

open Sys2Proof

/-- CommandRejected: STATUS.CMDERR is set and nothing else changes (46_commands.md R230; 60_exceptions.md R242). -/
def rejectCommand (s : State) : State := { s with status := statusCmderr s.status }

/-- AccessRefused: STATUS.ACCERR is set and nothing else changes (20_memory.md R86; 60_exceptions.md R243). -/
def refuseAccess (s : State) : State := { s with status := statusAccerr s.status }

/-- FRAME_LATCH[k] <- FRAME_IN[k div 4][8·(k mod 4)+7 : 8·(k mod 4)] (46_commands.md R232; 20_memory.md R93). -/
@[irreducible] def latchOf (frameIn : Vector Word32 12) : Vector Byte 48 :=
  Vector.ofFn fun k => byteOfWord (rd frameIn (k.val / 4)) (k.val % 4)

/-- Accept(op): PENDING <- op, DONE <- 0, BUSY <- 1 (46_commands.md R231). -/
def accept (op : Pending) (s : State) : State := { s with pending := op, status := statusAccept s.status }

/-- The frame copy of a DECODE's acceptance (46_commands.md R231, R232). -/
def latchFrame (s : State) : State := { s with eng := { s.eng with latch := latchOf s.frameIn } }

/-- Complete: PENDING <- none, BUSY <- 0, DONE <- 1 (46_commands.md R236). -/
def complete (s : State) : State := { s with pending := .none, status := statusComplete s.status }

/-- Power-on reset (10_state.md R60; 20_memory.md R80): everything the spec gives the engine. What lies outside it (the
events to come, the last read data, the count of unspecified values, whose step it is) is kept. -/
def powerOn (s : State) : State :=
  { State.reset with rst := s.rst, rdata := s.rdata, script := s.script, actor := s.actor, freeCount := s.freeCount }

/-- The reset input goes to `level`. While it is asserted the engine holds the power-on reset state; a command in progress
is abandoned with none of its completion effects (20_memory.md R80; 46_commands.md R237; notes/assumptions/13.md). -/
def setRst (level : Bool) (s : State) : State :=
  if level then { powerOn s with rst := true } else { s with rst := false }

/-- The next unspecified word, and the machine that has drawn it (notes/assumptions/12.md). -/
def drawFree (s : State) : Word32 × State := (Config.freeWord s.freeCount, { s with freeCount := s.freeCount + 1 })

/-- The port's read data (20_memory.md R80). -/
def setRdata (d : Word32) (s : State) : State := { s with rdata := d }

/-- Whose step this is (notes/assumptions/10.md). -/
def setActor (a : Agent) (s : State) : State := { s with actor := a }

end Sys2Proof.Machine
end

