-- ==== Sys2Proof/Machine/Commands.lean ====
section
/-! DEFINITION. The meanings of NOP, RESET and DECODE (46_commands.md). A command acts at two instants: the CMD write that
issues it (R230 to R232), which is the host's step, and its completion (R233, R234, R236), which is the engine's. -/

namespace Sys2Proof.Machine

open Sys2Proof

/-- RESET issued by a CMD write: rejected while BUSY, else accepted (46_commands.md R230, R231). -/
def issueReset (s : State) : State :=
  if s.status.busy then rejectCommand s else accept .reset s

/-- DECODE issued by a CMD write: rejected while BUSY, else accepted with the frame latched (46_commands.md R230 to R232). -/
def issueDecode (s : State) : State :=
  if s.status.busy then rejectCommand s else latchFrame (accept .decode s)

/-- RESET completion: the decoder state of 10_state.md R60; FRAME_IN, FRAME_LATCH, OUT and the sticky flags stay
(46_commands.md R234; D18). -/
def completeReset (s : State) : State :=
  complete { s with eng := { s.eng with dec := Decoder.reset } }

/-- DECODE completion: OUT <- OUTBUF, LAGOOR set if some lag read was out of range (46_commands.md R233). -/
def completeDecode (P : Params) (s : State) : State :=
  let e := decodeFrame P s.eng
  complete { s with eng := e, out := e.wk.outbuf, status := statusOrLagoor s.status e.wk.oor }

/-- NOP: no effect, never rejected, allowed while BUSY (46_commands.md R230, R235). It is never pending, so the engine
has no step of it. -/
def execNop (s : State) : Host.Outcome State Fault Refusal := .next s

/-- RESET (46_commands.md R234): issued by the host, completed by the engine. -/
def execReset (s : State) : Host.Outcome State Fault Refusal :=
  match s.actor with
  | .host => .next (issueReset s)
  | .engine => .next (completeReset s)

/-- DECODE (46_commands.md R233): issued by the host, completed by the engine. -/
def execDecode (s : State) : Host.Outcome State Fault Refusal :=
  match s.actor with
  | .host => .next (issueDecode s)
  | .engine => .next (completeDecode Config.params s)

end Sys2Proof.Machine
end

