-- ==== Sys2Proof/Machine/Port.lean ====
section
/-! DEFINITION. The host port (20_memory.md): the register map, admission, reads and writes, and the engine's turn; and the
host assembly of 30_encoding.md section 4. -/

namespace Sys2Proof.Machine

open Sys2Proof

/-- What a 4-aligned offset names (20_memory.md R84). -/
inductive Reg where
  | id
  | cfg
  | cmd
  | status
  /-- FRAME_IN[j] -/
  | frameIn (j : Nat)
  /-- a word of STATE window slot k (R101); `high` is the word at the slot's offset + 4 -/
  | stateSlot (k : Nat) (high : Bool)
  /-- a word of OUT window slot n (R100) -/
  | outSlot (n : Nat) (high : Bool)
  | reserved
deriving DecidableEq, Repr

/-- The register map (20_memory.md R84), on an offset that is a multiple of 4. -/
def regAt (off : Nat) : Reg :=
  if off = 0x0000 then .id
  else if off = 0x0004 then .cfg
  else if off = 0x0008 then .cmd
  else if off = 0x000C then .status
  else if 0x0100 ≤ off ∧ off ≤ 0x012F then .frameIn ((off - 0x0100) / 4)
  else if 0x1000 ≤ off ∧ off ≤ 0x17FF then .stateSlot ((off - 0x1000) / 8) (decide (4 ≤ off % 8))
  else if 0x2000 ≤ off ∧ off ≤ 0x25FF then .outSlot ((off - 0x2000) / 8) (decide (4 ≤ off % 8))
  else .reserved

/-- The register an access reaches, `reserved` for a misaligned or partial access (20_memory.md R85, R86). -/
def accessed (off : Offset) (be : BitVec 4) : Reg :=
  if off.toNat % 4 ≠ 0 ∨ be ≠ 0b1111#4 then .reserved else regAt off.toNat

/-- ID (10_state.md R44; 20_memory.md R87). -/
def idValue : Word32 := 0x554F4431#32

/-- CFG: bit 0 is 1 for binary64 (10_state.md R44; 20_memory.md R87). -/
def cfgValue (f : NumFmt) : Word32 := if f = .binary64 then 1#32 else 0#32

/-- One 32-bit word of a slot (20_memory.md R95, R102). -/
def slotWord (f : NumFmt) (x : NumVal) (high : Bool) : Word32 :=
  (slotOf f x).extractLsb' (if high then 32 else 0) 32

/-- The element of the decoder state that STATE slot k shows, for k = 0 to 197 (20_memory.md R101). -/
def stateSlotValue (d : Decoder) (k : Nat) : NumVal :=
  if k < 10 then rd d.prevLsf k
  else if k < 20 then rd d.syn (k - 10)
  else if k < 189 then rd d.lag (k - 20)
  else if k = 189 then d.curGl
  else if k = 190 then d.prevGl
  else if k < 194 then rd d.curGe (k - 191)
  else if k < 197 then rd d.prevGe (k - 194)
  else d.cgp

/-- What reading a register gives, RegValue(off) of 20_memory.md R86: a word of the state, an unspecified word while
BUSY = 1 (R89, R100, R101), or a refusal. -/
inductive ReadValue where
  /-- the word the rules give -/
  | word (w : Word32)
  /-- an unspecified word; the bits of `mask` are unspecified and the others are those of `w` -/
  | free (mask w : Word32)
  /-- a refused read -/
  | refused
deriving DecidableEq, Repr

/-- A word that is unspecified while BUSY = 1 (20_memory.md R100, R101). -/
def unlessBusy (s : State) (w : Word32) : ReadValue := if s.status.busy then .free 0xFFFFFFFF#32 w else .word w

/-- STATUS, bit 5 unspecified while BUSY = 1 (20_memory.md R89). -/
def statusValue (s : State) : ReadValue :=
  if s.status.busy then .free 0x00000020#32 (statusWord s.status s.eng.dec.prevValid)
  else .word (statusWord s.status s.eng.dec.prevValid)

/-- RegValue(off) (20_memory.md R86 to R102). -/
def regValue (P : Params) (s : State) : Reg → ReadValue
  | .id => .word idValue
  | .cfg => .word (cfgValue P.numfmt)
  | .cmd => .word 0
  | .status => statusValue s
  | .frameIn j => .word (rd s.frameIn j)
  | .stateSlot k high =>
      if k < 198 then unlessBusy s (slotWord P.numfmt (stateSlotValue s.eng.dec k) high) else .word 0
  | .outSlot n high => unlessBusy s (slotWord P.numfmt (rd s.out n) high)
  | .reserved => .refused

/-- HostRead(off, be) (20_memory.md R86); while `rst` is asserted a read returns 0 and sets nothing (R80). -/
def hostRead (P : Params) (off : Offset) (be : BitVec 4) (s : State) : State :=
  if s.rst then setRdata 0 s
  else match regValue P s (accessed off be) with
    | .word w => setRdata w s
    | .free mask w => setRdata ((w &&& ~~~mask) ||| ((drawFree s).1 &&& mask)) (drawFree s).2
    | .refused => setRdata 0 (refuseAccess s)

/-- What a host write comes to: a new state, or a command word for 46_commands.md R230. -/
inductive WriteEffect where
  | done (s : State)
  | command (d : Word32)

/-- HostWrite(off, be, d) (20_memory.md R86); while `rst` is asserted a write has no effect (R80). -/
def hostWrite (off : Offset) (be : BitVec 4) (d : Word32) (s : State) : WriteEffect :=
  if s.rst then .done s
  else match accessed off be with
    | .cmd => .command d
    | .status => .done { s with status := statusWriteOne s.status d }
    | .frameIn j => .done { s with frameIn := wr s.frameIn j d }
    | .id => .done (refuseAccess s)
    | .cfg => .done (refuseAccess s)
    | .stateSlot _ _ => .done (refuseAccess s)
    | .outSlot _ _ => .done (refuseAccess s)
    | .reserved => .done (refuseAccess s)

/-- The command the engine completes at its turn: PENDING, unless `rst` is asserted (10_state.md R45; 20_memory.md R80). -/
def engineCommand (s : State) : Option Instr :=
  if s.rst then none
  else match s.pending with
    | .none => none
    | .reset => some .reset
    | .decode => some .decode

/-! ### Host assembly (30_encoding.md R133) -/

/-- One line of host assembly (30_encoding.md R133). -/
inductive AsmLine where
  | wr (off : Offset) (d : Word32)
  | rd (off : Offset)
  | nop
  | reset
  | decode
  /-- WAIT, when its first `polls` reads still see BUSY = 1 (T_CMD is open: notes/assumptions/9.md) -/
  | wait (polls : Nat)
  | clr (m : Word32)
  | loadf (w : Vector Word32 12)
  | loadFrame (f : Frame)
  | rdout (n : Nat)

/-- One 32-bit write, be = 0b1111. -/
def asmWrite (off : Offset) (d : Word32) : PortEvent := .write off 0b1111#4 d

/-- One 32-bit read, be = 0b1111. -/
def asmRead (off : Offset) : PortEvent := .read off 0b1111#4

/-- LOADF: the twelve words to 0x0100, 0x0104, …, 0x012C. -/
def asmLoad (w : Vector Word32 12) : List PortEvent :=
  (List.range 12).map fun j => asmWrite (BitVec.ofNat 14 (0x0100 + 4 * j)) (rd w j)

/-- The transactions a line stands for (30_encoding.md R133). The completion that a WAIT waits for stands where it falls
among the polls. -/
def AsmLine.expand : AsmLine → List PortEvent
  | .wr off d => [asmWrite off d]
  | .rd off => [asmRead off]
  | .nop => [asmWrite 0x0008#14 (encode .nop)]
  | .reset => [asmWrite 0x0008#14 (encode .reset)]
  | .decode => [asmWrite 0x0008#14 (encode .decode)]
  | .wait polls => List.replicate polls (asmRead 0x000C#14) ++ [.engine, asmRead 0x000C#14]
  | .clr m => [asmWrite 0x000C#14 m]
  | .loadf w => asmLoad w
  | .loadFrame f => asmLoad (frameWords (packFrame f))
  | .rdout n => [asmRead (BitVec.ofNat 14 (0x2000 + 8 * n)), asmRead (BitVec.ofNat 14 (0x2004 + 8 * n))]

end Sys2Proof.Machine
end

