-- ==== Sys2Proof/Machine/Events.lean ====
section
/-! DEFINITION. The events at the engine's boundary (20_memory.md R97): a host transaction, the engine's turn, a change of
the reset input; each a call of the operations of Ops.lean and Port.lean and of `exec`. -/

namespace Sys2Proof.Machine

open Sys2Proof

/-- The engine's turn: it completes the pending command (46_commands.md R236), or nothing happens. -/
def engineTurn (s : State) : Host.Outcome State Fault Refusal :=
  match engineCommand s with
  | some i => exec i (setActor .engine s)
  | none => .next (setActor .engine s)

/-- Command(d): a reserved word is rejected, any other is the command it encodes (46_commands.md R230). -/
def commandWrite (d : Word32) (s : State) : Host.Outcome State Fault Refusal :=
  match decodeCommand d with
  | .ok i => exec i s
  | .error _ => .next (rejectCommand s)

/-- One event at the engine's boundary (20_memory.md R97). -/
def stepEvent (ev : PortEvent) (s : State) : Host.Outcome State Fault Refusal :=
  match ev with
  | .read off be => .next (hostRead Config.params off be (setActor .host s))
  | .write off be d =>
      match hostWrite off be d (setActor .host s) with
      | .done t => .next t
      | .command w => commandWrite w (setActor .host s)
  | .engine => engineTurn s
  | .rst level => .next (setRst level s)

end Sys2Proof.Machine
end

