-- ==== Sys2Proof/Machine/Step.lean ====
section
/-! DEFINITION. One step of the machine: the next event of the script, or the engine's turn when the script is empty
(notes/assumptions/9.md), so that every accepted command is completed (46_commands.md R236). -/

namespace Sys2Proof.Machine

open Sys2Proof

/-- One step. -/
def step (s : State) : Host.Outcome State Fault Refusal :=
  match s.script with
  | [] => engineTurn s
  | ev :: rest => stepEvent ev { s with script := rest }

/-- The machine whose next step is the CMD write of the command in the low `nbits` bits of w, all four byte lanes enabled.
`rst` is released: while it is asserted no write has an effect (20_memory.md R80). -/
def State.withFetchWord (s : State) (nbits w : Nat) : State :=
  { s with
    rst := false
    script := .write 0x0008#14 0b1111#4 (BitVec.ofNat 32 (w % 2 ^ nbits)) :: s.script }

end Sys2Proof.Machine
end

