-- ==== Sys2Proof/Safety.lean ====
section
/-! DEFINITION. What the claims call a good state and a safe run: the invariants of 10_state.md R38, R39 and R45, and the
views of the state the statements use. -/

namespace Sys2Proof.Machine

open Sys2Proof

/-- PENDING is none exactly when STATUS.BUSY = 0 (10_state.md R45). -/
def pendingAgrees (s : State) : Bool := s.status.busy == decide (s.pending ≠ .none)

/-- The 16 values CGP can take: the powers of ROM_POWER and FALLBACK_POWER (10_state.md R38). -/
def cgpValues (P : Params) : List NumVal := fallbackPower P :: (List.range 15).map (romPower P)

/-- CGP is one of the 16 values (10_state.md R38). -/
def cgpLegal (P : Params) (d : Decoder) : Prop := d.cgp ∈ cgpValues P

/-- A value that is not negative: a sign bit of 0, or a NaN (10_state.md R39). -/
def nonNegOrNaN (x : NumVal) : Bool := isNaN x || !signBit x

/-- No component of CUR_GE is negative (10_state.md R39; 42_gain.md R179). -/
def curGeNonNeg (d : Decoder) : Prop := ∀ i < 3, nonNegOrNaN (rd d.curGe i) = true

/-- Every element of a vector is a value of the format. -/
def allWf (f : NumFmt) {n : Nat} (x : Vector NumVal n) : Prop := ∀ i < n, numWf f (rd x i) = true

/-- Every numeric element of the decoder state is a NUMFMT value (10_state.md R30). -/
structure Decoder.Wf (f : NumFmt) (d : Decoder) : Prop where
  prevLsf : allWf f d.prevLsf
  syn : allWf f d.syn
  lag : allWf f d.lag
  curGl : numWf f d.curGl = true
  prevGl : numWf f d.prevGl = true
  curGe : allWf f d.curGe
  prevGe : allWf f d.prevGe
  cgp : numWf f d.cgp = true

/-- Every numeric working register is a NUMFMT value (10_state.md R46), and CURSOR is 0 to 384. -/
structure Work.Wf (f : NumFmt) (w : Work) : Prop where
  cursor : w.cursor.toNat ≤ 384
  lagc : ∀ s < 4, allWf f (rd w.lagc s)
  lsf : allWf f w.lsf
  lpc : allWf f w.lpc
  e2Init : numWf f w.e2Init = true
  cbGl : numWf f w.cbGl = true
  cbGain : numWf f w.cbGain = true
  pitch : allWf f w.pitch
  comb : allWf f w.comb
  o : allWf f w.o
  outbuf : allWf f w.outbuf

/-- The numbers of a machine: decoder state, working registers and OUT hold NUMFMT values only. -/
structure State.NumbersWf (f : NumFmt) (s : State) : Prop where
  dec : s.eng.dec.Wf f
  wk : s.eng.wk.Wf f
  out : allWf f s.out

/-- While the reset input is asserted the engine holds the power-on reset state (20_memory.md R80). -/
def heldInReset (s : State) : Prop := s.rst = true → s = { powerOn s with rst := true }

/-- The invariant of the machine: BUSY and PENDING agree (R45), CGP is legal and lpc[0] = 1 (R38), no component of CUR_GE
is negative (R39), and an asserted reset holds the power-on state (R80). -/
structure State.Inv (P : Params) (s : State) : Prop where
  pending : pendingAgrees s = true
  cgp : cgpLegal P s.eng.dec
  lpc0 : rd s.eng.wk.lpc 0 = numOfInt 1
  curGe : curGeNonNeg s.eng.dec
  held : heldInReset s

/-- The number a finite value is. -/
def numRat : NumVal → ℚ
  | .fin s m e => (if s then -1 else 1) * (m : ℚ) * (2 : ℚ) ^ e
  | _ => 0

/-- The significand of a finite value, counted in units of its last place, is even. -/
def evenSignificand (f : NumFmt) : NumVal → Prop
  | .fin _ m e => inUnits m e (quantum f m e) % 2 = 0
  | _ => True

/-- y is x rounded once to the format, to nearest, ties to even (00_scope.md R12): no finite value of the format is nearer
to x than y is; when another one is as near, y has the even significand; y is finite while |x| stays below the midpoint above the largest
finite value, and the infinity of x's sign from there on; and y carries the sign of x, when x is not 0. -/
structure RoundedTo (f : NumFmt) (x : ℚ) (y : NumVal) : Prop where
  wf : numWf f y = true
  nearest : isFinite y = true → ∀ z, numWf f z = true → isFinite z = true → |numRat y - x| ≤ |numRat z - x|
  tie : isFinite y = true → ∀ z, numWf f z = true → isFinite z = true → numRat z ≠ numRat y →
    |numRat z - x| = |numRat y - x| → evenSignificand f y
  finite : |x| + (2 : ℚ) ^ (fmtEmax f - (fmtPrec f : Int)) < (2 : ℚ) ^ (fmtEmax f + 1) → isFinite y = true
  overflow : (2 : ℚ) ^ (fmtEmax f + 1) ≤ |x| + (2 : ℚ) ^ (fmtEmax f - (fmtPrec f : Int)) → y = .inf (decide (x < 0))
  sign : x ≠ 0 → signBit y = decide (x < 0)

/-- Width of an IEEE 754 exponent field. -/
def ieeeExpBits : NumFmt → Nat
  | .binary32 => 8
  | .binary64 => 11

/-- Width of an IEEE 754 fraction field. -/
def ieeeFracBits : NumFmt → Nat
  | .binary32 => 23
  | .binary64 => 52

/-- Exponent bias of an IEEE 754 encoding. -/
def ieeeBias : NumFmt → Int
  | .binary32 => 127
  | .binary64 => 1023

/-- The slot word w is the IEEE 754 encoding of x (20_memory.md R102; notes/assumptions/2.md): the sign bit is x's; for a
finite x the exponent field E and the fraction field F stand for its number, subnormal when E is 0; an infinity has E all
ones and F zero, a quiet NaN E all ones and F the quiet bit and the payload. -/
structure SlotStandsFor (f : NumFmt) (x : NumVal) (w : Slot64) : Prop where
  sign : w.getLsbD (ieeeFracBits f + ieeeExpBits f) = signBit x
  finiteExp : isFinite x = true → (w.extractLsb' (ieeeFracBits f) (ieeeExpBits f)).toNat < 2 ^ ieeeExpBits f - 1
  finiteNum : isFinite x = true → numRat x = (if signBit x then -1 else 1) *
    (if (w.extractLsb' (ieeeFracBits f) (ieeeExpBits f)).toNat = 0 then
      ((w.extractLsb' 0 (ieeeFracBits f)).toNat : ℚ) * (2 : ℚ) ^ (1 - ieeeBias f - (ieeeFracBits f : Int))
    else
      ((2 : ℚ) ^ ieeeFracBits f + ((w.extractLsb' 0 (ieeeFracBits f)).toNat : ℚ)) *
        (2 : ℚ) ^ (((w.extractLsb' (ieeeFracBits f) (ieeeExpBits f)).toNat : Int) - ieeeBias f - (ieeeFracBits f : Int)))
  inf : ∀ s, x = .inf s →
    (w.extractLsb' (ieeeFracBits f) (ieeeExpBits f)).toNat = 2 ^ ieeeExpBits f - 1 ∧
    (w.extractLsb' 0 (ieeeFracBits f)).toNat = 0
  nan : ∀ s p, x = .nan s p →
    (w.extractLsb' (ieeeFracBits f) (ieeeExpBits f)).toNat = 2 ^ ieeeExpBits f - 1 ∧
    (w.extractLsb' 0 (ieeeFracBits f)).toNat = 2 ^ (ieeeFracBits f - 1) + p.toNat

/-- A safe step: the machine goes on (60_exceptions.md R240: no event stops a command). -/
def stepsOn (s : State) : Prop := ∃ t, step s = .next t

end Sys2Proof.Machine
end

