-- ==== Sys2Proof/Certificates/Slice0/Obligations.lean ====
section
/-! DEFINITION. The statements for the provers. A statement speaks of a step through the next event of `State.script`
(notes/assumptions/9.md) and of the two instants of a command through `State.actor` (notes/assumptions/10.md): at the
host's step `exec` issues the command, at the engine's step it completes it. -/

open Sys2Proof Sys2Proof.Machine

/-! ### Commands (46_commands.md) -/

/-- R235: NOP is the word 0 and has no effect, whoever's step it is and whether or not the engine is busy. -/
def Obligations.NopHasNoEffect : Prop :=
  encode .nop = 0x00000000 ∧ ∀ s : State, exec .nop s = .next s

/-- R231: an idle engine accepts RESET and DECODE: PENDING, BUSY and DONE change, and for DECODE the frame latch. -/
def Obligations.IdleEngineAcceptsCommand : Prop :=
  ∀ s : State, s.actor = .host → s.status.busy = false →
    exec .reset s = .next { s with pending := .reset, status := { s.status with done := false, busy := true } } ∧
    exec .decode s = .next { s with
      pending := .decode
      status := { s.status with done := false, busy := true }
      eng := { s.eng with latch := latchOf s.frameIn } }

/-- R232: the byte k that acceptance latches is byte k mod 4 of FRAME_IN[k div 4], for k = 0 to 47. -/
def Obligations.AcceptanceLatchesFrameBytes : Prop :=
  ∀ s : State, s.actor = .host → s.status.busy = false →
    ∃ t, exec .decode s = .next t ∧ t.frameIn = s.frameIn ∧
      ∀ k < 48, rd t.eng.latch k = (rd s.frameIn (k / 4)).extractLsb' (8 * (k % 4)) 8

/-- R242: a CMD write of a reserved word, or of RESET or DECODE while BUSY, sets CMDERR and does nothing else. -/
def Obligations.RejectedCommandSetsOnlyCmderr : Prop :=
  ∀ (s : State) (d : Word32) (rest : List PortEvent), s.rst = false → s.script = .write 0x0008 0b1111 d :: rest →
    (d.extractLsb' 4 28 ≠ 0 ∨ 3 ≤ (d.extractLsb' 0 4).toNat ∨ (s.status.busy = true ∧ (d = 1 ∨ d = 2))) →
    step s = .next { s with script := rest, actor := .host, status := { s.status with cmderr := true } }

/-- R234: RESET is the word 1; its completion gives every element of the decoder state its reset value and changes nothing but that, PENDING,
BUSY and DONE: FRAME_IN, FRAME_LATCH, OUT and the sticky flags stay. That the working registers stay too is the model's
choice: R60 calls them unspecified (notes/assumptions/7.md). -/
def Obligations.ResetCompletionRestoresDecoder : Prop :=
  encode .reset = 0x00000001 ∧ ∀ s : State, s.actor = .engine →
    ∃ d : Decoder, exec .reset s = .next { s with
        eng := { s.eng with dec := d }, pending := .none, status := { s.status with busy := false, done := true } } ∧
      d.prevValid = false ∧ (∀ i < 10, rd d.prevLsf i = NumVal.zero) ∧ (∀ i < 10, rd d.syn i = NumVal.zero) ∧
      (∀ i < 169, rd d.lag i = NumVal.zero) ∧ d.curGl = numOfInt (-32) ∧ d.prevGl = numOfInt (-32) ∧
      (∀ i < 3, rd d.curGe i = NumVal.zero ∧ rd d.prevGe i = NumVal.zero) ∧ d.cgp = NumVal.zero

/-- R61: a RESET of a machine whose decoder is in the reset state leaves it there, and two RESETs leave the decoder state
that one leaves. -/
def Obligations.ResetIsIdempotent : Prop :=
  ∀ s : State, s.actor = .engine →
    ∃ t u, exec .reset s = .next t ∧ exec .reset t = .next u ∧ u.eng.dec = t.eng.dec ∧
      (s.eng.dec = State.reset.eng.dec → t.eng.dec = s.eng.dec)

/-- R233: DECODE's completion runs DECODE_FRAME on the latched frame, publishes OUTBUF in OUT, ORs oor into LAGOOR, sets
PREV_VALID, and completes; FRAME_IN, FRAME_LATCH, CMDERR and ACCERR stay. -/
def Obligations.DecodeCompletionPublishesFrame : Prop :=
  ∀ s : State, s.actor = .engine →
    let e := decodeFrame Config.params s.eng
    exec .decode s = .next { s with
        eng := e, out := e.wk.outbuf, pending := .none
        status := { s.status with busy := false, done := true, lagoor := s.status.lagoor || e.wk.oor } } ∧
      e.dec.prevValid = true ∧ e.latch = s.eng.latch

/-- R238: seen from the host, a DECODE issued on an idle engine and then completed is DECODE_FRAME on the frame in FRAME_IN. -/
def Obligations.IssuedDecodeDecodesFrameIn : Prop :=
  ∀ (s : State) (rest : List PortEvent), s.rst = false → s.status.busy = false →
    s.script = .write 0x0008 0b1111 0x00000002 :: .engine :: rest →
    let e := decodeFrame Config.params { s.eng with latch := latchOf s.frameIn }
    Host.Core.run core 2 s = .next { s with
      eng := e, out := e.wk.outbuf, pending := .none, script := rest, actor := .engine
      status := { s.status with busy := false, done := true, lagoor := s.status.lagoor || e.wk.oor } }

/-- R236: every accepted command completes: from a busy machine whose reset input is not asserted again, within as many
steps as there are events to come and one more, there is an instant at which nothing is pending, BUSY is 0 and DONE is 1. The bound rests on the model's list of events
(notes/assumptions/9.md). -/
def Obligations.AcceptedCommandCompletes : Prop :=
  ∀ s : State, pendingAgrees s = true → s.rst = false → s.status.busy = true → PortEvent.rst true ∉ s.script →
    ∃ (k : Nat) (t : State), k ≤ s.script.length + 1 ∧ Host.Core.run core k s = .next t ∧
      t.pending = .none ∧ t.status.busy = false ∧ t.status.done = true

/-! ### Steps and encodings (30_encoding.md, 20_memory.md) -/

/-- R230: when the next event is a CMD write whose word decodes to i, the step is `exec i`, with the event taken off the
script and the host named as the agent. -/
def Obligations.StepRunsDecodedCommand : Prop :=
  ∀ (s : State) (d : Word32) (i : Instr) (rest : List PortEvent), s.rst = false →
    s.script = .write 0x0008 0b1111 d :: rest → decodeCommand d = .ok i →
    step s = exec i { s with script := rest, actor := .host }

/-- R236, R45: at the engine's turn, an event of the script or the step of an empty one, the pending command is run; with
none pending nothing but the agent's name changes. -/
def Obligations.EngineTurnRunsPendingCommand : Prop :=
  ∀ (s : State) (rest : List PortEvent), s.rst = false → (s.script = .engine :: rest ∨ (s.script = [] ∧ rest = [])) →
    (s.pending = .reset → step s = exec .reset { s with script := rest, actor := .engine }) ∧
    (s.pending = .decode → step s = exec .decode { s with script := rest, actor := .engine }) ∧
    (s.pending = .none → step s = .next { s with script := rest, actor := .engine })

/-- R125: the three words of the table and words on either side of them, written out. -/
def Obligations.CommandTableWordsDecode : Prop :=
  decodeTableWord 32 0x00000000 = some .nop ∧ decodeTableWord 32 0x00000001 = some .reset ∧
  decodeTableWord 32 0x00000002 = some .decode ∧ decodeTableWord 32 0x00000003 = none ∧
  decodeTableWord 32 0x0000000F = none ∧ decodeTableWord 32 0x00000010 = none ∧ decodeTableWord 32 0x80000002 = none

/-- R127, R128: the decoder reads exactly the encoder's words: a command's bytes decode to it and leave the rest; a word
that decodes is that command's word; a word that breaks R125's two conditions is rejected. -/
def Obligations.DecodeInvertsEncode : Prop :=
  (∀ (i : Instr) (rest : List Byte), i.wf = true → decodeBytes (encodeBytes i ++ rest) = .ok (i, rest)) ∧
  (∀ (d : Word32) (i : Instr), decodeCommand d = .ok i ↔ d = encode i) ∧
  (∀ d : Word32, commandWordWf d = false ↔ ∃ r, decodeCommand d = .error r)

/-- R134, R123: packing and unpacking a frame are inverse, with every field at every value its width admits, and every
pattern of 384 bits is a frame. -/
def Obligations.FramePackingIsBijective : Prop :=
  (∀ f : Frame, f.wf = true → unpackFrame (packFrame f) = f) ∧
  (∀ b : BitVec 384, (unpackFrame b).wf = true ∧ packFrame (unpackFrame b) = b)

/-- R94: bit p of the frame, as the bit reader sees it once the packed words were latched, is bit p of the packing. -/
def Obligations.LatchedWordsKeepBitOrder : Prop :=
  ∀ (b : BitVec 384) (p : Nat), latchBit (latchOf (frameWords b)) p = (b.getLsbD p).toNat

/-- R150: GETBITS(n) answers the n bits from CURSOR on, the first the least significant, bits past 383 reading 0, and moves
CURSOR by n; it changes nothing else. -/
def Obligations.GetBitsReadsNextField : Prop :=
  ∀ (e : Engine) (n : Nat), n ≤ 32 → e.wk.cursor.toNat ≤ 384 →
    (getBits n e).1 < 2 ^ n ∧
    (∀ j < n, ((getBits n e).1.testBit j = true ↔
      e.wk.cursor.toNat + j < 384 ∧
        (rd e.latch ((e.wk.cursor.toNat + j) / 8)).getLsbD ((e.wk.cursor.toNat + j) % 8) = true)) ∧
    (getBits n e).2 = { e with wk := { e.wk with cursor := (getBits n e).2.wk.cursor } } ∧
    (getBits n e).2.wk.cursor.toNat = e.wk.cursor.toNat + n

/-- R155, R152, R153: UNPACK_HEADER and READ_CB read back the fields of a packed frame: the lags, the table rows and entries
the indices select, and each codebook pair from the cursor R154 gives it. -/
def Obligations.FrameFieldsReachDatapath : Prop :=
  ∀ (P : Params) (f : Frame) (e : Engine), f.wf = true → e.latch = latchOf (frameWords (packFrame f)) →
    let h := unpackHeader P e
    (∀ s < 4, (rd h.wk.lagv s).toNat = rd f.lagV s ∧ ∀ k < 3, rd (rd h.wk.lagc s) k = romLagCoef P (rd f.lagIdx s) k) ∧
    (∀ i < 10, rd h.wk.lsf i = romLsf P i (rd f.lsfIdx i)) ∧
    h.wk.cursor.toNat = 96 ∧ h.dec = e.dec ∧ h.latch = e.latch ∧
    ∀ n < 48, e.wk.cursor.toNat = 96 + 6 * n →
      (readCb e).wk.cbSign = (rd f.cbSign n == 1) ∧ (readCb e).wk.cbIdx.toNat = rd f.cbIdx n ∧
      (readCb e).wk.cursor.toNat = 96 + 6 * (n + 1)

/-- R154: each codebook step reads six bits, the header ninety-six, and a DECODE all 384. -/
def Obligations.DecodeReadsWholeFrame : Prop :=
  ∀ (P : Params) (e : Engine),
    (unpackHeader P e).wk.cursor.toNat = 96 ∧
    (∀ s v, e.wk.cursor.toNat ≤ 378 → (codebookStep P s v e).wk.cursor.toNat = e.wk.cursor.toNat + 6) ∧
    (decodeFrame P e).wk.cursor.toNat = 384

/-! ### LSF conversion and interpolation (41_lsf.md) -/

/-- R162: the converter runs iterations 1 to 10 with f = x[i−1], and the closed form of one iteration; elements 0 and above i
are not touched (R163). -/
def Obligations.LpcIterationClosedForm : Prop :=
  ∀ P : Params,
    (∀ x : Vector NumVal 10, lsfToLpc P x =
      [1, 2, 3, 4, 5, 6, 7, 8, 9, 10].foldl (fun lpc i => lpcIteration P (rd x (i - 1)) i lpc)
        (wr (Vector.replicate 11 NumVal.zero) 0 (numOfInt 1))) ∧
    ∀ (f : NumVal) (lpc : Vector NumVal 11) (i : Nat), 1 ≤ i → i ≤ 10 →
      rd (lpcIteration P f i lpc) i = f ∧
      (∀ j, 1 ≤ j → j < i → rd (lpcIteration P f i lpc) j = fadd P (fmul P f (rd lpc (i - j))) (rd lpc j)) ∧
      (∀ j < 11, j = 0 ∨ i < j → rd (lpcIteration P f i lpc) j = rd lpc j)

/-- R163: lpc[0] is 1 for every input. -/
def Obligations.ConverterLeadingCoefficientIsOne : Prop :=
  ∀ (P : Params) (x : Vector NumVal 10), rd (lsfToLpc P x) 0 = numOfInt 1

/-- R166: the interpolation weights are exact in both formats. -/
def Obligations.InterpolationWeightsAreExact : Prop :=
  ∀ P : Params,
    (newRatio P 0 = .fin false 1 (-2) ∧ newRatio P 1 = .fin false 1 (-1) ∧ newRatio P 2 = .fin false 3 (-2) ∧
      newRatio P 3 = .fin false 1 0) ∧
    (oldRatio P 0 = .fin false 3 (-2) ∧ oldRatio P 1 = .fin false 1 (-1) ∧ oldRatio P 2 = .fin false 1 (-2) ∧
      oldRatio P 3 = .fin false 0 0)

/-- R165: in subframe 3 the interpolated element is the current frame's, for a finite previous element and a finite current
one other than −0.0. -/
def Obligations.LastSubframeUsesCurrentLsf : Prop :=
  ∀ (P : Params) (prev cur : Vector NumVal 10) (i : Nat), i < 10 → isFinite (rd prev i) = true →
    isFinite (rd cur i) = true → numWf P.numfmt (rd cur i) = true → rd cur i ≠ .fin true 0 0 →
    rd (lsfInterp P 3 prev cur) i = rd cur i

/-- R167: LPC is the conversion of the interpolated vector when PREV_VALID is 1 and of LSF when it is 0; element i of the
interpolated vector is (old_ratio *f PREV_LSF[i]) +f (new_ratio *f LSF[i]); nothing but LPC changes. -/
def Obligations.LpcSelectChoosesVector : Prop :=
  ∀ (P : Params) (s : Nat) (e : Engine),
    lpcSelect P s e = { e with wk := { e.wk with lpc := (lpcSelect P s e).wk.lpc } } ∧
    (e.dec.prevValid = false → (lpcSelect P s e).wk.lpc = lsfToLpc P e.wk.lsf) ∧
    (e.dec.prevValid = true → ∃ y : Vector NumVal 10, (lpcSelect P s e).wk.lpc = lsfToLpc P y ∧
      ∀ i < 10, rd y i = fadd P (fmul P (oldRatio P s) (rd e.dec.prevLsf i)) (fmul P (newRatio P s) (rd e.wk.lsf i)))

/-! ### Gain (42_gain.md) -/

/-- R175: the cascade of three accumulators, each fed the one before it as already updated. -/
def Obligations.EnergyUpdateIsCascade : Prop :=
  ∀ (P : Params) (g1 g2 : NumVal) (ge : Vector NumVal 3),
    rd (energyUpdate P g1 g2 ge) 0 = fadd P (fmul P g1 g2) (fmul P (kGef P) (rd ge 0)) ∧
    rd (energyUpdate P g1 g2 ge) 1 = fadd P (rd (energyUpdate P g1 g2 ge) 0) (fmul P (kGef P) (rd ge 1)) ∧
    rd (energyUpdate P g1 g2 ge) 2 = fadd P (rd (energyUpdate P g1 g2 ge) 1) (fmul P (kGef P) (rd ge 2))

/-- R175: from E = (+0, +0, +0) every component becomes the product, when that is a number other than −0.0. -/
def Obligations.EnergyFromZeroIsProduct : Prop :=
  ∀ (P : Params) (g1 g2 : NumVal) (ge : Vector NumVal 3), (∀ i < 3, rd ge i = NumVal.zero) →
    isNaN (fmul P g1 g2) = false → fmul P g1 g2 ≠ .fin true 0 0 →
    ∀ i < 3, rd (energyUpdate P g1 g2 ge) i = fmul P g1 g2

/-- R180: the first row that satisfies the strict test supplies the power, the fallback is taken exactly when none does, and
a NaN on either side selects the fallback. -/
def Obligations.LadderTakesFirstRow : Prop :=
  ∀ (P : Params) (cE pE : NumVal),
    ((∃ k < 15, flt (fmul P cE (romRatio P k)) pE = true ∧ (∀ j < k, flt (fmul P cE (romRatio P j)) pE = false) ∧
        ladderPower P cE pE = romPower P k) ∨
      ((∀ k < 15, flt (fmul P cE (romRatio P k)) pE = false) ∧ ladderPower P cE pE = fallbackPower P)) ∧
    (isNaN cE = true ∨ isNaN pE = true → ladderPower P cE pE = fallbackPower P)

/-- R56: the ratio ladder starts at 32190/32768, ends at −1768/32768 and does not rise, and every ratio is stored exactly. -/
def Obligations.RatioLadderDescends : Prop :=
  ∀ P : Params,
    ratioInt P 0 = 32190 ∧ ratioInt P 14 = -1768 ∧ (∀ k < 14, ratioInt P (k + 1) ≤ ratioInt P k) ∧
    ∀ k < 15, numRat (romRatio P k) = (ratioInt P k : ℚ) / 32768

/-- R37: CGP is written at step 0 of subframes 1, 2 and 3 only. -/
def Obligations.GainPowerPersistsOutsideSubframeStart : Prop :=
  ∀ (P : Params) (s v : Nat) (e : Engine), ¬(s ≠ 0 ∧ v = 0) → (codebookStep P s v e).dec.cgp = e.dec.cgp

/-- R181, R20: CB_GL is CGP *f CUR_GL brought into [−32, 28]; a NaN passes; nothing but CB_GL changes. -/
def Obligations.CodebookLevelIsClamped : Prop :=
  ∀ (P : Params) (e : Engine),
    let x := fmul P e.dec.cgp e.dec.curGl
    let y := (cbLevel P e).wk.cbGl
    cbLevel P e = { e with wk := { e.wk with cbGl := y } } ∧
    (isNaN x = true → y = x) ∧
    (isNaN x = false → flt y (numOfInt (-32)) = false ∧ flt (numOfInt 28) y = false) ∧
    (flt x (numOfInt (-32)) = true → y = numOfInt (-32)) ∧
    (flt x (numOfInt (-32)) = false → flt (numOfInt 28) x = true → y = numOfInt 28) ∧
    (flt x (numOfInt (-32)) = false → flt (numOfInt 28) x = false → y = x)

/-- R182: the levels −32, −12, 8 and 28 give exactly 1, 10, 100 and 1000. -/
def Obligations.ExactLevelsGiveExactGains : Prop :=
  ∀ P : Params,
    levelToGain P (numOfInt (-32)) = numOfInt 1 ∧ levelToGain P (numOfInt (-12)) = numOfInt 10 ∧
    levelToGain P (numOfInt 8) = numOfInt 100 ∧ levelToGain P (numOfInt 28) = numOfInt 1000

/-- R197, R198: the gain chain of one codebook step, in terms of the state at its start: the two trackers see the old
levels, the level uses the power of this step, PREV_GL takes the old CUR_GL, and CUR_GL is the clamped level plus the
delta gain of the step's own index, which READ_CB reads from the cursor; E2_INIT is the old CUR_GE[2]; PREV_LSF, PREV_VALID, the frame latch, the header's fields and LPC stay. -/
def Obligations.CodebookStepGainChain : Prop :=
  ∀ (P : Params) (s v : Nat) (e : Engine),
    let t := codebookStep P s v e
    t.dec.curGe = energyUpdate P e.dec.curGl e.dec.curGl e.dec.curGe ∧
    t.dec.prevGe = energyUpdate P e.dec.curGl e.dec.prevGl e.dec.prevGe ∧
    t.dec.prevGl = e.dec.curGl ∧
    t.wk.cbGl = clamp (fmul P t.dec.cgp e.dec.curGl) glMin glMax ∧
    t.dec.curGl = fadd P t.wk.cbGl (romDgain P t.wk.cbIdx.toNat) ∧
    t.wk.cbGain = (if t.wk.cbSign then fneg (levelToGain P t.wk.cbGl) else levelToGain P t.wk.cbGl) ∧
    t.wk.cbSign = (readCb e).wk.cbSign ∧ t.wk.cbIdx = (readCb e).wk.cbIdx ∧ t.wk.e2Init = rd e.dec.curGe 2 ∧
    (s ≠ 0 ∧ v = 0 → t.dec.cgp = ladderPower P
      (fadd P (fmul P (rd e.dec.curGe 2) (kGef P)) (rd t.dec.curGe 2)) (fmul P (rd t.dec.prevGe 2) (kPrev P))) ∧
    t.dec.prevLsf = e.dec.prevLsf ∧ t.dec.prevValid = e.dec.prevValid ∧ t.latch = e.latch ∧
    t.wk.lagc = e.wk.lagc ∧ t.wk.lagv = e.wk.lagv ∧ t.wk.lsf = e.wk.lsf ∧ t.wk.lpc = e.wk.lpc

/-! ### Lag buffer and excitation (44_pitch_excitation.md) -/

/-- R205: LAG_SHIFT moves LAG[48..169] to LAG[0..121] exactly, leaves LAG[121] to LAG[168] and changes nothing else. R196: a
subframe's start gives LPC what LPC_SELECT(s) gives it, shifts LAG, and changes nothing else but seq. -/
def Obligations.LagShiftMovesBlock : Prop :=
  ∀ (P : Params) (s : Nat) (e : Engine),
    let t := lagShift e
    (∀ i < 121, rd t.dec.lag i = rd e.dec.lag (i + 48)) ∧
    (∀ i, 121 ≤ i → i < 169 → rd t.dec.lag i = rd e.dec.lag i) ∧
    t = { e with dec := { e.dec with lag := t.dec.lag } } ∧
    subframeStart P s e = { e with
      dec := { e.dec with lag := t.dec.lag }
      wk := { e.wk with lpc := (lpcSelect P s e).wk.lpc, seq := (subframeStart P s e).wk.seq } }

/-- R206, R208: PITCH[i] is the sum of the three taps from R = W − lag − 1 on, c2 on the oldest, an index outside 0 to 168
reading +0.0; oor is set exactly when such an index was read; nothing else changes. -/
def Obligations.PitchIsThreeTapPredictor : Prop :=
  ∀ (P : Params) (s v : Nat) (e : Engine),
    let R : Int := 120 + 4 * v - (rd e.wk.lagv s).toNat
    let tap : Int → NumVal := fun j => if 0 ≤ j ∧ j ≤ 168 then rd e.dec.lag j.toNat else NumVal.zero
    let c := rd e.wk.lagc s
    let t := pitch P s v e
    (∀ i < 4, rd t.wk.pitch i = fadd P (fadd P (fmul P (tap (R + i)) (rd c 2)) (fmul P (tap (R + i + 1)) (rd c 1)))
      (fmul P (tap (R + i + 2)) (rd c 0))) ∧
    (t.wk.oor = true ↔ e.wk.oor = true ∨ ∃ j : Int, R ≤ j ∧ j ≤ R + 5 ∧ ¬(0 ≤ j ∧ j ≤ 168)) ∧
    t = { e with wk := { e.wk with pitch := t.wk.pitch, oor := t.wk.oor } }

/-- R123, R208: a DECODE reads outside the lag buffer exactly when some subframe's raw lag is 0 or above 120. -/
def Obligations.OutOfRangeExactlyForLagZeroOrAbove120 : Prop :=
  ∀ (P : Params) (f : Frame) (e : Engine), f.wf = true → e.latch = latchOf (frameWords (packFrame f)) →
    ((decodeFrame P e).wk.oor = true ↔ ∃ s < 4, rd f.lagV s = 0 ∨ 121 ≤ rd f.lagV s)

/-- R209, R210: COMB[i] is the signed gain times the codebook element plus the pitch element; LAG_WRITE(v) stores COMB at
121 + 4v on and changes no other element; neither changes anything else. -/
def Obligations.ExcitationIsCombinedAndStored : Prop :=
  ∀ (P : Params) (v : Nat) (e : Engine), v < 12 →
    combine P e = { e with wk := { e.wk with comb := (combine P e).wk.comb } } ∧
    (∀ i < 4, rd (combine P e).wk.comb i =
      fadd P (fmul P e.wk.cbGain (romCbvec P e.wk.cbIdx.toNat i)) (rd e.wk.pitch i)) ∧
    lagWrite v e = { e with dec := { e.dec with lag := (lagWrite v e).dec.lag } } ∧
    (∀ i < 4, rd (lagWrite v e).dec.lag (121 + 4 * v + i) = rd e.wk.comb i) ∧
    (∀ j < 169, j < 121 + 4 * v ∨ 125 + 4 * v ≤ j → rd (lagWrite v e).dec.lag j = rd e.dec.lag j)

/-! ### Synthesis (45_synthesis.md) -/

/-- R220, R221: output j is COMB[j] less the ten products, one rounded product at a time with k increasing, an output of
this step standing for x when k ≤ j and an element of SYN otherwise; then SYN[0..6] takes the old SYN[4..10] and SYN[6..10]
the four outputs (R222); nothing else changes. -/
def Obligations.SynthesisSubtractsInOrderAndSlides : Prop :=
  ∀ (P : Params) (e : Engine),
    let t := lpcSynth P e
    (∀ j < 4, rd t.wk.o j = [1, 2, 3, 4, 5, 6, 7, 8, 9, 10].foldl (fun acc k =>
      fsub P acc (fmul P (rd e.wk.lpc k) (if k ≤ j then rd t.wk.o (j - k) else rd e.dec.syn (10 + j - k)))) (rd e.wk.comb j)) ∧
    (∀ i < 6, rd t.dec.syn i = rd e.dec.syn (i + 4)) ∧ (∀ i < 4, rd t.dec.syn (6 + i) = rd t.wk.o i) ∧
    t = { e with dec := { e.dec with syn := t.dec.syn }, wk := { e.wk with o := t.wk.o } }

/-- R197, R211, R223, C3: steps 10 to 14, alone and as the end of a whole codebook step: PITCH and oor come from LAG as it
stood before LAG_WRITE; COMB is the signed gain times the codebook element plus PITCH; LAG takes COMB at 121 + 4v on and
keeps every other element; the outputs are computed from that COMB and slide into SYN; the samples emitted, at 4n to 4n + 3,
are the last output of the step before, then this step's first three, and every other sample stays. Steps 10 to 14 change
nothing else. -/
def Obligations.EmissionLagsOneSample : Prop :=
  ∀ (P : Params) (s v : Nat) (e : Engine), s < 4 → v < 12 →
    let n := 12 * s + v
    let emits : Engine → Prop := fun t =>
      t.wk.pitch = (pitch P s v e).wk.pitch ∧ t.wk.oor = (pitch P s v e).wk.oor ∧
      (∀ i < 4, rd t.wk.comb i = fadd P (fmul P t.wk.cbGain (romCbvec P t.wk.cbIdx.toNat i)) (rd t.wk.pitch i)) ∧
      (∀ i < 4, rd t.dec.lag (121 + 4 * v + i) = rd t.wk.comb i) ∧
      (∀ j < 169, j < 121 + 4 * v ∨ 125 + 4 * v ≤ j → rd t.dec.lag j = rd e.dec.lag j) ∧
      (∀ j < 4, rd t.wk.o j = [1, 2, 3, 4, 5, 6, 7, 8, 9, 10].foldl (fun acc k =>
        fsub P acc (fmul P (rd e.wk.lpc k) (if k ≤ j then rd t.wk.o (j - k) else rd e.dec.syn (10 + j - k))))
          (rd t.wk.comb j)) ∧
      (∀ i < 6, rd t.dec.syn i = rd e.dec.syn (i + 4)) ∧ (∀ i < 4, rd t.dec.syn (6 + i) = rd t.wk.o i) ∧
      rd t.wk.outbuf (4 * n) = rd e.dec.syn 9 ∧
      (∀ i < 3, rd t.wk.outbuf (4 * n + 1 + i) = rd t.wk.o i) ∧
      (∀ k < 192, k < 4 * n ∨ 4 * n + 4 ≤ k → rd t.wk.outbuf k = rd e.wk.outbuf k)
    let t := sampleSteps P s v e
    emits t ∧ emits (codebookStep P s v e) ∧
    t = { e with
      dec := { e.dec with lag := t.dec.lag, syn := t.dec.syn }
      wk := { e.wk with pitch := t.wk.pitch, oor := t.wk.oor, comb := t.wk.comb, o := t.wk.o, outbuf := t.wk.outbuf } }

/-- R224: the first sample of a frame is the last output of the frame before; the frame's last output, o3 of step (3, 11), is
deferred in SYN[9], and the four outputs before it are the frame's last samples. -/
def Obligations.FilterMemoryCrossesFrames : Prop :=
  ∀ (P : Params) (e : Engine),
    rd (decodeFrame P e).wk.outbuf 0 = rd e.dec.syn 9 ∧
    rd (decodeFrame P e).dec.syn 9 = rd (decodeFrame P e).wk.o 3 ∧
    ∀ i < 4, rd (decodeFrame P e).wk.outbuf (188 + i) = rd (decodeFrame P e).dec.syn (5 + i)

/-! ### The frame (43_frame.md) -/

/-- R200: the decoder state, the samples and oor that DECODE_FRAME gives depend on FRAME_LATCH, the decoder state and the
configuration alone: the working registers left by an earlier DECODE do not reach them. -/
def Obligations.DecodeDependsOnlyOnFrameAndState : Prop :=
  ∀ (P : Params) (e1 e2 : Engine), e1.dec = e2.dec → e1.latch = e2.latch →
    (decodeFrame P e1).dec = (decodeFrame P e2).dec ∧
    (decodeFrame P e1).wk.outbuf = (decodeFrame P e2).wk.outbuf ∧
    (decodeFrame P e1).wk.oor = (decodeFrame P e2).wk.oor

/-- R199: a DECODE leaves PREV_VALID = 1 and in PREV_LSF the quantized vector the frame's own LSF indices select. -/
def Obligations.DecodePersistsQuantizedLsf : Prop :=
  ∀ (P : Params) (f : Frame) (e : Engine), f.wf = true → e.latch = latchOf (frameWords (packFrame f)) →
    (decodeFrame P e).dec.prevValid = true ∧ ∀ i < 10, rd (decodeFrame P e).dec.prevLsf i = romLsf P i (rd f.lsfIdx i)

/-- R12: the sum, difference, product and quotient of two finite numbers are the exact ones rounded once, to nearest, ties to
even, with the infinity of the exact sign from the overflow midpoint on; and an exact zero has the sign IEEE 754 gives it
(notes/assumptions/2.md): of a sum or difference, minus only when both terms are; of a product or quotient, the operands'
signs multiplied. -/
def Obligations.ArithmeticRoundsOnce : Prop :=
  ∀ (P : Params) (a b : NumVal), isFinite a = true → isFinite b = true →
    RoundedTo P.numfmt (numRat a + numRat b) (fadd P a b) ∧
    RoundedTo P.numfmt (numRat a - numRat b) (fsub P a b) ∧
    RoundedTo P.numfmt (numRat a * numRat b) (fmul P a b) ∧
    (numRat b ≠ 0 → RoundedTo P.numfmt (numRat a / numRat b) (fdiv P a b)) ∧
    (numRat a + numRat b = 0 → fadd P a b = .fin (signBit a && signBit b) 0 0) ∧
    (numRat a - numRat b = 0 → fsub P a b = .fin (signBit a && !signBit b) 0 0) ∧
    (numRat a * numRat b = 0 → fmul P a b = .fin (signBit a != signBit b) 0 0) ∧
    (numRat b ≠ 0 → numRat a = 0 → fdiv P a b = .fin (signBit a != signBit b) 0 0)

/-- R102: the slot of a value of the format is its IEEE 754 encoding (notes/assumptions/2.md); two values with the same slot
are the same value; and in binary32 the high word is 0. -/
def Obligations.SlotsTellValuesApart : Prop :=
  (∀ (f : NumFmt) (x : NumVal), numWf f x = true → SlotStandsFor f x (slotOf f x)) ∧
  (∀ (f : NumFmt) (x y : NumVal), numWf f x = true → numWf f y = true → slotOf f x = slotOf f y → x = y) ∧
  (∀ x : NumVal, slotWord .binary32 x true = 0)

/-! ### The host port (20_memory.md) -/

/-- R87: ID and CFG read their constants at all times the port is out of reset, busy or not, and the read changes only the
read data; CMD reads 0 likewise (R88). -/
def Obligations.ConstantRegistersRead : Prop :=
  ∀ (s : State) (rest : List PortEvent), s.rst = false →
    (s.script = .read 0x0000 0b1111 :: rest →
      step s = .next { s with script := rest, actor := .host, rdata := 0x554F4431 }) ∧
    (s.script = .read 0x0004 0b1111 :: rest →
      step s = .next { s with
        script := rest, actor := .host, rdata := if Config.params.numfmt = .binary64 then 1 else 0 }) ∧
    (s.script = .read 0x0008 0b1111 :: rest → step s = .next { s with script := rest, actor := .host, rdata := 0 })

/-- R243: a misaligned, partial or reserved access and a write to a read-only register or window set ACCERR and nothing
else; a refused read returns 0. -/
def Obligations.RefusedAccessSetsOnlyAccerr : Prop :=
  ∀ (s : State) (off : Offset) (be : BitVec 4) (rest : List PortEvent), s.rst = false →
    let a := off.toNat
    let bad := a % 4 ≠ 0 ∨ be ≠ 0b1111 ∨ (0x10 ≤ a ∧ a ≤ 0xFF) ∨ (0x130 ≤ a ∧ a ≤ 0xFFF) ∨ (0x1800 ≤ a ∧ a ≤ 0x1FFF) ∨
      0x2600 ≤ a
    let readOnly := a = 0x0 ∨ a = 0x4 ∨ (0x1000 ≤ a ∧ a ≤ 0x17FF) ∨ (0x2000 ≤ a ∧ a ≤ 0x25FF)
    let t := { s with script := rest, actor := .host, status := { s.status with accerr := true } }
    (bad → s.script = .read off be :: rest → step s = .next { t with rdata := 0 }) ∧
    ∀ d, bad ∨ readOnly → s.script = .write off be d :: rest → step s = .next t

/-- R89: a write to STATUS clears DONE, LAGOOR, CMDERR and ACCERR where the data bit 1, 2, 3 or 4 is 1, and changes nothing
else, busy or not; a read gives the five stored bits, bit 5 = PREV_VALID while idle, and 0 above. -/
def Obligations.StatusReadsAndClears : Prop :=
  ∀ (s : State) (d : Word32) (rest : List PortEvent), s.rst = false →
    (s.script = .write 0x000C 0b1111 d :: rest →
      step s = .next { s with script := rest, actor := .host, status := { s.status with
        done := s.status.done && !d.getLsbD 1, lagoor := s.status.lagoor && !d.getLsbD 2
        cmderr := s.status.cmderr && !d.getLsbD 3, accerr := s.status.accerr && !d.getLsbD 4 } }) ∧
    (s.script = .read 0x000C 0b1111 :: rest →
      ∃ w n, step s = .next { s with script := rest, actor := .host, rdata := w, freeCount := n } ∧
        w.getLsbD 0 = s.status.busy ∧ w.getLsbD 1 = s.status.done ∧ w.getLsbD 2 = s.status.lagoor ∧
        w.getLsbD 3 = s.status.cmderr ∧ w.getLsbD 4 = s.status.accerr ∧
        (s.status.busy = false → w.getLsbD 5 = s.eng.dec.prevValid) ∧ ∀ b, 6 ≤ b → w.getLsbD b = false)

/-- R90: FRAME_IN[j] stores the word written and reads it back, busy or not; the write changes nothing else, so not the
DECODE in progress. -/
def Obligations.FrameInReadsBack : Prop :=
  ∀ (s : State) (j : Nat) (d : Word32) (rest : List PortEvent), s.rst = false → j < 12 →
    (s.script = .write (BitVec.ofNat 14 (0x0100 + 4 * j)) 0b1111 d :: rest →
      ∃ t, step s = .next t ∧ t = { s with script := rest, actor := .host, frameIn := t.frameIn } ∧
        rd t.frameIn j = d ∧ ∀ k < 12, k ≠ j → rd t.frameIn k = rd s.frameIn k) ∧
    (s.script = .read (BitVec.ofNat 14 (0x0100 + 4 * j)) 0b1111 :: rest →
      step s = .next { s with script := rest, actor := .host, rdata := rd s.frameIn j })

/-- R100: OUT[n] reads as the two words of its slot while idle; while BUSY a read gives some word and sets no flag. -/
def Obligations.OutWindowReads : Prop :=
  ∀ (s : State) (n : Nat) (high : Bool) (rest : List PortEvent), s.rst = false → n < 192 →
    s.script = .read (BitVec.ofNat 14 (0x2000 + 8 * n + if high then 4 else 0)) 0b1111 :: rest →
    (s.status.busy = false →
      step s = .next { s with
        script := rest, actor := .host, rdata := (slotOf Config.params.numfmt (rd s.out n)).extractLsb' (if high then 32 else 0) 32 }) ∧
    (s.status.busy = true →
      ∃ w m, step s = .next { s with script := rest, actor := .host, rdata := w, freeCount := m })

/-- R101: the STATE window shows the decoder state slot by slot while idle; slots 198 to 255 read 0 at all times; while BUSY
a read of slots 0 to 197 gives some word and sets no flag. -/
def Obligations.StateWindowShowsDecoder : Prop :=
  ∀ (s : State) (k : Nat) (high : Bool) (rest : List PortEvent), s.rst = false → k < 256 →
    s.script = .read (BitVec.ofNat 14 (0x1000 + 8 * k + if high then 4 else 0)) 0b1111 :: rest →
    let shows : NumVal → Prop := fun x =>
      step s = .next { s with
        script := rest, actor := .host, rdata := (slotOf Config.params.numfmt x).extractLsb' (if high then 32 else 0) 32 }
    (s.status.busy = false →
      (∀ i < 10, k = i → shows (rd s.eng.dec.prevLsf i)) ∧ (∀ i < 10, k = 10 + i → shows (rd s.eng.dec.syn i)) ∧
      (∀ i < 169, k = 20 + i → shows (rd s.eng.dec.lag i)) ∧ (k = 189 → shows s.eng.dec.curGl) ∧
      (k = 190 → shows s.eng.dec.prevGl) ∧ (∀ i < 3, k = 191 + i → shows (rd s.eng.dec.curGe i)) ∧
      (∀ i < 3, k = 194 + i → shows (rd s.eng.dec.prevGe i)) ∧ (k = 197 → shows s.eng.dec.cgp)) ∧
    (198 ≤ k → step s = .next { s with script := rest, actor := .host, rdata := 0 }) ∧
    (s.status.busy = true → k < 198 →
      ∃ w m, step s = .next { s with script := rest, actor := .host, rdata := w, freeCount := m })

/-- R133: LOADF of a frame leaves its packed words in FRAME_IN and changes nothing else. -/
def Obligations.LoadFrameFillsFrameIn : Prop :=
  ∀ (s : State) (f : Frame) (rest : List PortEvent), s.rst = false →
    s.script = (AsmLine.loadFrame f).expand ++ rest →
    Host.Core.run core 12 s = .next { s with
      script := rest, actor := .host, frameIn := frameWords (packFrame f) }

/-- R133, R97: WAIT ends with a STATUS read whose bit 0 is 0, on a machine that is then idle. -/
def Obligations.WaitEndsIdle : Prop :=
  ∀ (s : State) (polls : Nat) (rest : List PortEvent), s.rst = false → pendingAgrees s = true →
    s.script = (AsmLine.wait polls).expand ++ rest →
    ∃ t : State, Host.Core.run core (polls + 2) s = .next t ∧ t.rdata.getLsbD 0 = false ∧ t.status.busy = false ∧
      t.pending = .none ∧ t.script = rest

/-! ### Reset and the whole machine -/

/-- R260: what power-on reset leaves: the decoder as RESET leaves it, FRAME_IN and FRAME_LATCH zero, OUT all +0.0,
STATUS = 0 and nothing pending. -/
def Obligations.PowerOnState : Prop :=
  let s := State.reset
  (∃ t, exec .reset (setActor .engine s) = .next t ∧ t.eng.dec = s.eng.dec) ∧
  (∀ j < 12, rd s.frameIn j = 0) ∧ (∀ k < 48, rd s.eng.latch k = 0) ∧ (∀ n < 192, rd s.out n = NumVal.zero) ∧
  statusWord s.status s.eng.dec.prevValid = 0 ∧ s.pending = .none ∧ s.rst = false

/-- R237: asserting `rst` abandons the command: the next state is the power-on reset state, with `rst` asserted. That the
fields outside the engine (the events to come, the last read data, the model's own counters) are kept is the model's choice
(notes/assumptions/13.md), and so are the values `State.reset` gives the working registers (notes/assumptions/7.md). -/
def Obligations.AssertedResetAbandonsCommand : Prop :=
  ∀ (s : State) (rest : List PortEvent), s.script = .rst true :: rest →
    step s = .next { State.reset with
      rst := true, script := rest, rdata := s.rdata, actor := s.actor, freeCount := s.freeCount }

/-- R80: while `rst` is asserted a host read returns 0, a host write and the engine's turn have no effect, and releasing it
changes nothing but the input. -/
def Obligations.AssertedResetHoldsPort : Prop :=
  ∀ (s : State) (rest : List PortEvent), s.rst = true →
    (∀ off be, s.script = .read off be :: rest → step s = .next { s with script := rest, actor := .host, rdata := 0 }) ∧
    (∀ off be d, s.script = .write off be d :: rest → step s = .next { s with script := rest, actor := .host }) ∧
    (s.script = .engine :: rest → step s = .next { s with script := rest, actor := .engine }) ∧
    (s.script = .rst false :: rest → step s = .next { s with script := rest, rst := false })

/-- R240: no event stops the machine: every step and every command has a next state. -/
def Obligations.MachineNeverStops : Prop :=
  (∀ s : State, stepsOn s) ∧ ∀ (i : Instr) (s : State), ∃ t, exec i s = .next t

/-- R97: a host transaction changes neither the decoder state nor OUT: those change at a completion or at a reset only. While a
command is executing it leaves the latched frame (R98) and the pending command as well. That it leaves the working registers
is the model's: R104 lets the engine move them before the completion, and the model moves them there only
(notes/assumptions/11.md, DEDUCED). -/
def Obligations.HostTransactionsLeaveDecoder : Prop :=
  ∀ (s t : State) (rest : List PortEvent), step s = .next t →
    (∃ off be, s.script = .read off be :: rest) ∨ (∃ off be d, s.script = .write off be d :: rest) →
    t.eng.dec = s.eng.dec ∧ t.eng.wk = s.eng.wk ∧ t.out = s.out ∧
    (s.status.busy = true → t.eng.latch = s.eng.latch ∧ t.pending = s.pending ∧ t.status.busy = true)

/-- R42: a sticky bit that a step clears was cleared by a STATUS write with that data bit 1, or by `rst`. -/
def Obligations.StickyFlagsNeedExplicitClear : Prop :=
  ∀ s t : State, step s = .next t →
    let clearedBy : Nat → Prop := fun b =>
      (∃ d rest, s.script = .write 0x000C 0b1111 d :: rest ∧ d.getLsbD b = true) ∨ ∃ rest, s.script = .rst true :: rest
    (s.status.lagoor = true → t.status.lagoor = false → clearedBy 2) ∧
    (s.status.cmderr = true → t.status.cmderr = false → clearedBy 3) ∧
    (s.status.accerr = true → t.status.accerr = false → clearedBy 4)

/-- R38, R39, R45, R80: every step keeps the invariant of the machine. -/
def Obligations.StepKeepsMachineInvariant : Prop :=
  ∀ s t : State, s.Inv Config.params → step s = .next t → t.Inv Config.params

/-- R30: every step keeps all numbers of the machine values of NUMFMT. -/
def Obligations.StepKeepsNumbersInFormat : Prop :=
  ∀ s t : State, s.NumbersWf Config.params.numfmt → step s = .next t → t.NumbersWf Config.params.numfmt

/-- The machine after power-on reset satisfies both invariants. The clauses on the working registers rest on their reset
values, which are the model's choice (notes/assumptions/7.md). -/
def Obligations.PowerOnStateSatisfiesInvariants : Prop :=
  State.reset.Inv Config.params ∧ State.reset.NumbersWf Config.params.numfmt

/-- R195: DECODE_FRAME clears oor, runs UNPACK_HEADER, then for s = 0 to 3 SUBFRAME_START(s) and CODEBOOK_STEP(s, 0) to
(s, 11) in order, then FRAME_END, which persists LSF (R199). It ends with seq at (3, 11) (R47); the phase it ends in is the
model's choice (notes/assumptions/11.md). -/
def Obligations.DecodeFrameRunsInOrder : Prop :=
  ∀ (P : Params) (e : Engine),
    let u := unpackHeader P { e with wk := { e.wk with oor := false } }
    let l := [0, 1, 2, 3].foldl (fun x s =>
      [0, 1, 2, 3, 4, 5, 6, 7, 8, 9, 10, 11].foldl (fun y v => codebookStep P s v y) (subframeStart P s x)) u
    let t := decodeFrame P e
    t = { l with
      dec := { l.dec with prevLsf := l.wk.lsf, prevValid := true }
      wk := { l.wk with seq := t.wk.seq } } ∧
    t.wk.seq.s = 3 ∧ t.wk.seq.v = 11
end

