-- ==== Sys2Proof/Laws/Float.lean ====
section
/-! SUPPORT. What the arithmetic answers: its results are values of the format, rounding leaves a value of the format as it
is, and signs and NaNs. -/

namespace Sys2Proof.Machine

open Sys2Proof

/-! ### Trailing zeros and the stored form -/

theorem xor_pred_pos {m : Nat} (h : 0 < m) : 0 < m ^^^ (m - 1) := by
  rcases Nat.eq_zero_or_pos (m ^^^ (m - 1)) with h0 | h0
  · have := Nat.xor_eq_zero_iff.mp h0
    omega
  · exact h0

@[simp] theorem trailingZeros_odd (a : Nat) : trailingZeros (2 * a + 1) = 0 := by
  have h : (2 * a + 1) ^^^ (2 * a) = 1 := by
    apply Nat.eq_of_testBit_eq
    intro i
    rcases i with _ | i
    · simp
    · rw [Nat.testBit_xor, Nat.testBit_succ, Nat.testBit_succ, Nat.testBit_succ, show (2 * a + 1) / 2 = a by omega,
        show 2 * a / 2 = a by omega]
      simp
  simp only [trailingZeros, Nat.add_sub_cancel, h]
  decide

theorem trailingZeros_double {a : Nat} (ha : 0 < a) : trailingZeros (2 * a) = trailingZeros a + 1 := by
  have h : (2 * a) ^^^ (2 * a - 1) = 2 * (a ^^^ (a - 1)) + 1 := by
    have e : 2 * a - 1 = 2 * (a - 1) + 1 := by omega
    rw [e]
    apply Nat.eq_of_testBit_eq
    intro i
    rcases i with _ | i
    · simp
    · rw [Nat.testBit_xor, Nat.testBit_succ, Nat.testBit_succ, Nat.testBit_succ, show 2 * a / 2 = a by omega,
        show (2 * (a - 1) + 1) / 2 = a - 1 by omega, show (2 * (a ^^^ (a - 1)) + 1) / 2 = a ^^^ (a - 1) by omega,
        Nat.testBit_xor]
  have hp := xor_pred_pos ha
  simp only [trailingZeros, h]
  rw [Nat.log2_def]
  have : 2 ≤ 2 * (a ^^^ (a - 1)) + 1 := by omega
  simp only [this, ↓reduceIte]
  congr 2
  omega

/-- m > 0 is its odd part times 2 to its trailing zeros. -/
theorem exists_odd_part {m : Nat} (h : 0 < m) :
    ∃ o, o % 2 = 1 ∧ m = o * 2 ^ trailingZeros m ∧ m >>> trailingZeros m = o := by
  induction m using Nat.strong_induction_on with
  | _ m ih =>
    rcases Nat.even_or_odd' m with ⟨a, rfl | rfl⟩
    · have ha : 0 < a := by omega
      obtain ⟨o, ho, hm, hs⟩ := ih a (by omega) ha
      refine ⟨o, ho, ?_, ?_⟩
      · rw [trailingZeros_double ha, pow_succ, ← mul_assoc, ← hm, Nat.mul_comm]
      · rw [trailingZeros_double ha, Nat.add_comm, Nat.shiftRight_add, ← hs]
        simp [Nat.shiftRight_succ]
    · exact ⟨2 * a + 1, by omega, by simp, by simp⟩

theorem log2_mul_two_pow {m : Nat} (h : m ≠ 0) (k : Nat) : Nat.log2 (m * 2 ^ k) = Nat.log2 m + k := by
  induction k with
  | zero => simp
  | succ k ih =>
    have hne : m * 2 ^ k ≠ 0 := Nat.mul_ne_zero h (by positivity)
    rw [pow_succ, ← mul_assoc, mul_comm _ 2, Nat.log2_def]
    have : 2 ≤ 2 * (m * 2 ^ k) := by omega
    simp only [this, ↓reduceIte]
    rw [Nat.mul_div_cancel_left _ (by norm_num), ih]
    omega

/-- The stored form of an odd significand is itself. -/
theorem normalize_of_odd (s : Bool) {m : Nat} (h : m % 2 = 1) (e : Int) : normalize s m e = .fin s m e := by
  obtain ⟨a, rfl⟩ : ∃ a, m = 2 * a + 1 := ⟨m / 2, by omega⟩
  simp [normalize]

/-- The stored form does not depend on how many zeros stand at the end of the significand. -/
theorem normalize_shift (s : Bool) {m : Nat} (h : m % 2 = 1) (k : Nat) (e : Int) :
    normalize s (m * 2 ^ k) e = .fin s m (e + k) := by
  have hm : m ≠ 0 := by omega
  have hpos : 0 < m * 2 ^ k := by positivity
  have ht : trailingZeros (m * 2 ^ k) = k := by
    induction k with
    | zero =>
      obtain ⟨a, rfl⟩ : ∃ a, m = 2 * a + 1 := ⟨m / 2, by omega⟩
      simp
    | succ k ih =>
      have hp : 0 < m * 2 ^ k := by positivity
      rw [pow_succ, ← mul_assoc, mul_comm _ 2, trailingZeros_double hp, ih hp]
  rw [normalize, if_neg (by omega), ht, Nat.shiftRight_eq_div_pow, Nat.mul_div_cancel _ (by positivity)]

/-- A magnitude within the range and precision of the format, in its stored form, is a value of the format. -/
theorem numWf_normalize {f : NumFmt} (s : Bool) {m : Nat} {e : Int} (hm : m ≤ 2 ^ fmtPrec f) (hq : fmtQmin f ≤ e)
    (hx : e + (Nat.log2 m : Int) ≤ fmtEmax f) : numWf f (normalize s m e) = true := by
  rcases Nat.eq_zero_or_pos m with rfl | hpos
  · simp [normalize, numWf]
  · obtain ⟨o, ho, hmo, hsh⟩ := exists_odd_part hpos
    have ho0 : o ≠ 0 := by omega
    have hlog : Nat.log2 m = Nat.log2 o + trailingZeros m := by
      conv_lhs => rw [hmo]
      exact log2_mul_two_pow ho0 _
    have hlt : o < 2 ^ fmtPrec f := by
      have hle : o ≤ m := by
        conv_rhs => rw [hmo]
        exact Nat.le_mul_of_pos_right _ (by positivity)
      rcases Nat.lt_or_ge o (2 ^ fmtPrec f) with h | h
      · exact h
      · have : o = 2 ^ fmtPrec f := by omega
        rw [this] at ho
        cases f <;> simp [fmtPrec] at ho
    rw [normalize, if_neg (by omega), hsh]
    simp only [numWf, Bool.or_eq_true, Bool.and_eq_true, beq_iff_eq, decide_eq_true_eq]
    right
    refine ⟨⟨⟨ho, hlt⟩, ?_⟩, ?_⟩ <;> omega

/-! ### Rounding -/

theorem shiftRightRne_le (m k p : Nat) (h : m < 2 ^ (p + k)) : shiftRightRne m k ≤ 2 ^ p := by
  have hd : m >>> k < 2 ^ p := by
    rw [Nat.shiftRight_eq_div_pow, Nat.div_lt_iff_lt_mul (by positivity), ← pow_add]
    exact h
  simp only [shiftRightRne]
  split <;> omega

theorem numWf_overflowOr {f : NumFmt} (s : Bool) {m : Nat} {e : Int} (hm : m ≤ 2 ^ fmtPrec f) (hq : fmtQmin f ≤ e) :
    numWf f (overflowOr f s m e) = true := by
  rw [overflowOr]
  split
  · rfl
  · rename_i h
    rcases Nat.eq_zero_or_pos m with rfl | hpos
    · simp [normalize, numWf]
    · exact numWf_normalize s hm hq (by omega)

/-- Rounding answers a value of the format (00_scope.md R12). -/
theorem numWf_roundTo (f : NumFmt) (s : Bool) (m : Nat) (e : Int) : numWf f (roundTo f s m e) = true := by
  have hmlt : m < 2 ^ (Nat.log2 m + 1) := Nat.lt_log2_self
  have hp : 1 ≤ fmtPrec f := by cases f <;> decide
  rw [roundTo]
  split
  · rename_i h
    simp only [quantum] at h
    have hl : Nat.log2 m + 1 ≤ fmtPrec f := by omega
    exact numWf_overflowOr s (le_of_lt (lt_of_lt_of_le hmlt (Nat.pow_le_pow_right (by norm_num) hl))) (by omega)
  · rename_i h
    refine numWf_overflowOr s (shiftRightRne_le _ _ _ (lt_of_lt_of_le hmlt (Nat.pow_le_pow_right (by norm_num) ?_))) ?_
    · simp only [quantum] at h ⊢
      omega
    · simp only [quantum]
      omega

/-- Rounding leaves a value of the format as it is, however its significand is written. -/
theorem roundTo_of_wf {f : NumFmt} (s : Bool) {m : Nat} {e : Int} (h : numWf f (.fin s m e) = true) (hm : m ≠ 0) (k : Nat) :
    roundTo f s (m * 2 ^ k) (e - k) = .fin s m e := by
  simp only [numWf, Bool.or_eq_true, Bool.and_eq_true, beq_iff_eq, decide_eq_true_eq] at h
  obtain ⟨⟨⟨hodd, hlt⟩, hq⟩, hx⟩ : ((m % 2 = 1 ∧ m < 2 ^ fmtPrec f) ∧ fmtQmin f ≤ e) ∧ e + (Nat.log2 m : Int) ≤ fmtEmax f := by
    rcases h with h | h
    · exact absurd h.1 hm
    · exact h
  have hlog : Nat.log2 (m * 2 ^ k) = Nat.log2 m + k := log2_mul_two_pow hm k
  have hl : Nat.log2 m < fmtPrec f := (Nat.log2_lt hm).mpr hlt
  have hne : m * 2 ^ k ≠ 0 := Nat.mul_ne_zero hm (by positivity)
  have hov : ∀ (a : Nat) (g : Int), Nat.log2 a + g = Nat.log2 m + e → ¬ (a ≠ 0 ∧ fmtEmax f < g + (Nat.log2 a : Int)) := by
    intro a g hag; omega
  rw [roundTo]
  split
  · rw [overflowOr, if_neg (hov _ _ (by rw [hlog]; push_cast; omega)), normalize_shift s hodd]
    congr 1; omega
  · rename_i hnot
    have hqe : quantum f (m * 2 ^ k) (e - k) ≤ e := by simp only [quantum, hlog]; push_cast; omega
    obtain ⟨j, hj⟩ : ∃ j : Nat, (j : Int) = quantum f (m * 2 ^ k) (e - k) - (e - k) :=
      ⟨(quantum f (m * 2 ^ k) (e - k) - (e - k)).toNat, by omega⟩
    have hjk : j ≤ k := by omega
    have hsplit : m * 2 ^ k = (m * 2 ^ (k - j)) * 2 ^ j := by
      rw [mul_assoc, ← pow_add]; congr 2; omega
    have hr : shiftRightRne (m * 2 ^ k) j = m * 2 ^ (k - j) := by
      have hmod : m * 2 ^ k % 2 ^ j = 0 := by rw [hsplit]; simp
      have hdiv : (m * 2 ^ k) >>> j = m * 2 ^ (k - j) := by
        rw [Nat.shiftRight_eq_div_pow, hsplit, Nat.mul_div_cancel _ (by positivity)]
      have hpos : 0 < 2 ^ j := by positivity
      simp only [shiftRightRne, hmod, hdiv]
      rw [if_neg]
      omega
    have hto : (quantum f (m * 2 ^ k) (e - k) - (e - k)).toNat = j := by omega
    rw [hto, hr, overflowOr, if_neg (hov _ _ (by rw [log2_mul_two_pow hm]; push_cast; omega)), normalize_shift s hodd]
    congr 1; omega

@[simp] theorem isNaN_normalize (s : Bool) (m : Nat) (e : Int) : isNaN (normalize s m e) = false := by
  rw [normalize]; split <;> rfl

@[simp] theorem signBit_normalize (s : Bool) (m : Nat) (e : Int) : signBit (normalize s m e) = s := by
  rw [normalize]; split <;> rfl

@[simp] theorem isNaN_roundTo (f : NumFmt) (s : Bool) (m : Nat) (e : Int) : isNaN (roundTo f s m e) = false := by
  simp only [roundTo, overflowOr]
  split <;> split <;> first | rfl | simp

/-- Rounding keeps the sign, of a zero and of an infinity too. -/
@[simp] theorem signBit_roundTo (f : NumFmt) (s : Bool) (m : Nat) (e : Int) : signBit (roundTo f s m e) = s := by
  simp only [roundTo, overflowOr]
  split <;> split <;> first | rfl | simp

theorem numWf_roundQuotient (f : NumFmt) (s : Bool) (a b : Nat) (e : Int) : numWf f (roundQuotient f s a b e) = true :=
  numWf_roundTo _ _ _ _

/-! ### The operations -/

@[simp] theorem isNaN_freeNaN (P : Params) (op : ArithOp) (a b : NumVal) : isNaN (freeNaN P op a b) = true := rfl

theorem numWf_freeNaN (P : Params) (op : ArithOp) (a b : NumVal) : numWf P.numfmt (freeNaN P op a b) = true := by
  simp only [freeNaN, numWf, decide_eq_true_eq, BitVec.toNat_ofNat]
  exact lt_of_le_of_lt (Nat.mod_le _ _) (Nat.mod_lt _ (by positivity))

theorem numWf_zero (f : NumFmt) (s : Bool) : numWf f (.fin s 0 0) = true := by simp [numWf]

theorem numWf_fneg {f : NumFmt} {x : NumVal} (h : numWf f x = true) : numWf f (fneg x) = true := by
  cases x <;> exact h

theorem numWf_sumOr {f : NumFmt} {inv : NumVal} (hi : numWf f inv = true) (a b : NumVal) :
    numWf f (sumOr f inv a b) = true := by
  unfold sumOr
  split
  · exact hi
  · exact hi
  · split
    · rfl
    · exact hi
  · rfl
  · rfl
  · dsimp only
    split
    · exact numWf_zero _ _
    · exact numWf_roundTo _ _ _ _

theorem numWf_fadd (P : Params) (a b : NumVal) : numWf P.numfmt (fadd P a b) = true :=
  numWf_sumOr (numWf_freeNaN _ _ _ _) _ _

theorem numWf_fsub (P : Params) (a b : NumVal) : numWf P.numfmt (fsub P a b) = true :=
  numWf_sumOr (numWf_freeNaN _ _ _ _) _ _

theorem numWf_fmul (P : Params) (a b : NumVal) : numWf P.numfmt (fmul P a b) = true := by
  unfold fmul
  split
  · exact numWf_freeNaN _ _ _ _
  · exact numWf_freeNaN _ _ _ _
  · rfl
  · split
    · exact numWf_freeNaN _ _ _ _
    · rfl
  · split
    · exact numWf_freeNaN _ _ _ _
    · rfl
  · exact numWf_roundTo _ _ _ _

theorem numWf_toFormat (f : NumFmt) (x : NumVal) : numWf f (toFormat f x) = true := by
  cases x with
  | fin s m e => exact numWf_roundTo _ _ _ _
  | inf s => rfl
  | nan s p =>
    simp only [toFormat, numWf, decide_eq_true_eq, BitVec.toNat_ofNat]
    exact lt_of_le_of_lt (Nat.mod_le _ _) (Nat.mod_lt _ (by positivity))

theorem numWf_pow10 (P : Params) (x : NumVal) : numWf P.numfmt (pow10 P x) = true := by
  have hc : ∀ f : NumFmt, (numWf f (numOfInt 1) && numWf f (numOfInt 10) && numWf f (numOfInt 100)
      && numWf f (numOfInt 1000)) = true := by intro f; cases f <;> decide
  have := hc P.numfmt
  simp only [Bool.and_eq_true] at this
  unfold pow10
  split
  · exact this.1.1.1
  · split
    · exact this.1.1.2
    · split
      · exact this.1.2
      · split
        · exact this.2
        · exact numWf_toFormat _ _

theorem numWf_num (f : NumFmt) (n : Int) (d : Nat) : numWf f (num f n d) = true := by
  unfold num
  split
  · exact numWf_zero _ _
  · exact numWf_roundQuotient _ _ _ _ _

/-- A table entry is a value of the format (10_state.md R49, R64). -/
theorem numWf_finiteEntry {f : NumFmt} {x : NumVal} (h : numWf f x = true) : numWf f (finiteEntry x) = true := by
  cases x with
  | fin s m e =>
    simp only [finiteEntry]
    split
    · exact numWf_zero _ _
    · exact h
  | inf s => exact numWf_zero _ _
  | nan s p => exact numWf_zero _ _

/-- A table entry is finite (10_state.md R64). -/
@[simp] theorem isFinite_finiteEntry (x : NumVal) : isFinite (finiteEntry x) = true := by
  cases x with
  | fin s m e => simp only [finiteEntry]; split <;> rfl
  | inf s => rfl
  | nan s p => rfl

theorem numWf_scaledEntry (f : NumFmt) (n : Int) (k : Nat) : numWf f (scaledEntry f n k) = true :=
  numWf_finiteEntry (numWf_roundTo _ _ _ _)

/-- Nothing is less than a NaN, and a NaN is less than nothing. -/
theorem flt_of_isNaN {a b : NumVal} (h : isNaN a = true ∨ isNaN b = true) : flt a b = false := by
  cases a <;> cases b <;> simp_all [flt, isNaN]

end Sys2Proof.Machine
end

