-- ==== Sys2Proof/Laws/Loop.lean ====
section
/-! SUPPORT. What an indexed read sees of an indexed write, and how a counted loop unfolds. -/

namespace Sys2Proof.Machine

variable {α σ : Type} {n : Nat}

/-- A read inside the vector is the element. -/
theorem rd_of_lt [Inhabited α] (x : Vector α n) {i : Nat} (h : i < n) : rd x i = x[i] := by
  simp [rd, h]

@[simp] theorem rd_wr_same [Inhabited α] (x : Vector α n) (v : α) {i : Nat} (h : i < n) : rd (wr x i v) i = v := by
  simp [rd, wr, h]

/-- A write leaves every other element alone. -/
theorem rd_wr_other [Inhabited α] (x : Vector α n) (v : α) {i j : Nat} (h : i ≠ j) : rd (wr x i v) j = rd x j := by
  simp [rd, wr, h]

/-- Read after write, both cases at once. -/
theorem rd_wr [Inhabited α] (x : Vector α n) (v : α) (i j : Nat) :
    rd (wr x i v) j = if i = j ∧ j < n then v else rd x j := by
  by_cases h : i = j
  · subst h
    by_cases hn : i < n
    · simp [hn]
    · simp [rd, wr, hn]
  · simp [h, rd_wr_other x v h]

/-- Two vectors that read the same everywhere are equal. -/
theorem ext_rd [Inhabited α] {x y : Vector α n} (h : ∀ i < n, rd x i = rd y i) : x = y := by
  ext i hi
  have := h i hi
  rwa [rd_of_lt x hi, rd_of_lt y hi] at this

@[simp] theorem rd_replicate [Inhabited α] (v : α) {i : Nat} (h : i < n) : rd (Vector.replicate n v) i = v := by
  simp [rd, h]

@[simp] theorem rd_ofFn [Inhabited α] (f : Fin n → α) {i : Nat} (h : i < n) : rd (Vector.ofFn f) i = f ⟨i, h⟩ := by
  simp [rd, h]

/-- An empty loop. -/
@[simp] theorem forRange_self (lo : Nat) (body : Nat → σ → σ) (s : σ) : forRange lo lo body s = s := by
  simp [forRange]

/-- The last turn of a loop. -/
theorem forRange_succ {lo hi : Nat} (h : lo ≤ hi) (body : Nat → σ → σ) (s : σ) :
    forRange lo (hi + 1) body s = body hi (forRange lo hi body s) := by
  have hh : hi + 1 - lo = (hi - lo) + 1 := by omega
  have hk : lo + 1 * (hi - lo) = hi := by omega
  simp only [forRange, hh, List.range'_concat, List.foldl_append, List.foldl_cons, List.foldl_nil, hk]

/-- A property that every turn carries on holds after the loop: `I k` is what holds when turns lo to k − 1 are done. -/
theorem forRange_induct {lo hi : Nat} (hle : lo ≤ hi) (body : Nat → σ → σ) (I : Nat → σ → Prop) (s : σ)
    (h0 : I lo s) (hs : ∀ k t, lo ≤ k → k < hi → I k t → I (k + 1) (body k t)) :
    I hi (forRange lo hi body s) := by
  induction hi, hle using Nat.le_induction with
  | base => simpa using h0
  | succ m hm ih =>
    rw [forRange_succ hm]
    exact hs m _ hm (Nat.lt_succ_self m) (ih fun k t hk hk' => hs k t hk (Nat.lt_succ_of_lt hk'))

/-- A component no turn changes is unchanged by the loop. -/
theorem forRange_frame {β : Type} {lo hi : Nat} (hle : lo ≤ hi) (body : Nat → σ → σ) (view : σ → β)
    (hs : ∀ k t, view (body k t) = view t) (s : σ) : view (forRange lo hi body s) = view s :=
  forRange_induct hle body (fun _ t => view t = view s) s rfl fun k t _ _ h => (hs k t).trans h

end Sys2Proof.Machine
end

