-- ==== Sys2Proof/Laws/State.lean ====
section
/-! SUPPORT. One lemma per component per named update of the state, true by unfolding, so that no later proof unfolds a
record update. -/

namespace Sys2Proof.Machine

open Sys2Proof

/-! ### Updates of the whole machine -/

@[simp] theorem rejectCommand_eng (s : State) : (rejectCommand s).eng = s.eng := by simp only [rejectCommand]
@[simp] theorem rejectCommand_frameIn (s : State) : (rejectCommand s).frameIn = s.frameIn := by simp only [rejectCommand]
@[simp] theorem rejectCommand_out (s : State) : (rejectCommand s).out = s.out := by simp only [rejectCommand]
@[simp] theorem rejectCommand_status (s : State) : (rejectCommand s).status = statusCmderr s.status := by simp only [rejectCommand]
@[simp] theorem rejectCommand_pending (s : State) : (rejectCommand s).pending = s.pending := by simp only [rejectCommand]
@[simp] theorem rejectCommand_rst (s : State) : (rejectCommand s).rst = s.rst := by simp only [rejectCommand]
@[simp] theorem rejectCommand_rdata (s : State) : (rejectCommand s).rdata = s.rdata := by simp only [rejectCommand]
@[simp] theorem rejectCommand_script (s : State) : (rejectCommand s).script = s.script := by simp only [rejectCommand]
@[simp] theorem rejectCommand_actor (s : State) : (rejectCommand s).actor = s.actor := by simp only [rejectCommand]
@[simp] theorem rejectCommand_freeCount (s : State) : (rejectCommand s).freeCount = s.freeCount := by simp only [rejectCommand]

@[simp] theorem refuseAccess_eng (s : State) : (refuseAccess s).eng = s.eng := by simp only [refuseAccess]
@[simp] theorem refuseAccess_frameIn (s : State) : (refuseAccess s).frameIn = s.frameIn := by simp only [refuseAccess]
@[simp] theorem refuseAccess_out (s : State) : (refuseAccess s).out = s.out := by simp only [refuseAccess]
@[simp] theorem refuseAccess_status (s : State) : (refuseAccess s).status = statusAccerr s.status := by simp only [refuseAccess]
@[simp] theorem refuseAccess_pending (s : State) : (refuseAccess s).pending = s.pending := by simp only [refuseAccess]
@[simp] theorem refuseAccess_rst (s : State) : (refuseAccess s).rst = s.rst := by simp only [refuseAccess]
@[simp] theorem refuseAccess_rdata (s : State) : (refuseAccess s).rdata = s.rdata := by simp only [refuseAccess]
@[simp] theorem refuseAccess_script (s : State) : (refuseAccess s).script = s.script := by simp only [refuseAccess]
@[simp] theorem refuseAccess_actor (s : State) : (refuseAccess s).actor = s.actor := by simp only [refuseAccess]
@[simp] theorem refuseAccess_freeCount (s : State) : (refuseAccess s).freeCount = s.freeCount := by simp only [refuseAccess]

@[simp] theorem accept_eng (op : Pending) (s : State) : (accept op s).eng = s.eng := by simp only [accept]
@[simp] theorem accept_frameIn (op : Pending) (s : State) : (accept op s).frameIn = s.frameIn := by simp only [accept]
@[simp] theorem accept_out (op : Pending) (s : State) : (accept op s).out = s.out := by simp only [accept]
@[simp] theorem accept_status (op : Pending) (s : State) : (accept op s).status = statusAccept s.status := by simp only [accept]
@[simp] theorem accept_pending (op : Pending) (s : State) : (accept op s).pending = op := by simp only [accept]
@[simp] theorem accept_rst (op : Pending) (s : State) : (accept op s).rst = s.rst := by simp only [accept]
@[simp] theorem accept_rdata (op : Pending) (s : State) : (accept op s).rdata = s.rdata := by simp only [accept]
@[simp] theorem accept_script (op : Pending) (s : State) : (accept op s).script = s.script := by simp only [accept]
@[simp] theorem accept_actor (op : Pending) (s : State) : (accept op s).actor = s.actor := by simp only [accept]
@[simp] theorem accept_freeCount (op : Pending) (s : State) : (accept op s).freeCount = s.freeCount := by simp only [accept]

@[simp] theorem latchFrame_eng (s : State) : (latchFrame s).eng = { s.eng with latch := latchOf s.frameIn } := by simp only [latchFrame]
@[simp] theorem latchFrame_frameIn (s : State) : (latchFrame s).frameIn = s.frameIn := by simp only [latchFrame]
@[simp] theorem latchFrame_out (s : State) : (latchFrame s).out = s.out := by simp only [latchFrame]
@[simp] theorem latchFrame_status (s : State) : (latchFrame s).status = s.status := by simp only [latchFrame]
@[simp] theorem latchFrame_pending (s : State) : (latchFrame s).pending = s.pending := by simp only [latchFrame]
@[simp] theorem latchFrame_rst (s : State) : (latchFrame s).rst = s.rst := by simp only [latchFrame]
@[simp] theorem latchFrame_rdata (s : State) : (latchFrame s).rdata = s.rdata := by simp only [latchFrame]
@[simp] theorem latchFrame_script (s : State) : (latchFrame s).script = s.script := by simp only [latchFrame]
@[simp] theorem latchFrame_actor (s : State) : (latchFrame s).actor = s.actor := by simp only [latchFrame]
@[simp] theorem latchFrame_freeCount (s : State) : (latchFrame s).freeCount = s.freeCount := by simp only [latchFrame]

@[simp] theorem complete_eng (s : State) : (complete s).eng = s.eng := by simp only [complete]
@[simp] theorem complete_frameIn (s : State) : (complete s).frameIn = s.frameIn := by simp only [complete]
@[simp] theorem complete_out (s : State) : (complete s).out = s.out := by simp only [complete]
@[simp] theorem complete_status (s : State) : (complete s).status = statusComplete s.status := by simp only [complete]
@[simp] theorem complete_pending (s : State) : (complete s).pending = .none := by simp only [complete]
@[simp] theorem complete_rst (s : State) : (complete s).rst = s.rst := by simp only [complete]
@[simp] theorem complete_rdata (s : State) : (complete s).rdata = s.rdata := by simp only [complete]
@[simp] theorem complete_script (s : State) : (complete s).script = s.script := by simp only [complete]
@[simp] theorem complete_actor (s : State) : (complete s).actor = s.actor := by simp only [complete]
@[simp] theorem complete_freeCount (s : State) : (complete s).freeCount = s.freeCount := by simp only [complete]

@[simp] theorem powerOn_eng (s : State) : (powerOn s).eng = Engine.reset := by simp only [powerOn, State.reset]
@[simp] theorem powerOn_frameIn (s : State) : (powerOn s).frameIn = Vector.replicate 12 0 := by simp only [powerOn, State.reset]
@[simp] theorem powerOn_out (s : State) : (powerOn s).out = Vector.replicate 192 NumVal.zero := by simp only [powerOn, State.reset]
@[simp] theorem powerOn_status (s : State) : (powerOn s).status = Status.reset := by simp only [powerOn, State.reset]
@[simp] theorem powerOn_pending (s : State) : (powerOn s).pending = .none := by simp only [powerOn, State.reset]
@[simp] theorem powerOn_rst (s : State) : (powerOn s).rst = s.rst := by simp only [powerOn, State.reset]
@[simp] theorem powerOn_rdata (s : State) : (powerOn s).rdata = s.rdata := by simp only [powerOn, State.reset]
@[simp] theorem powerOn_script (s : State) : (powerOn s).script = s.script := by simp only [powerOn, State.reset]
@[simp] theorem powerOn_actor (s : State) : (powerOn s).actor = s.actor := by simp only [powerOn, State.reset]
@[simp] theorem powerOn_freeCount (s : State) : (powerOn s).freeCount = s.freeCount := by simp only [powerOn, State.reset]

@[simp] theorem setRdata_eng (d : Word32) (s : State) : (setRdata d s).eng = s.eng := by simp only [setRdata]
@[simp] theorem setRdata_frameIn (d : Word32) (s : State) : (setRdata d s).frameIn = s.frameIn := by simp only [setRdata]
@[simp] theorem setRdata_out (d : Word32) (s : State) : (setRdata d s).out = s.out := by simp only [setRdata]
@[simp] theorem setRdata_status (d : Word32) (s : State) : (setRdata d s).status = s.status := by simp only [setRdata]
@[simp] theorem setRdata_pending (d : Word32) (s : State) : (setRdata d s).pending = s.pending := by simp only [setRdata]
@[simp] theorem setRdata_rst (d : Word32) (s : State) : (setRdata d s).rst = s.rst := by simp only [setRdata]
@[simp] theorem setRdata_rdata (d : Word32) (s : State) : (setRdata d s).rdata = d := by simp only [setRdata]
@[simp] theorem setRdata_script (d : Word32) (s : State) : (setRdata d s).script = s.script := by simp only [setRdata]
@[simp] theorem setRdata_actor (d : Word32) (s : State) : (setRdata d s).actor = s.actor := by simp only [setRdata]
@[simp] theorem setRdata_freeCount (d : Word32) (s : State) : (setRdata d s).freeCount = s.freeCount := by simp only [setRdata]

@[simp] theorem setActor_eng (a : Agent) (s : State) : (setActor a s).eng = s.eng := by simp only [setActor]
@[simp] theorem setActor_frameIn (a : Agent) (s : State) : (setActor a s).frameIn = s.frameIn := by simp only [setActor]
@[simp] theorem setActor_out (a : Agent) (s : State) : (setActor a s).out = s.out := by simp only [setActor]
@[simp] theorem setActor_status (a : Agent) (s : State) : (setActor a s).status = s.status := by simp only [setActor]
@[simp] theorem setActor_pending (a : Agent) (s : State) : (setActor a s).pending = s.pending := by simp only [setActor]
@[simp] theorem setActor_rst (a : Agent) (s : State) : (setActor a s).rst = s.rst := by simp only [setActor]
@[simp] theorem setActor_rdata (a : Agent) (s : State) : (setActor a s).rdata = s.rdata := by simp only [setActor]
@[simp] theorem setActor_script (a : Agent) (s : State) : (setActor a s).script = s.script := by simp only [setActor]
@[simp] theorem setActor_actor (a : Agent) (s : State) : (setActor a s).actor = a := by simp only [setActor]
@[simp] theorem setActor_freeCount (a : Agent) (s : State) : (setActor a s).freeCount = s.freeCount := by simp only [setActor]

@[simp] theorem drawFree_eng (s : State) : ((drawFree s).2).eng = s.eng := by simp only [drawFree]
@[simp] theorem drawFree_frameIn (s : State) : ((drawFree s).2).frameIn = s.frameIn := by simp only [drawFree]
@[simp] theorem drawFree_out (s : State) : ((drawFree s).2).out = s.out := by simp only [drawFree]
@[simp] theorem drawFree_status (s : State) : ((drawFree s).2).status = s.status := by simp only [drawFree]
@[simp] theorem drawFree_pending (s : State) : ((drawFree s).2).pending = s.pending := by simp only [drawFree]
@[simp] theorem drawFree_rst (s : State) : ((drawFree s).2).rst = s.rst := by simp only [drawFree]
@[simp] theorem drawFree_rdata (s : State) : ((drawFree s).2).rdata = s.rdata := by simp only [drawFree]
@[simp] theorem drawFree_script (s : State) : ((drawFree s).2).script = s.script := by simp only [drawFree]
@[simp] theorem drawFree_actor (s : State) : ((drawFree s).2).actor = s.actor := by simp only [drawFree]
@[simp] theorem drawFree_freeCount (s : State) : ((drawFree s).2).freeCount = s.freeCount + 1 := by simp only [drawFree]

@[simp] theorem completeReset_eng (s : State) : (completeReset s).eng = { s.eng with dec := Decoder.reset } := by simp only [completeReset, complete]
@[simp] theorem completeReset_frameIn (s : State) : (completeReset s).frameIn = s.frameIn := by simp only [completeReset, complete]
@[simp] theorem completeReset_out (s : State) : (completeReset s).out = s.out := by simp only [completeReset, complete]
@[simp] theorem completeReset_status (s : State) : (completeReset s).status = statusComplete s.status := by simp only [completeReset, complete]
@[simp] theorem completeReset_pending (s : State) : (completeReset s).pending = .none := by simp only [completeReset, complete]
@[simp] theorem completeReset_rst (s : State) : (completeReset s).rst = s.rst := by simp only [completeReset, complete]
@[simp] theorem completeReset_rdata (s : State) : (completeReset s).rdata = s.rdata := by simp only [completeReset, complete]
@[simp] theorem completeReset_script (s : State) : (completeReset s).script = s.script := by simp only [completeReset, complete]
@[simp] theorem completeReset_actor (s : State) : (completeReset s).actor = s.actor := by simp only [completeReset, complete]
@[simp] theorem completeReset_freeCount (s : State) : (completeReset s).freeCount = s.freeCount := by simp only [completeReset, complete]

@[simp] theorem completeDecode_eng (P : Params) (s : State) : (completeDecode P s).eng = decodeFrame P s.eng := by simp only [completeDecode, complete]
@[simp] theorem completeDecode_frameIn (P : Params) (s : State) : (completeDecode P s).frameIn = s.frameIn := by simp only [completeDecode, complete]
@[simp] theorem completeDecode_out (P : Params) (s : State) : (completeDecode P s).out = (decodeFrame P s.eng).wk.outbuf := by simp only [completeDecode, complete]
@[simp] theorem completeDecode_status (P : Params) (s : State) : (completeDecode P s).status = statusComplete (statusOrLagoor s.status (decodeFrame P s.eng).wk.oor) := by simp only [completeDecode, complete]
@[simp] theorem completeDecode_pending (P : Params) (s : State) : (completeDecode P s).pending = .none := by simp only [completeDecode, complete]
@[simp] theorem completeDecode_rst (P : Params) (s : State) : (completeDecode P s).rst = s.rst := by simp only [completeDecode, complete]
@[simp] theorem completeDecode_rdata (P : Params) (s : State) : (completeDecode P s).rdata = s.rdata := by simp only [completeDecode, complete]
@[simp] theorem completeDecode_script (P : Params) (s : State) : (completeDecode P s).script = s.script := by simp only [completeDecode, complete]
@[simp] theorem completeDecode_actor (P : Params) (s : State) : (completeDecode P s).actor = s.actor := by simp only [completeDecode, complete]
@[simp] theorem completeDecode_freeCount (P : Params) (s : State) : (completeDecode P s).freeCount = s.freeCount := by simp only [completeDecode, complete]

/-! ### Updates of STATUS -/

@[simp] theorem statusCmderr_busy (st : Status) : (statusCmderr st).busy = st.busy := by simp only [statusCmderr]
@[simp] theorem statusCmderr_done (st : Status) : (statusCmderr st).done = st.done := by simp only [statusCmderr]
@[simp] theorem statusCmderr_lagoor (st : Status) : (statusCmderr st).lagoor = st.lagoor := by simp only [statusCmderr]
@[simp] theorem statusCmderr_cmderr (st : Status) : (statusCmderr st).cmderr = true := by simp only [statusCmderr]
@[simp] theorem statusCmderr_accerr (st : Status) : (statusCmderr st).accerr = st.accerr := by simp only [statusCmderr]

@[simp] theorem statusAccerr_busy (st : Status) : (statusAccerr st).busy = st.busy := by simp only [statusAccerr]
@[simp] theorem statusAccerr_done (st : Status) : (statusAccerr st).done = st.done := by simp only [statusAccerr]
@[simp] theorem statusAccerr_lagoor (st : Status) : (statusAccerr st).lagoor = st.lagoor := by simp only [statusAccerr]
@[simp] theorem statusAccerr_cmderr (st : Status) : (statusAccerr st).cmderr = st.cmderr := by simp only [statusAccerr]
@[simp] theorem statusAccerr_accerr (st : Status) : (statusAccerr st).accerr = true := by simp only [statusAccerr]

@[simp] theorem statusAccept_busy (st : Status) : (statusAccept st).busy = true := by simp only [statusAccept]
@[simp] theorem statusAccept_done (st : Status) : (statusAccept st).done = false := by simp only [statusAccept]
@[simp] theorem statusAccept_lagoor (st : Status) : (statusAccept st).lagoor = st.lagoor := by simp only [statusAccept]
@[simp] theorem statusAccept_cmderr (st : Status) : (statusAccept st).cmderr = st.cmderr := by simp only [statusAccept]
@[simp] theorem statusAccept_accerr (st : Status) : (statusAccept st).accerr = st.accerr := by simp only [statusAccept]

@[simp] theorem statusComplete_busy (st : Status) : (statusComplete st).busy = false := by simp only [statusComplete]
@[simp] theorem statusComplete_done (st : Status) : (statusComplete st).done = true := by simp only [statusComplete]
@[simp] theorem statusComplete_lagoor (st : Status) : (statusComplete st).lagoor = st.lagoor := by simp only [statusComplete]
@[simp] theorem statusComplete_cmderr (st : Status) : (statusComplete st).cmderr = st.cmderr := by simp only [statusComplete]
@[simp] theorem statusComplete_accerr (st : Status) : (statusComplete st).accerr = st.accerr := by simp only [statusComplete]

@[simp] theorem statusOrLagoor_busy (st : Status) (oor : Bool) : (statusOrLagoor st oor).busy = st.busy := by simp only [statusOrLagoor]
@[simp] theorem statusOrLagoor_done (st : Status) (oor : Bool) : (statusOrLagoor st oor).done = st.done := by simp only [statusOrLagoor]
@[simp] theorem statusOrLagoor_lagoor (st : Status) (oor : Bool) : (statusOrLagoor st oor).lagoor = (st.lagoor || oor) := by simp only [statusOrLagoor]
@[simp] theorem statusOrLagoor_cmderr (st : Status) (oor : Bool) : (statusOrLagoor st oor).cmderr = st.cmderr := by simp only [statusOrLagoor]
@[simp] theorem statusOrLagoor_accerr (st : Status) (oor : Bool) : (statusOrLagoor st oor).accerr = st.accerr := by simp only [statusOrLagoor]

@[simp] theorem statusWriteOne_busy (st : Status) (d : Word32) : (statusWriteOne st d).busy = st.busy := by simp only [statusWriteOne]
@[simp] theorem statusWriteOne_done (st : Status) (d : Word32) : (statusWriteOne st d).done = (st.done && !d.getLsbD 1) := by simp only [statusWriteOne]
@[simp] theorem statusWriteOne_lagoor (st : Status) (d : Word32) : (statusWriteOne st d).lagoor = (st.lagoor && !d.getLsbD 2) := by simp only [statusWriteOne]
@[simp] theorem statusWriteOne_cmderr (st : Status) (d : Word32) : (statusWriteOne st d).cmderr = (st.cmderr && !d.getLsbD 3) := by simp only [statusWriteOne]
@[simp] theorem statusWriteOne_accerr (st : Status) (d : Word32) : (statusWriteOne st d).accerr = (st.accerr && !d.getLsbD 4) := by simp only [statusWriteOne]

/-! ### Updates of the engine: the decoder state, the latch and the working registers -/

@[simp] theorem setCursor_dec (c : Nat) (e : Engine) : (setCursor c e).dec = e.dec := by simp only [setCursor]
@[simp] theorem setCursor_latch (c : Nat) (e : Engine) : (setCursor c e).latch = e.latch := by simp only [setCursor]
@[simp] theorem setCursor_wk (c : Nat) (e : Engine) : (setCursor c e).wk = { e.wk with cursor := BitVec.ofNat 9 c } := by simp only [setCursor]

@[simp] theorem clearOor_dec (e : Engine) : (clearOor e).dec = e.dec := by simp only [clearOor]
@[simp] theorem clearOor_latch (e : Engine) : (clearOor e).latch = e.latch := by simp only [clearOor]
@[simp] theorem clearOor_wk (e : Engine) : (clearOor e).wk = { e.wk with oor := false } := by simp only [clearOor]

@[simp] theorem setSeq_dec (s v : Nat) (ph : Phase) (e : Engine) : (setSeq s v ph e).dec = e.dec := by simp only [setSeq]
@[simp] theorem setSeq_latch (s v : Nat) (ph : Phase) (e : Engine) : (setSeq s v ph e).latch = e.latch := by simp only [setSeq]
@[simp] theorem setSeq_wk (s v : Nat) (ph : Phase) (e : Engine) : (setSeq s v ph e).wk = { e.wk with seq := ⟨Fin.ofNat 4 s, Fin.ofNat 12 v, ph⟩ } := by simp only [setSeq]

@[simp] theorem raiseLagOutOfRange_dec (e : Engine) : (raiseLagOutOfRange e).dec = e.dec := by simp only [raiseLagOutOfRange]
@[simp] theorem raiseLagOutOfRange_latch (e : Engine) : (raiseLagOutOfRange e).latch = e.latch := by simp only [raiseLagOutOfRange]
@[simp] theorem raiseLagOutOfRange_wk (e : Engine) : (raiseLagOutOfRange e).wk = { e.wk with oor := true } := by simp only [raiseLagOutOfRange]

@[simp] theorem lpcSelect_dec (P : Params) (s : Nat) (e : Engine) : (lpcSelect P s e).dec = e.dec := by simp only [lpcSelect]
@[simp] theorem lpcSelect_latch (P : Params) (s : Nat) (e : Engine) : (lpcSelect P s e).latch = e.latch := by simp only [lpcSelect]
@[simp] theorem lpcSelect_wk (P : Params) (s : Nat) (e : Engine) : (lpcSelect P s e).wk = { e.wk with lpc := lsfToLpc P (if e.dec.prevValid then lsfInterp P s e.dec.prevLsf e.wk.lsf else e.wk.lsf) } := by simp only [lpcSelect]

@[simp] theorem captureE2_dec (e : Engine) : (captureE2 e).dec = e.dec := by simp only [captureE2]
@[simp] theorem captureE2_latch (e : Engine) : (captureE2 e).latch = e.latch := by simp only [captureE2]
@[simp] theorem captureE2_wk (e : Engine) : (captureE2 e).wk = { e.wk with e2Init := rd e.dec.curGe 2 } := by simp only [captureE2]

@[simp] theorem curEnergyStep_dec (P : Params) (e : Engine) : (curEnergyStep P e).dec = { e.dec with curGe := energyUpdate P e.dec.curGl e.dec.curGl e.dec.curGe } := by simp only [curEnergyStep]
@[simp] theorem curEnergyStep_latch (P : Params) (e : Engine) : (curEnergyStep P e).latch = e.latch := by simp only [curEnergyStep]
@[simp] theorem curEnergyStep_wk (P : Params) (e : Engine) : (curEnergyStep P e).wk = e.wk := by simp only [curEnergyStep]

@[simp] theorem prevEnergyStep_dec (P : Params) (e : Engine) : (prevEnergyStep P e).dec = { e.dec with prevGe := energyUpdate P e.dec.curGl e.dec.prevGl e.dec.prevGe } := by simp only [prevEnergyStep]
@[simp] theorem prevEnergyStep_latch (P : Params) (e : Engine) : (prevEnergyStep P e).latch = e.latch := by simp only [prevEnergyStep]
@[simp] theorem prevEnergyStep_wk (P : Params) (e : Engine) : (prevEnergyStep P e).wk = e.wk := by simp only [prevEnergyStep]

@[simp] theorem gainPowerSelect_dec (P : Params) (e : Engine) : (gainPowerSelect P e).dec = { e.dec with cgp := ladderPower P (currentEnergy P e) (previousEnergy P e) } := by simp only [gainPowerSelect]
@[simp] theorem gainPowerSelect_latch (P : Params) (e : Engine) : (gainPowerSelect P e).latch = e.latch := by simp only [gainPowerSelect]
@[simp] theorem gainPowerSelect_wk (P : Params) (e : Engine) : (gainPowerSelect P e).wk = e.wk := by simp only [gainPowerSelect]

@[simp] theorem cbLevel_dec (P : Params) (e : Engine) : (cbLevel P e).dec = e.dec := by simp only [cbLevel]
@[simp] theorem cbLevel_latch (P : Params) (e : Engine) : (cbLevel P e).latch = e.latch := by simp only [cbLevel]
@[simp] theorem cbLevel_wk (P : Params) (e : Engine) : (cbLevel P e).wk = { e.wk with cbGl := clamp (fmul P e.dec.cgp e.dec.curGl) glMin glMax } := by simp only [cbLevel]

@[simp] theorem cbGain_dec (P : Params) (e : Engine) : (cbGain P e).dec = e.dec := by simp only [cbGain]
@[simp] theorem cbGain_latch (P : Params) (e : Engine) : (cbGain P e).latch = e.latch := by simp only [cbGain]
@[simp] theorem cbGain_wk (P : Params) (e : Engine) : (cbGain P e).wk = { e.wk with cbGain := levelToGain P e.wk.cbGl } := by simp only [cbGain]

@[simp] theorem gainLevelUpdate_dec (P : Params) (e : Engine) : (gainLevelUpdate P e).dec = { e.dec with prevGl := e.dec.curGl, curGl := fadd P e.wk.cbGl (romDgain P e.wk.cbIdx.toNat) } := by simp only [gainLevelUpdate]
@[simp] theorem gainLevelUpdate_latch (P : Params) (e : Engine) : (gainLevelUpdate P e).latch = e.latch := by simp only [gainLevelUpdate]
@[simp] theorem gainLevelUpdate_wk (P : Params) (e : Engine) : (gainLevelUpdate P e).wk = e.wk := by simp only [gainLevelUpdate]

@[simp] theorem signApply_dec (e : Engine) : (signApply e).dec = e.dec := by simp only [signApply]
@[simp] theorem signApply_latch (e : Engine) : (signApply e).latch = e.latch := by simp only [signApply]
@[simp] theorem signApply_wk (e : Engine) : (signApply e).wk = { e.wk with cbGain := if e.wk.cbSign then fneg e.wk.cbGain else e.wk.cbGain } := by simp only [signApply]

@[simp] theorem lagShift_dec (e : Engine) : (lagShift e).dec = { e.dec with lag := lagShifted e.dec.lag } := by simp only [lagShift]
@[simp] theorem lagShift_latch (e : Engine) : (lagShift e).latch = e.latch := by simp only [lagShift]
@[simp] theorem lagShift_wk (e : Engine) : (lagShift e).wk = e.wk := by simp only [lagShift]

@[simp] theorem lagWrite_dec (v : Nat) (e : Engine) : (lagWrite v e).dec = { e.dec with lag := forRange 0 4 (fun i x => wr x (121 + 4 * v + i) (rd e.wk.comb i)) e.dec.lag } := by simp only [lagWrite]
@[simp] theorem lagWrite_latch (v : Nat) (e : Engine) : (lagWrite v e).latch = e.latch := by simp only [lagWrite]
@[simp] theorem lagWrite_wk (v : Nat) (e : Engine) : (lagWrite v e).wk = e.wk := by simp only [lagWrite]

@[simp] theorem combine_dec (P : Params) (e : Engine) : (combine P e).dec = e.dec := by simp only [combine]
@[simp] theorem combine_latch (P : Params) (e : Engine) : (combine P e).latch = e.latch := by simp only [combine]
@[simp] theorem combine_wk (P : Params) (e : Engine) : (combine P e).wk = { e.wk with comb := forRange 0 4 (fun i x =>
      wr x i (fadd P (fmul P e.wk.cbGain (romCbvec P e.wk.cbIdx.toNat i)) (rd e.wk.pitch i))) e.wk.comb } := by simp only [combine]

@[simp] theorem lpcSynth_dec (P : Params) (e : Engine) : (lpcSynth P e).dec = { e.dec with syn := synShiftStore e.dec.syn (synOutputs P e) } := by simp only [lpcSynth]
@[simp] theorem lpcSynth_latch (P : Params) (e : Engine) : (lpcSynth P e).latch = e.latch := by simp only [lpcSynth]
@[simp] theorem lpcSynth_wk (P : Params) (e : Engine) : (lpcSynth P e).wk = { e.wk with o := synOutputs P e } := by simp only [lpcSynth]

@[simp] theorem emit_dec (s v : Nat) (e : Engine) : (emit s v e).dec = e.dec := by simp only [emit]
@[simp] theorem emit_latch (s v : Nat) (e : Engine) : (emit s v e).latch = e.latch := by simp only [emit]
@[simp] theorem emit_wk (s v : Nat) (e : Engine) : (emit s v e).wk = { e.wk with outbuf := forRange 0 4 (fun i x => wr x ((s * 12 + v) * 4 + i) (rd e.dec.syn (10 - 5 + i))) e.wk.outbuf } := by simp only [emit]

@[simp] theorem frameEnd_dec (e : Engine) : (frameEnd e).dec = { e.dec with prevLsf := e.wk.lsf, prevValid := true } := by simp only [frameEnd]
@[simp] theorem frameEnd_latch (e : Engine) : (frameEnd e).latch = e.latch := by simp only [frameEnd]
@[simp] theorem frameEnd_wk (e : Engine) : (frameEnd e).wk = { e.wk with seq := { e.wk.seq with phase := .frameEnd } } := by simp only [frameEnd]

end Sys2Proof.Machine
end

