-- ==== Sys2Proof/Laws/Ops.lean ====
section
/-! SUPPORT. One lemma per shared operation of the datapath and of the port that says what it can do. -/

namespace Sys2Proof.Machine

open Sys2Proof

/-! ### The bit reader -/

@[simp] theorem getBits_dec (n : Nat) (e : Engine) : (getBits n e).2.dec = e.dec := by simp only [getBits, setCursor]
@[simp] theorem getBits_latch (n : Nat) (e : Engine) : (getBits n e).2.latch = e.latch := by simp only [getBits, setCursor]
@[simp] theorem getBits_wk (n : Nat) (e : Engine) :
    (getBits n e).2.wk = { e.wk with cursor := BitVec.ofNat 9 (e.wk.cursor.toNat + n) } := by simp only [getBits, setCursor]
@[simp] theorem getBits_value (n : Nat) (e : Engine) : (getBits n e).1 = bitsFrom e.latch e.wk.cursor.toNat n := by
  simp only [getBits]

@[simp] theorem latchBit_le_one (latch : Vector Byte 48) (p : Nat) : latchBit latch p ≤ 1 := by
  simp only [latchBit]; split
  · exact Bool.toNat_le _
  · omega

@[simp] theorem bitsFrom_zero (latch : Vector Byte 48) (p : Nat) : bitsFrom latch p 0 = 0 := by
  simp [bitsFrom]

/-- One more bit is one more binary digit above the others (40_bitreader.md R150). -/
theorem bitsFrom_succ (latch : Vector Byte 48) (p n : Nat) :
    bitsFrom latch p (n + 1) = bitsFrom latch p n + latchBit latch (p + n) * 2 ^ n := by
  simp only [bitsFrom]; rw [forRange_succ (Nat.zero_le n)]

/-- GETBITS answers an n-bit number (40_bitreader.md R150). -/
theorem bitsFrom_lt (latch : Vector Byte 48) (p n : Nat) : bitsFrom latch p n < 2 ^ n := by
  induction n with
  | zero => simp
  | succ n ih =>
    rw [bitsFrom_succ, pow_succ]
    have := Nat.mul_le_mul_right (2 ^ n) (latchBit_le_one latch (p + n))
    omega

@[simp] theorem readCb_dec (e : Engine) : (readCb e).dec = e.dec := by simp only [readCb, getBits, setCursor]
@[simp] theorem readCb_latch (e : Engine) : (readCb e).latch = e.latch := by simp only [readCb, getBits, setCursor]

@[simp] theorem unpackLag_dec (P : Params) (s : Nat) (e : Engine) : (unpackLag P s e).dec = e.dec := by
  simp only [unpackLag, getBits, setCursor]
@[simp] theorem unpackLag_latch (P : Params) (s : Nat) (e : Engine) : (unpackLag P s e).latch = e.latch := by
  simp only [unpackLag, getBits, setCursor]
@[simp] theorem unpackLsf_dec (P : Params) (i : Nat) (e : Engine) : (unpackLsf P i e).dec = e.dec := by
  simp only [unpackLsf, getBits, setCursor]
@[simp] theorem unpackLsf_latch (P : Params) (i : Nat) (e : Engine) : (unpackLsf P i e).latch = e.latch := by
  simp only [unpackLsf, getBits, setCursor]

@[simp] theorem unpackHeader_dec (P : Params) (e : Engine) : (unpackHeader P e).dec = e.dec := by
  simp only [unpackHeader]
  exact (forRange_frame (by omega) _ Engine.dec (unpackLsf_dec P) _).trans
    ((forRange_frame (by omega) _ Engine.dec (unpackLag_dec P) _).trans (by simp))
@[simp] theorem unpackHeader_latch (P : Params) (e : Engine) : (unpackHeader P e).latch = e.latch := by
  simp only [unpackHeader]
  exact (forRange_frame (by omega) _ Engine.latch (unpackLsf_latch P) _).trans
    ((forRange_frame (by omega) _ Engine.latch (unpackLag_latch P) _).trans (by simp))

/-! ### The lag buffer -/

/-- A read in range is the element and changes nothing (44_pitch_excitation.md R208). -/
theorem lagRead_of_inRange {j : Int} (h : lagInRange j = true) (e : Engine) :
    lagRead j e = (rd e.dec.lag j.toNat, e) := by simp [lagRead, h]

/-- A read out of range is +0.0 and raises the event (44_pitch_excitation.md R208). -/
theorem lagRead_of_not_inRange {j : Int} (h : lagInRange j = false) (e : Engine) :
    lagRead j e = (NumVal.zero, raiseLagOutOfRange e) := by simp [lagRead, h]

@[simp] theorem lagRead_dec (j : Int) (e : Engine) : (lagRead j e).2.dec = e.dec := by
  simp only [lagRead]; split <;> simp
@[simp] theorem lagRead_latch (j : Int) (e : Engine) : (lagRead j e).2.latch = e.latch := by
  simp only [lagRead]; split <;> simp
@[simp] theorem lagRead_wk (j : Int) (e : Engine) :
    (lagRead j e).2.wk = { e.wk with oor := e.wk.oor || !lagInRange j } := by
  simp only [lagRead]; split <;> simp_all
@[simp] theorem lagRead_value (j : Int) (e : Engine) :
    (lagRead j e).1 = if lagInRange j then rd e.dec.lag j.toNat else NumVal.zero := by
  simp only [lagRead]; split <;> simp

@[simp] theorem pitchTap_dec (P : Params) (R : Int) (c : Vector NumVal 3) (i : Nat) (e : Engine) :
    (pitchTap P R c i e).dec = e.dec := by simp only [pitchTap, lagRead_dec]
@[simp] theorem pitchTap_latch (P : Params) (R : Int) (c : Vector NumVal 3) (i : Nat) (e : Engine) :
    (pitchTap P R c i e).latch = e.latch := by simp only [pitchTap, lagRead_latch]

@[simp] theorem pitch_dec (P : Params) (s v : Nat) (e : Engine) : (pitch P s v e).dec = e.dec := by
  simp only [pitch]
  exact forRange_frame (by omega) _ Engine.dec (pitchTap_dec P _ _) _
@[simp] theorem pitch_latch (P : Params) (s v : Nat) (e : Engine) : (pitch P s v e).latch = e.latch := by
  simp only [pitch]
  exact forRange_frame (by omega) _ Engine.latch (pitchTap_latch P _ _) _

/-! ### Commands and the port -/

/-- A RESET issued while idle is accepted; while BUSY it is rejected (46_commands.md R230, R231). -/
theorem issueReset_cases (s : State) :
    (s.status.busy = true ∧ issueReset s = rejectCommand s) ∨ (s.status.busy = false ∧ issueReset s = accept .reset s) := by
  cases h : s.status.busy <;> simp [issueReset, h]

/-- A DECODE issued while idle is accepted and latches the frame; while BUSY it is rejected (46_commands.md R230 to R232). -/
theorem issueDecode_cases (s : State) :
    (s.status.busy = true ∧ issueDecode s = rejectCommand s) ∨
    (s.status.busy = false ∧ issueDecode s = latchFrame (accept .decode s)) := by
  cases h : s.status.busy <;> simp [issueDecode, h]

/-- What a host read can do (20_memory.md R80, R86): under `rst` it returns 0; it returns the register's word; it returns
a word with unspecified bits; or it is refused. -/
theorem hostRead_cases (P : Params) (off : Offset) (be : BitVec 4) (s : State) :
    (s.rst = true ∧ hostRead P off be s = setRdata 0 s) ∨
    (s.rst = false ∧ ∃ w, regValue P s (accessed off be) = .word w ∧ hostRead P off be s = setRdata w s) ∨
    (s.rst = false ∧ ∃ mask w u, regValue P s (accessed off be) = .free mask w ∧
      hostRead P off be s = setRdata u (drawFree s).2 ∧ u &&& ~~~mask = w &&& ~~~mask) ∨
    (s.rst = false ∧ regValue P s (accessed off be) = .refused ∧ hostRead P off be s = setRdata 0 (refuseAccess s)) := by
  cases hr : s.rst
  · cases hv : regValue P s (accessed off be) with
    | word w => exact .inr (.inl ⟨rfl, w, rfl, by simp [hostRead, hr, hv]⟩)
    | free mask w =>
      refine .inr (.inr (.inl ⟨rfl, mask, w, _, rfl, by simp only [hostRead, hr, hv, Bool.false_eq_true, ↓reduceIte]; rfl, ?_⟩))
      ext i hi
      simp only [BitVec.getElem_and, BitVec.getElem_or, BitVec.getElem_not]
      cases w[i] <;> cases mask[i] <;> simp
    | refused => exact .inr (.inr (.inr ⟨rfl, rfl, by simp [hostRead, hr, hv]⟩))
  · exact .inl ⟨rfl, by simp [hostRead, hr]⟩

/-- A host read changes STATUS.ACCERR, the read data and the count of unspecified words at most (20_memory.md R96). -/
theorem hostRead_frame (P : Params) (off : Offset) (be : BitVec 4) (s : State) :
    (hostRead P off be s).eng = s.eng ∧ (hostRead P off be s).frameIn = s.frameIn ∧ (hostRead P off be s).out = s.out ∧
    (hostRead P off be s).pending = s.pending ∧ (hostRead P off be s).rst = s.rst ∧
    (hostRead P off be s).script = s.script ∧ (hostRead P off be s).actor = s.actor := by
  rcases hostRead_cases P off be s with ⟨_, h⟩ | ⟨_, w, _, h⟩ | ⟨_, m, w, u, _, h, _⟩ | ⟨_, _, h⟩ <;> rw [h] <;> simp

/-- What a host write can come to (20_memory.md R80, R86). -/
theorem hostWrite_cases (off : Offset) (be : BitVec 4) (d : Word32) (s : State) :
    (s.rst = true ∧ hostWrite off be d s = .done s) ∨
    (s.rst = false ∧ accessed off be = .cmd ∧ hostWrite off be d s = .command d) ∨
    (s.rst = false ∧ accessed off be = .status ∧
      hostWrite off be d s = .done { s with status := statusWriteOne s.status d }) ∨
    (s.rst = false ∧ ∃ j, accessed off be = .frameIn j ∧
      hostWrite off be d s = .done { s with frameIn := wr s.frameIn j d }) ∨
    (s.rst = false ∧ hostWrite off be d s = .done (refuseAccess s)) := by
  cases hr : s.rst
  · cases ha : accessed off be <;> simp [hostWrite, hr, ha]
  · simp [hostWrite, hr]

end Sys2Proof.Machine
end

