-- ==== Sys2Proof/Laws/PerInstr.lean ====
section
/-! SUPPORT. The families of statements made for every command. -/

namespace Sys2Proof.Laws

/-- A command is well formed and its word decodes to it (30_encoding.md R125). -/
def EncodingRoundTrip.Statement (i : Instr) : Prop := i.wf = true ∧ decodeCommand (encode i) = .ok i

theorem EncodingRoundTrip.nop : EncodingRoundTrip.Statement .nop := ⟨rfl, by decide⟩

theorem EncodingRoundTrip.reset : EncodingRoundTrip.Statement .reset := ⟨rfl, by decide⟩

theorem EncodingRoundTrip.decode : EncodingRoundTrip.Statement .decode := ⟨rfl, by decide⟩

end Sys2Proof.Laws
end

