-- ==== Sys2Proof/Laws/Step.lean ====
section
/-! SUPPORT. What a command and a step can do: the inversion lemmas that invariants are derived from. -/

namespace Sys2Proof.Machine

open Sys2Proof

/-- Everything `exec` can do. -/
theorem exec_next_cases {i : Instr} {s t : State} (h : exec i s = .next t) :
    (i = .nop ∧ t = s) ∨
    (i = .reset ∧ s.actor = .host ∧ t = issueReset s) ∨
    (i = .reset ∧ s.actor = .engine ∧ t = completeReset s) ∨
    (i = .decode ∧ s.actor = .host ∧ t = issueDecode s) ∨
    (i = .decode ∧ s.actor = .engine ∧ t = completeDecode Config.params s) := by
  cases i <;> cases ha : s.actor <;>
    simp only [exec, execNop, execReset, execDecode, ha, Host.Outcome.next.injEq] at h <;> simp_all

/-- Everything the engine's turn can do: nothing, or the completion of the pending command (46_commands.md R236). -/
theorem engineTurn_next_cases {s t : State} (h : engineTurn s = .next t) :
    ((s.rst = true ∨ s.pending = .none) ∧ t = setActor .engine s) ∨
    (s.rst = false ∧ s.pending = .reset ∧ t = completeReset (setActor .engine s)) ∨
    (s.rst = false ∧ s.pending = .decode ∧ t = completeDecode Config.params (setActor .engine s)) := by
  cases hr : s.rst <;> cases hp : s.pending <;>
    simp only [engineTurn, engineCommand, hr, hp, ↓reduceIte, Bool.false_eq_true] at h
  · exact .inl ⟨.inr rfl, by simpa using h.symm⟩
  · rcases exec_next_cases h with ⟨h1, _⟩ | ⟨_, h2, _⟩ | ⟨_, _, h3⟩ | ⟨h1, _⟩ | ⟨h1, _⟩ <;> simp_all
  · rcases exec_next_cases h with ⟨h1, _⟩ | ⟨h1, _⟩ | ⟨h1, _⟩ | ⟨_, h2, _⟩ | ⟨_, _, h3⟩ <;> simp_all
  all_goals exact .inl ⟨.inl rfl, by simpa using h.symm⟩

/-- Everything a step can do. -/
theorem step_next_cases {s t : State} (h : step s = .next t) :
    (s.script = [] ∧ engineTurn s = .next t) ∨
    (∃ rest, s.script = .engine :: rest ∧ engineTurn { s with script := rest } = .next t) ∨
    (∃ level rest, s.script = .rst level :: rest ∧ t = setRst level { s with script := rest }) ∨
    (∃ off be rest, s.script = .read off be :: rest ∧
      t = hostRead Config.params off be (setActor .host { s with script := rest })) ∨
    (∃ off be d rest, s.script = .write off be d :: rest ∧
      hostWrite off be d (setActor .host { s with script := rest }) = .done t) ∨
    (∃ off be d rest, s.script = .write off be d :: rest ∧ s.rst = false ∧ accessed off be = .cmd ∧
      (∃ r, decodeCommand d = .error r) ∧ t = rejectCommand (setActor .host { s with script := rest })) ∨
    (∃ off be d rest i, s.script = .write off be d :: rest ∧ s.rst = false ∧ accessed off be = .cmd ∧
      decodeCommand d = .ok i ∧ exec i (setActor .host { s with script := rest }) = .next t) := by
  cases hs : s.script with
  | nil => exact .inl ⟨rfl, by simpa only [step, hs] using h⟩
  | cons ev rest =>
    simp only [step, hs] at h
    cases ev with
    | engine => exact .inr (.inl ⟨rest, rfl, h⟩)
    | rst level => exact .inr (.inr (.inl ⟨level, rest, rfl, by simpa [stepEvent] using h.symm⟩))
    | read off be => exact .inr (.inr (.inr (.inl ⟨off, be, rest, rfl, by simpa [stepEvent] using h.symm⟩)))
    | write off be d =>
      simp only [stepEvent] at h
      rcases hostWrite_cases off be d (setActor .host { s with script := rest }) with
        ⟨_, hw⟩ | ⟨hr, ha, hw⟩ | ⟨_, _, hw⟩ | ⟨_, j, _, hw⟩ | ⟨_, hw⟩
      · refine .inr (.inr (.inr (.inr (.inl ⟨off, be, d, rest, rfl, ?_⟩))))
        simp only [hw, Host.Outcome.next.injEq] at h
        rw [hw, h]
      · simp only [hw, commandWrite] at h
        cases hd : decodeCommand d with
        | ok i =>
          refine .inr (.inr (.inr (.inr (.inr (.inr ⟨off, be, d, rest, i, rfl, hr, ha, hd, ?_⟩)))))
          simpa only [hd] using h
        | error r =>
          refine .inr (.inr (.inr (.inr (.inr (.inl ⟨off, be, d, rest, rfl, hr, ha, ⟨r, hd⟩, ?_⟩)))))
          simp only [hd, Host.Outcome.next.injEq] at h
          exact h.symm
      all_goals
        refine .inr (.inr (.inr (.inr (.inl ⟨off, be, d, rest, rfl, ?_⟩))))
        simp only [hw, Host.Outcome.next.injEq] at h
        rw [hw, h]

end Sys2Proof.Machine
end

