-- ==== Sys2Proof/Tests/Slice0.lean ====
section
/-! SUPPORT. Tests on small states, and for every obligation with hypotheses a concrete case that meets them. Expected values
come from the spec: a comment names the rule's example or the table of 95_test_vectors.md. -/

namespace Sys2Proof.Tests

-- one theorem at a time: many kernel evaluations in parallel ask for more stack space than the check allows
set_option Elab.async false

open Sys2Proof Sys2Proof.Machine

/-! ### Well-formedness: each check refuses an ill-formed term -/

/-- The frame of 384 zero bits. -/
def zeroFrame : Frame :=
  ⟨Vector.replicate 4 0, Vector.replicate 4 0, Vector.replicate 10 0, Vector.replicate 48 0, Vector.replicate 48 0⟩

/-- Every field at its largest value (30_encoding.md R121). -/
def fullFrame : Frame :=
  ⟨Vector.replicate 4 63, Vector.replicate 4 127, #v[63, 63, 31, 31, 15, 15, 15, 15, 7, 7], Vector.replicate 48 1,
    Vector.replicate 48 31⟩

theorem test_wf_zero_frame : zeroFrame.wf = true := by decide +kernel
theorem test_wf_full_frame : fullFrame.wf = true := by decide +kernel
theorem test_wf_lagIdx_64 : ({ zeroFrame with lagIdx := #v[0, 0, 0, 64] } : Frame).wf = false := by decide +kernel
theorem test_wf_lagV_128 : ({ zeroFrame with lagV := #v[128, 0, 0, 0] } : Frame).wf = false := by decide +kernel
theorem test_wf_lsfIdx_8_in_row_9 :
    ({ zeroFrame with lsfIdx := #v[0, 0, 0, 0, 0, 0, 0, 0, 0, 8] } : Frame).wf = false := by decide +kernel
theorem test_wf_cbSign_2 : ({ zeroFrame with cbSign := wr zeroFrame.cbSign 47 2 } : Frame).wf = false := by decide +kernel
theorem test_wf_cbIdx_32 : ({ zeroFrame with cbIdx := wr zeroFrame.cbIdx 0 32 } : Frame).wf = false := by decide +kernel
theorem test_wf_word_reserved_op : commandWordWf 0x00000003 = false := by decide +kernel
theorem test_wf_word_reserved_bits : commandWordWf 0x00000010 = false := by decide +kernel
theorem test_wf_commands : Instr.nop.wf && Instr.reset.wf && Instr.decode.wf = true := by decide +kernel

/-! ### Decoding: words written out bit by bit from 30_encoding.md R125, bits [31:4] then OP -/

theorem test_decode_nop : decodeCommand 0b0000000000000000000000000000_0000#32 = .ok .nop := rfl
theorem test_decode_reset : decodeCommand 0b0000000000000000000000000000_0001#32 = .ok .reset := rfl
theorem test_decode_decode : decodeCommand 0b0000000000000000000000000000_0010#32 = .ok .decode := rfl
theorem test_decode_op_3 : decodeCommand 0b0000000000000000000000000000_0011#32 = .error (.reservedOp 3) := rfl
theorem test_decode_bit_4 : decodeCommand 0b0000000000000000000000000001_0000#32 = .error (.reservedBits 1) := rfl
theorem test_decode_bit_31 :
    decodeCommand 0b1000000000000000000000000000_0010#32 = .error (.reservedBits 0x8000000) := rfl
/-- The bytes of DECODE, the first at the lowest address (20_memory.md R93). -/
theorem test_decode_bytes : decodeBytes [0x02, 0x00, 0x00, 0x00, 0xAA] = .ok (.decode, [0xAA]) := rfl
theorem test_decode_bytes_truncated : decodeBytes [0x02, 0x00, 0x00] = .error .truncated := rfl

/-! ### The frame's encoding: program P3 of 95_test_vectors.md part 5 -/

/-- P3's twelve words. -/
def wordsP3 : Vector Word32 12 :=
  #v[0x04104A01, 0x081FE078, 0x00000001, 0x43044080, 0x30440801, 0x04408014, 0x44080143, 0x40801430, 0x08014304,
    0x80143044, 0x01430440, 0x14304408]

/-- P3's field values: the read-back table of 95_test_vectors.md 4.1. -/
def frameP3 : Frame :=
  ⟨#v[1, 2, 1, 0], #v[40, 2, 120, 127], #v[1, 2, 1, 0, 0, 0, 0, 0, 0, 0],
    Vector.ofFn fun n => n.val / 3 % 2, Vector.ofFn fun n => n.val % 3⟩

theorem test_pack_P3 : frameWords (packFrame frameP3) = wordsP3 := by decide +kernel
theorem test_wf_P3 : frameP3.wf = true := by decide +kernel

/-! ### Constants and encodings: 95_test_vectors.md part 2 -/

/-- TROM, the test tables of 95_test_vectors.md part 3, with a POW10 that these tests never reach. -/
def testParams (f : NumFmt) : Params where
  numfmt := f
  pow10 _ := NumVal.zero
  lagCoef r c := if r = 1 ∧ c = 0 then .fin false 1 (-1) else if r = 2 then .fin false 1 (-2) else NumVal.zero
  lsfInt _ k := if k = 1 then 16384 else if k = 2 then -8192 else 0
  cbvecInt r i := if r = 1 ∧ i = 0 then 4096 else if r = 2 then ([2048, -2048, 1024, -1024] : List Int)[i]?.getD 0 else 0
  dgainInt k := if k = 1 then 28672 else if k = 2 then -16384 else 0
  ratioInt k := 32190 - 2425 * k
  nanBits _ _ _ := (false, 0)

/-- The binary64 test engine. -/
abbrev P64 : Params := testParams .binary64

theorem test_kGef_64 : slotOf .binary64 (kGef P64) = 0x3FEC467381D7DBF5 := by decide +kernel
theorem test_kGef_32 : slotOf .binary32 (kGef (testParams .binary32)) = 0x3F62339C := by decide +kernel
theorem test_fallback_64 : slotOf .binary64 (fallbackPower P64) = 0xBFB999999999999A := by decide +kernel
theorem test_glMin_32 : slotOf .binary32 glMin = 0xC2000000 := by decide +kernel
theorem test_romRatio_14 : slotOf .binary64 (romRatio P64 14) = 0xBFABA00000000000 := by decide +kernel
/-- 90_conflicts.md C9: 0.94 *f 0.94 is one unit in the last place below num(0.8836). -/
theorem test_mul_rounds : slotOf .binary64 (fmul P64 (num .binary64 94 100) (num .binary64 94 100)) = 0x3FEC467381D7DBF4 := by
  decide +kernel

/-! ### Operations of a DECODE: rule examples and tables of 95_test_vectors.md part 4 -/

/-- A test engine: the reset state with the given decoder, latch and working registers. -/
def engineWith (wk : Work) (dec : Decoder := Decoder.reset) (latch : Vector Byte 48 := Engine.reset.latch) : Engine :=
  ⟨dec, latch, wk⟩

/-- n/16 -/
def q (n : Int) : NumVal := num .binary64 n 16

/-- 4.1, row 1: bytes 0xB5, 0x03 from bit 6, seven bits. -/
theorem test_getBits_example :
    let r := getBits 7 (engineWith { Work.reset with cursor := 6 } (latch := wr (wr Engine.reset.latch 0 0xB5) 1 0x03))
    r.1 = 14 ∧ r.2.wk.cursor = 13 := by decide +kernel
/-- 4.1, last rows: bits past the end read 0. -/
theorem test_getBits_past_end :
    (getBits 8 (engineWith { Work.reset with cursor := 380 } (latch := Vector.replicate 48 0xFF))).1 = 15 := by decide +kernel
/-- 4.2, row 5. -/
theorem test_lsfToLpc :
    lsfToLpc P64 #v[q (-4), q 8, q 0, q 8, q 0, q 0, q 0, q 0, q 0, q 0] =
      #v[q 16, q (-6), q 12, q (-3), q 8, q 0, q 0, q 0, q 0, q 0, q 0] := by decide +kernel
/-- The example of R165, s = 0: 0.75·0.5 − 0.25·0.25 = 0.3125. -/
theorem test_lsfInterp :
    rd (lsfInterp P64 0 (Vector.replicate 10 (q 8)) (Vector.replicate 10 (q (-4)))) 9 = q 5 := by decide +kernel
/-- The example of R175. -/
theorem test_energyUpdate :
    energyUpdate P64 (numOfInt (-32)) (numOfInt (-32)) (Vector.replicate 3 NumVal.zero) =
      Vector.replicate 3 (numOfInt 1024) := by decide +kernel
/-- 4.3, row 2 of the energy table: 883.6, 1767.2, 2650.8 in binary64. -/
theorem test_energyUpdate_leak :
    energyUpdate P64 NumVal.zero NumVal.zero (Vector.replicate 3 (numOfInt 1000)) =
      #v[num .binary64 8836 10, num .binary64 17672 10, num .binary64 26508 10] := by decide +kernel
/-- 4.3: the example of R180 selects row 1, 0.90. -/
theorem test_ladder_row_1 :
    ladderPower P64 (num .binary64 28836 100) (numOfInt 282) = num .binary64 90 100 := by decide +kernel
/-- 4.3: equality does not satisfy the strict test. -/
theorem test_ladder_equality : ladderPower P64 (numOfInt 98304) (numOfInt 96570) = romPower P64 1 := by decide +kernel
/-- 4.3: nothing matches. -/
theorem test_ladder_fallback : ladderPower P64 (numOfInt 100) (numOfInt (-10)) = fallbackPower P64 := by decide +kernel
/-- The example of R181: 0.5 · 70 is clamped to 28. -/
theorem test_cbLevel :
    (cbLevel P64 (engineWith Work.reset { Decoder.reset with cgp := q 8, curGl := numOfInt 70 })).wk.cbGl = numOfInt 28 := by
  decide +kernel
/-- The corner case of R181: −0.0 comes back unchanged. -/
theorem test_cbLevel_reset : (cbLevel P64 (engineWith Work.reset)).wk.cbGl = .fin true 0 0 := by decide +kernel
/-- The example of R182. -/
theorem test_cbGain : (cbGain P64 (engineWith { Work.reset with cbGl := numOfInt 8 })).wk.cbGain = numOfInt 100 := by
  decide +kernel
/-- 4.3, row 4 of the level table: PREV_GL 2, CUR_GL −34, and the sign applied. -/
theorem test_level_and_sign :
    let e := signApply (gainLevelUpdate P64 (engineWith
      { Work.reset with cbGl := numOfInt (-32), cbIdx := 2, cbSign := true, cbGain := numOfInt 1 }
      { Decoder.reset with curGl := numOfInt 2 }))
    e.dec.prevGl = numOfInt 2 ∧ e.dec.curGl = numOfInt (-34) ∧ e.wk.cbGain = numOfInt (-1) := by decide +kernel
/-- A lag buffer with LAG[i] = i. -/
def rampLag : Vector NumVal 169 := Vector.ofFn fun i => numOfInt i.val
/-- The example of R205. -/
theorem test_lagShift :
    [0, 120, 121].map (rd (lagShifted rampLag)) = [48, 168, 121].map numOfInt := by decide +kernel
/-- The example of R206: v = 0, lag 40, taps 83, 84, 85 for output 3; with the row (1/2, 0, 0) the result is 85/2. -/
theorem test_pitch_taps :
    let e := engineWith { Work.reset with
      lagv := Vector.replicate 4 40, lagc := Vector.replicate 4 #v[q 8, q 0, q 0] } { Decoder.reset with lag := rampLag }
    rd (pitch P64 0 0 e).wk.pitch 3 = num .binary64 85 2 ∧ (pitch P64 0 0 e).wk.oor = false := by decide +kernel
/-- 4.4: raw lag 0 leaves the buffer at v = 11 and not at v = 10. -/
theorem test_pitch_lag_zero :
    (pitch P64 0 11 Engine.reset).wk.oor = true ∧ (pitch P64 0 10 Engine.reset).wk.oor = false := by decide +kernel
/-- The example of R209, with TROM's row 2 in place of (0.5, −0.5, 0.25, 0). -/
theorem test_combine :
    (combine P64 (engineWith
      { Work.reset with cbGain := numOfInt (-100), cbIdx := 2, pitch := Vector.replicate 4 (numOfInt 1) })).wk.comb =
      #v[numOfInt (-49), numOfInt 51, numOfInt (-24), numOfInt 26] := by decide +kernel
/-- The engine of the example of R220. -/
def synExample : Engine :=
  engineWith { Work.reset with lpc := wr Work.reset.lpc 1 (q 8), comb := Vector.replicate 4 (numOfInt 1) }
    { Decoder.reset with syn := wr Decoder.reset.syn 9 (numOfInt 2) }
theorem test_lpcSynth : (lpcSynth P64 synExample).wk.o = #v[q 0, q 16, q 8, q 12] := by decide +kernel
/-- The example of R223: EMIT writes (2, 0, 1, 0.5). -/
theorem test_emit :
    (List.range 4).map (rd (emit 0 0 (lpcSynth P64 synExample)).wk.outbuf) = [q 32, q 0, q 16, q 8] := by decide +kernel

/-! ### Commands and the port: 95_test_vectors.md 4.7 -/

/-- After power-on, with these events to come. -/
def idle (script : List PortEvent) : State := { State.reset with script := script }
/-- A command is executing. -/
def busy (p : Pending) (script : List PortEvent) : State :=
  { State.reset with pending := p, status := { Status.reset with busy := true }, script := script }
/-- The engine's step of a command that is executing. -/
def completing (p : Pending) : State := { busy p [] with actor := .engine }

/-- The next state of a step, for a test to look at (itself when there is none). -/
def after (s : State) : State :=
  match step s with
  | .next t => t
  | .fault _ => s
  | .refused _ => s

/-- STATUS after one step. -/
def statusAfter (s : State) : Word32 := statusWord (after s).status false

theorem test_cmd_words_idle :
    [0x0, 0x1, 0x2, 0x3, 0xF, 0x10, 0x12, 0x80000002].map (fun d => statusAfter (idle [asmWrite 0x0008 d])) =
      [0x0, 0x1, 0x1, 0x8, 0x8, 0x8, 0x8, 0x8] := by decide +kernel
theorem test_cmd_words_busy :
    [0x0, 0x1, 0x2, 0x3, 0xF, 0x10, 0x12, 0x80000002].map (fun d => statusAfter (busy .reset [asmWrite 0x0008 d])) =
      [0x1, 0x9, 0x9, 0x9, 0x9, 0x9, 0x9, 0x9] := by decide +kernel
theorem test_reset_completes : statusAfter (busy .reset []) = 0x2 := by decide +kernel
theorem test_reset_clears_level :
    (completeReset { completing .reset with eng := engineWith Work.reset { Decoder.reset with curGl := numOfInt 5 } }).eng.dec.curGl
      = numOfInt (-32) := by decide +kernel
/-- P3's frame sets LAGOOR: subframe 3 has raw lag 127. LAGV is read from the header. -/
theorem test_decode_latches_P3 :
    (unpackHeader P64 (after { idle [asmWrite 0x0008 2] with frameIn := wordsP3 }).eng).wk.lagv = #v[40, 2, 120, 127] := by
  decide +kernel

/-- Read data and STATUS after one read of a fresh binary64 engine. -/
def readOf (off : Offset) (be : BitVec 4) : Word32 × Word32 :=
  let t := hostRead P64 off be State.reset
  (t.rdata, statusWord t.status false)

theorem test_reads_fresh :
    [0x0000, 0x0004, 0x0008, 0x0010, 0x0002, 0x012C, 0x0130, 0x15EC, 0x15F4, 0x17FC, 0x1800, 0x25FC, 0x2600, 0x3FFC].map
      (readOf · 0b1111) =
    [(0x554F4431, 0), (1, 0), (0, 0), (0, 0x10), (0, 0x10), (0, 0), (0, 0x10), (0xC0400000, 0), (0xC0400000, 0), (0, 0),
      (0, 0x10), (0, 0), (0, 0x10), (0, 0x10)] := by decide +kernel
theorem test_read_partial : readOf 0x0000 0b0011 = (0, 0x10) := by decide +kernel
theorem test_write_read_only : statusAfter (idle [asmWrite 0x0000 0x12345678]) = 0x10 := by decide +kernel

/-! ### The host's own questions -/

theorem test_fetch_word :
    [0, 1, 2].map (fun w => (after (State.reset.withFetchWord 32 w)).pending) = [.none, .reset, .decode] := by decide +kernel

/-! ### Witnesses: a concrete case that meets the hypotheses of each obligation that has some -/

/-- IdleEngineAcceptsCommand, AcceptanceLatchesFrameBytes. -/
theorem witness_idle_host : (idle []).actor = .host ∧ (idle []).status.busy = false := ⟨rfl, rfl⟩

/-- RejectedCommandSetsOnlyCmderr, a case for each clause. -/
theorem witness_rejected :
    (idle [asmWrite 0x0008 0x10]).script = [.write 0x0008 0b1111 0x10] ∧ (0x10#32).extractLsb' 4 28 ≠ 0 ∧
    (idle [asmWrite 0x0008 0x3]).script = [.write 0x0008 0b1111 0x3] ∧ 3 ≤ ((0x3#32).extractLsb' 0 4).toNat ∧
    3 ≤ ((0xF#32).extractLsb' 0 4).toNat ∧
    (busy .reset [asmWrite 0x0008 1]).script = [.write 0x0008 0b1111 1] ∧ (busy .reset [asmWrite 0x0008 1]).status.busy = true ∧
    (busy .reset [asmWrite 0x0008 2]).script = [.write 0x0008 0b1111 2] ∧ (busy .reset []).rst = false ∧ (idle []).rst = false := by
  decide +kernel

/-- ResetCompletionRestoresDecoder, ResetIsIdempotent (its last clause too), DecodeCompletionPublishesFrame. -/
theorem witness_engine_step :
    (completing .reset).actor = .engine ∧ (completing .decode).actor = .engine ∧
    (completing .reset).eng.dec = State.reset.eng.dec := ⟨rfl, rfl, rfl⟩

/-- IssuedDecodeDecodesFrameIn. -/
theorem witness_issued_decode :
    let s := idle [asmWrite 0x0008 2, .engine]
    s.rst = false ∧ s.status.busy = false ∧ s.script = [.write 0x0008 0b1111 0x00000002, .engine] := ⟨rfl, rfl, rfl⟩

/-- AcceptedCommandCompletes: with events to come, and with none. -/
theorem witness_executing :
    (∀ p ∈ [Pending.reset, .decode], ∀ l ∈ [[], [asmRead 0x000C, .rst false]],
      pendingAgrees (busy p l) = true ∧ (busy p l).rst = false ∧ (busy p l).status.busy = true ∧
        PortEvent.rst true ∉ (busy p l).script) := by decide +kernel

/-- StepRunsDecodedCommand: each command. -/
theorem witness_decoded_write :
    (∀ i ∈ [Instr.nop, .reset, .decode], (idle [asmWrite 0x0008 (encode i)]).script = [.write 0x0008 0b1111 (encode i)] ∧
      decodeCommand (encode i) = .ok i) ∧ (idle []).rst = false := by
  simp [idle, asmWrite, State.reset, encode, decodeCommand]

/-- EngineTurnRunsPendingCommand: each pending command, by an event and by an empty script. -/
theorem witness_engine_turn :
    (∀ p ∈ [Pending.none, .reset, .decode], (busy p [.engine]).rst = false ∧ (busy p [.engine]).script = [.engine] ∧
      (busy p []).script = [] ∧ (busy p []).pending = p) := by decide +kernel

/-- DecodeInvertsEncode. -/
theorem witness_command_wf : Instr.decode.wf = true := rfl

/-- FramePackingIsBijective: the least and the greatest frame. -/
theorem witness_frame_wf : zeroFrame.wf = true ∧ fullFrame.wf = true := ⟨test_wf_zero_frame, test_wf_full_frame⟩

/-- GetBitsReadsNextField: both ends of the widths and of CURSOR. -/
theorem witness_getBits :
    0 ≤ 32 ∧ Engine.reset.wk.cursor.toNat ≤ 384 ∧ 32 ≤ 32 ∧
    (engineWith { Work.reset with cursor := 384 }).wk.cursor.toNat ≤ 384 := by decide +kernel

/-- The engine whose frame is f, with the cursor at c. -/
def latched (f : Frame) (c : BitVec 9) : Engine :=
  engineWith { Work.reset with cursor := c } (latch := latchOf (frameWords (packFrame f)))

/-- FrameFieldsReachDatapath, OutOfRangeExactlyForLagZeroOrAbove120, DecodePersistsQuantizedLsf: well-formed frames, latched,
the first and the last codebook pair. -/
theorem witness_latched :
    fullFrame.wf = true ∧ (latched fullFrame 96).latch = latchOf (frameWords (packFrame fullFrame)) ∧
    (latched fullFrame 96).wk.cursor.toNat = 96 + 6 * 0 ∧ (latched fullFrame 378).wk.cursor.toNat = 96 + 6 * 47 ∧
    zeroFrame.wf = true ∧ (latched zeroFrame 0).latch = latchOf (frameWords (packFrame zeroFrame)) ∧
    rd zeroFrame.lagV 0 = 0 ∧ 121 ≤ rd fullFrame.lagV 3 :=
  ⟨test_wf_full_frame, rfl, by decide, by decide, test_wf_zero_frame, rfl, by decide, by decide⟩

/-- DecodeReadsWholeFrame: the last codebook step's cursor. -/
theorem witness_cursor_378 : (latched fullFrame 378).wk.cursor.toNat ≤ 378 := by decide +kernel

/-- LpcIterationClosedForm: the last iteration, with an index for each clause. -/
theorem witness_lpc_iteration : 1 ≤ 10 ∧ 10 ≤ 10 ∧ (1 ≤ 9 ∧ 9 < 10) ∧ (0 < 11 ∧ (0 = 0 ∨ 10 < 0)) ∧ (10 < 11 ∧ 9 < 10) := by
  decide

/-- LastSubframeUsesCurrentLsf: at +0.0 and at another value. -/
theorem witness_last_subframe :
    ∀ x ∈ [NumVal.zero, q (-4)], isFinite (rd (Vector.replicate 10 (q 8)) 9) = true ∧
      isFinite (rd (Vector.replicate 10 x) 9) = true ∧ (∀ f, numWf f (rd (Vector.replicate 10 x) 9) = true) ∧
      rd (Vector.replicate 10 x) 9 ≠ .fin true 0 0 := by
  intro x hx
  simp only [List.mem_cons, List.not_mem_nil, or_false] at hx
  obtain rfl | rfl := hx <;> exact ⟨by decide +kernel, by decide +kernel, by rintro (_ | _) <;> decide +kernel, by decide +kernel⟩

/-- LpcSelectChoosesVector: both values of PREV_VALID. -/
theorem witness_prevValid :
    Engine.reset.dec.prevValid = false ∧ (engineWith Work.reset { Decoder.reset with prevValid := true }).dec.prevValid = true :=
  ⟨rfl, rfl⟩

/-- EnergyFromZeroIsProduct: the example of R175. -/
theorem witness_energy_zero :
    (∀ i < 3, rd (Vector.replicate 3 NumVal.zero) i = NumVal.zero) ∧
    isNaN (fmul P64 (numOfInt (-32)) (numOfInt (-32))) = false ∧
    fmul P64 (numOfInt (-32)) (numOfInt (-32)) ≠ .fin true 0 0 := by decide +kernel

/-- LadderTakesFirstRow: a NaN on either side. -/
theorem witness_ladder_nan : isNaN (.nan false 0) = true := rfl

/-- GainPowerPersistsOutsideSubframeStart and the opposite case, the clause of CodebookStepGainChain. -/
theorem witness_no_gain_power : ¬(0 ≠ 0 ∧ 0 = 0) ∧ ¬(3 ≠ 0 ∧ 11 = 0) ∧ (1 ≠ 0 ∧ 0 = 0) := by decide

/-- CodebookLevelIsClamped: below, above, within, at a bound, and a NaN. -/
theorem witness_level_clauses :
    flt (fmul P64 (romPower P64 0) (numOfInt (-40))) (numOfInt (-32)) = true ∧
    (flt (fmul P64 (q 8) (numOfInt 70)) (numOfInt (-32)) = false ∧ flt (numOfInt 28) (fmul P64 (q 8) (numOfInt 70)) = true) ∧
    (flt (fmul P64 (q 8) (numOfInt 56)) (numOfInt (-32)) = false ∧ flt (numOfInt 28) (fmul P64 (q 8) (numOfInt 56)) = false) ∧
    isNaN (fmul P64 (q 8) (.nan false 0)) = true ∧ isNaN (fmul P64 (q 8) (numOfInt 56)) = false := by decide +kernel

/-- ExcitationIsCombinedAndStored, EmissionLagsOneSample: the first and the last step, an index below, at and above what v = 11 and v = 0 write. -/
theorem witness_lagWrite :
    0 < 12 ∧ 11 < 12 ∧ (164 < 169 ∧ 164 < 121 + 4 * 11) ∧ (125 < 169 ∧ 125 + 4 * 0 ≤ 125) := by decide

/-- EmissionLagsOneSample: the first and the last step, samples on either side. -/
theorem witness_emission :
    (0 < 4 ∧ 0 < 12) ∧ (3 < 4 ∧ 11 < 12) ∧ (187 < 192 ∧ 187 < 4 * (12 * 3 + 11)) ∧ (4 < 192 ∧ 4 * (12 * 0 + 0) + 4 ≤ 4) := by
  decide

/-- DecodeDependsOnlyOnFrameAndState: two engines that differ in the working registers alone. -/
theorem witness_stale_working_registers :
    let e := engineWith { Work.reset with cbGain := numOfInt 7, oor := true, cursor := 384 }
    e.dec = Engine.reset.dec ∧ e.latch = Engine.reset.latch ∧ e.wk.cursor ≠ Engine.reset.wk.cursor :=
  ⟨rfl, rfl, by decide⟩

/-- ArithmeticRoundsOnce: two finite values, the second not zero. -/
theorem witness_finite_operands : isFinite (q 1) = true ∧ isFinite (numOfInt 3) = true ∧ numRat (.fin false 3 0) ≠ 0 :=
  ⟨by decide +kernel, by decide +kernel, by simp [numRat]⟩

/-- ArithmeticRoundsOnce: operands whose exact sum, difference, product and quotient are zero. -/
theorem witness_exact_zero :
    numRat (.fin false 1 0) + numRat (.fin true 1 0) = 0 ∧ numRat (.fin true 1 0) - numRat (.fin true 1 0) = 0 ∧
    numRat (.fin true 0 0) * numRat (.fin false 1 0) = 0 ∧ numRat (.fin true 0 0) = 0 := by simp [numRat]

/-- The largest finite binary32 value and half the distance to the next power of two: their sum is the overflow midpoint. -/
theorem test_overflow_midpoint :
    numWf .binary32 (.fin true (2 ^ 24 - 1) 104) = true ∧
    fadd (testParams .binary32) (.fin true (2 ^ 24 - 1) 104) (.fin true 1 103) = .inf true ∧
    fadd (testParams .binary32) (.fin true (2 ^ 24 - 1) 104) (.fin true 1 102) = .fin true (2 ^ 24 - 1) 104 := by decide +kernel

/-- SlotsTellValuesApart: a normal and a subnormal value, zeros, an infinity and a NaN of both formats. -/
theorem witness_slots :
    ∀ f ∈ [NumFmt.binary32, .binary64],
      ∀ x ∈ [q (-4), .fin true 1 (fmtQmin f), NumVal.zero, .fin true 0 0, .inf true, .nan true 1],
      numWf f x = true ∧ slotOf f x = slotOf f x := by decide +kernel

/-- ConstantRegistersRead. -/
theorem witness_identity_reads :
    (idle [asmRead 0x0000]).script = [.read 0x0000 0b1111] ∧ (busy .decode [asmRead 0x0004]).script = [.read 0x0004 0b1111] ∧
    (idle [asmRead 0x0008]).script = [.read 0x0008 0b1111] ∧ (busy .decode []).rst = false := ⟨rfl, rfl, rfl, rfl⟩

/-- RefusedAccessSetsOnlyAccerr: each clause at the ends of its range. -/
theorem witness_refused_offsets :
    (0x0002#14).toNat % 4 ≠ 0 ∧ 0b0111#4 ≠ 0b1111 ∧
    (0x10 ≤ (0x0010#14).toNat ∧ (0x00FC#14).toNat ≤ 0xFF) ∧ (0x130 ≤ (0x0130#14).toNat ∧ (0x0FFC#14).toNat ≤ 0xFFF) ∧
    (0x1800 ≤ (0x1800#14).toNat ∧ (0x1FFC#14).toNat ≤ 0x1FFF) ∧ (0x2600 ≤ (0x2600#14).toNat ∧ 0x2600 ≤ (0x3FFC#14).toNat) ∧
    ((0x0000#14).toNat = 0x0 ∧ (0x0004#14).toNat = 0x4) ∧ (0x1000 ≤ (0x1000#14).toNat ∧ (0x17FC#14).toNat ≤ 0x17FF) ∧
    (0x2000 ≤ (0x2000#14).toNat ∧ (0x25FC#14).toNat ≤ 0x25FF) := by simp

/-- RefusedAccessSetsOnlyAccerr: the accesses as events. -/
theorem witness_refused_events :
    (idle [.read 0x3FFC 0b1111]).script = .read 0x3FFC 0b1111 :: [] ∧
    (idle [.write 0x25FC 0b1111 5]).script = .write 0x25FC 0b1111 5 :: [] ∧ (idle []).rst = false := ⟨rfl, rfl, rfl⟩

/-- StatusReadsAndClears: a write and a read, idle and busy. -/
theorem witness_status_access :
    (busy .decode [asmWrite 0x000C 0x1E]).script = [.write 0x000C 0b1111 0x1E] ∧
    (idle [asmRead 0x000C]).script = [.read 0x000C 0b1111] ∧ (idle []).status.busy = false ∧ (idle []).rst = false :=
  ⟨rfl, rfl, rfl, rfl⟩

/-- FrameInReadsBack: the first and the last word. -/
theorem witness_frameIn_access :
    ∀ j ∈ [0, 11], j < 12 ∧
      (busy .decode [asmWrite (BitVec.ofNat 14 (0x0100 + 4 * j)) 7]).script =
        [.write (BitVec.ofNat 14 (0x0100 + 4 * j)) 0b1111 7] ∧
      (idle [asmRead (BitVec.ofNat 14 (0x0100 + 4 * j))]).script = [.read (BitVec.ofNat 14 (0x0100 + 4 * j)) 0b1111] := by
  decide +kernel

/-- OutWindowReads: the first and the last slot, both words, idle and busy. -/
theorem witness_out_reads :
    ∀ n ∈ [0, 191], ∀ high ∈ [false, true], n < 192 ∧
      (idle [asmRead (BitVec.ofNat 14 (0x2000 + 8 * n + if high then 4 else 0))]).script =
        [.read (BitVec.ofNat 14 (0x2000 + 8 * n + if high then 4 else 0)) 0b1111] ∧
      (idle []).status.busy = false ∧ (busy .decode []).status.busy = true ∧ (busy .decode []).rst = false := by decide +kernel

/-- StateWindowShowsDecoder: the ends of every group of slots. -/
theorem witness_state_reads :
    ∀ k ∈ [0, 9, 10, 19, 20, 188, 189, 190, 191, 193, 194, 196, 197, 198, 255], k < 256 ∧
      (idle [asmRead (BitVec.ofNat 14 (0x1000 + 8 * k + if true then 4 else 0))]).script =
        [.read (BitVec.ofNat 14 (0x1000 + 8 * k + if true then 4 else 0)) 0b1111] := by decide +kernel

/-- LoadFrameFillsFrameIn. -/
theorem witness_load_frame :
    (idle ((AsmLine.loadFrame fullFrame).expand ++ [])).script = (AsmLine.loadFrame fullFrame).expand ++ [] := rfl

/-- WaitEndsIdle: a WAIT that sees BUSY = 1 twice. -/
theorem witness_wait :
    (busy .decode ((AsmLine.wait 2).expand ++ [])).script = (AsmLine.wait 2).expand ++ [] ∧
    (busy .decode []).rst = false ∧ pendingAgrees (busy .decode ((AsmLine.wait 2).expand ++ [])) = true := by decide +kernel

/-- AssertedResetAbandonsCommand: while a DECODE is executing. -/
theorem witness_rst_event : (busy .decode [.rst true, .engine]).script = .rst true :: [.engine] := rfl

/-- AssertedResetHoldsPort: each event. -/
theorem witness_rst_held :
    ∀ ev ∈ [asmRead 0x0000, asmWrite 0x0008 2, .engine, .rst false],
      ({ idle [ev] with rst := true }).rst = true ∧ ({ idle [ev] with rst := true }).script = [ev] := by decide +kernel

/-- HostTransactionsLeaveDecoder: a read and a write that step on. -/
theorem witness_host_transactions :
    (∃ t, step (busy .decode [asmRead 0x0000]) = .next t) ∧ (∃ t, step (idle [asmWrite 0x0008 2]) = .next t) ∧
    (busy .decode [asmRead 0x0000]).script = .read 0x0000 0b1111 :: [] ∧
    (idle [asmWrite 0x0008 2]).script = .write 0x0008 0b1111 2 :: [] := ⟨⟨_, rfl⟩, ⟨_, rfl⟩, rfl, rfl⟩

/-- The three sticky bits are set. -/
def sticky (script : List PortEvent) : State := { idle script with status := ⟨false, true, true, true, true⟩ }

/-- StickyFlagsNeedExplicitClear: a STATUS write and `rst` each clear the three bits. -/
theorem witness_sticky :
    ∀ ev ∈ [asmWrite 0x000C 0x1C, .rst true], (sticky [ev]).status.lagoor = true ∧ (sticky [ev]).status.cmderr = true ∧
      (sticky [ev]).status.accerr = true ∧ step (sticky [ev]) = .next (after (sticky [ev])) ∧
      (after (sticky [ev])).status.lagoor = false ∧ (after (sticky [ev])).status.cmderr = false ∧
      (after (sticky [ev])).status.accerr = false := by
  intro ev hev
  simp only [List.mem_cons, List.not_mem_nil, or_false] at hev
  obtain rfl | rfl := hev <;> exact ⟨rfl, rfl, rfl, rfl, by decide +kernel, by decide +kernel, by decide +kernel⟩

/-- StepKeepsMachineInvariant: a machine that is executing a DECODE meets the invariant and steps on. -/
theorem witness_inv : (busy .decode [asmRead 0x0000]).Inv Config.params ∧ ∃ t, step (busy .decode [asmRead 0x0000]) = .next t := by
  refine ⟨⟨by decide +kernel, ?_, by decide +kernel, ?_, ?_⟩, _, rfl⟩
  · exact List.mem_cons_of_mem _ (List.mem_map.2 ⟨14, by decide, rfl⟩)
  · show ∀ i < 3, nonNegOrNaN (rd Decoder.reset.curGe i) = true
    decide +kernel
  · intro h; cases h

/-- StepKeepsNumbersInFormat: the same machine. -/
theorem witness_numbers :
    (busy .decode [asmRead 0x0000]).NumbersWf Config.params.numfmt ∧ ∃ t, step (busy .decode [asmRead 0x0000]) = .next t := by
  refine ⟨?_, _, rfl⟩
  generalize Config.params.numfmt = f
  cases f <;> exact
    ⟨⟨by unfold allWf; decide +kernel, by unfold allWf; decide +kernel, by unfold allWf; decide +kernel, by decide +kernel,
        by decide +kernel, by unfold allWf; decide +kernel, by unfold allWf; decide +kernel, by decide +kernel⟩,
      ⟨by decide +kernel, by unfold allWf; decide +kernel, by unfold allWf; decide +kernel, by unfold allWf; decide +kernel,
        by decide +kernel, by decide +kernel, by decide +kernel, by unfold allWf; decide +kernel, by unfold allWf; decide +kernel,
        by unfold allWf; decide +kernel, by unfold allWf; decide +kernel⟩,
      by unfold allWf; decide +kernel⟩

end Sys2Proof.Tests
end

section
/-! PROOFS. 00_scope.md R12: each result of the arithmetic is the exact result rounded once (statement
ArithmeticRoundsOnce, O41). The value a rounding is exact for is written t · 2^e with t rational: t is the significand m
itself for a sum and a product, and the exact quotient for a quotient, of which m keeps only a last sticky bit
(`StandsFor`). In units of the last place q, `RoundedUnits` says what the integer d that a rounding picks is; everything
`RoundedTo` asks follows from that (`roundedTo_overflowOr`). -/

namespace Sys2Proof.Machine

open Sys2Proof

/-! ### The number a stored value is -/

/-- The factor a sign bit stands for in `numRat`. -/
def signFactor (s : Bool) : ℚ := if s then -1 else 1

theorem numRat_fin (s : Bool) (m : Nat) (e : Int) : numRat (.fin s m e) = signFactor s * m * (2 : ℚ) ^ e := rfl

@[simp] theorem signFactor_mul_self (s : Bool) : signFactor s * signFactor s = 1 := by
  cases s <;> norm_num [signFactor]

@[simp] theorem abs_signFactor (s : Bool) : |signFactor s| = 1 := by cases s <;> simp [signFactor]

theorem signFactor_ne_zero (s : Bool) : signFactor s ≠ 0 := by cases s <;> simp [signFactor]

@[simp] theorem signFactor_not (s : Bool) : signFactor (!s) = -signFactor s := by cases s <;> simp [signFactor]

theorem signFactor_bne (s t : Bool) : signFactor (s != t) = signFactor s * signFactor t := by
  cases s <;> cases t <;> simp [signFactor]

theorem signFactor_mul_neg_iff (s : Bool) {x : ℚ} (hx : 0 < x) : decide (signFactor s * x < 0) = s := by
  cases s
  · simpa [signFactor] using hx.le
  · simpa [signFactor] using hx

theorem numRat_fin_eq_zero_iff {s : Bool} {m : Nat} {e : Int} : numRat (.fin s m e) = 0 ↔ m = 0 := by
  simp [numRat_fin, signFactor_ne_zero, zpow_ne_zero]

@[simp] theorem numRat_fneg (x : NumVal) : numRat (fneg x) = -numRat x := by
  cases x with
  | fin s m e => simp only [fneg, numRat_fin, signFactor_not]; ring
  | inf s => simp [fneg, numRat]
  | nan s p => simp [fneg, numRat]

theorem isFinite_iff {x : NumVal} : isFinite x = true ↔ ∃ s m e, x = .fin s m e := by
  cases x <;> simp [isFinite]

/-- A finite value of the format is a zero or an integer below 2^p in units no finer than the smallest subnormal. -/
theorem bounds_of_numWf {f : NumFmt} {s : Bool} {m : Nat} {e : Int} (h : numWf f (.fin s m e) = true) :
    m = 0 ∨ m < 2 ^ fmtPrec f ∧ fmtQmin f ≤ e := by
  simp only [numWf, Bool.or_eq_true, Bool.and_eq_true, beq_iff_eq, decide_eq_true_eq] at h
  obtain ⟨hm, -⟩ | ⟨⟨⟨-, hlt⟩, hq⟩, -⟩ := h
  · exact .inl hm
  · exact .inr ⟨hlt, hq⟩

theorem normalize_mul_two_pow (s : Bool) (m k : Nat) (e : Int) : normalize s (m * 2 ^ k) e = normalize s m (e + k) := by
  rcases Nat.eq_zero_or_pos m with rfl | hpos
  · simp [normalize]
  · obtain ⟨o, hodd, hm, -⟩ := exists_odd_part hpos
    rw [hm, mul_assoc, ← pow_add, normalize_shift s hodd, normalize_shift s hodd]
    congr 1
    push_cast
    ring

theorem numRat_normalize (s : Bool) (m : Nat) (e : Int) :
    numRat (normalize s m e) = signFactor s * m * (2 : ℚ) ^ e := by
  rcases Nat.eq_zero_or_pos m with rfl | hpos
  · simp [normalize, numRat_fin]
  · obtain ⟨o, hodd, hm, -⟩ := exists_odd_part hpos
    rw [hm, normalize_shift s hodd, numRat_fin, zpow_add₀ two_ne_zero, zpow_natCast]
    push_cast
    ring

theorem overflowOr_mul_two_pow (f : NumFmt) (s : Bool) (m k : Nat) (e : Int) :
    overflowOr f s (m * 2 ^ k) e = overflowOr f s m (e + k) := by
  rcases eq_or_ne m 0 with rfl | hm
  · simp [overflowOr, normalize]
  · have hne : m * 2 ^ k ≠ 0 := Nat.mul_ne_zero hm (by positivity)
    simp only [overflowOr, log2_mul_two_pow hm, normalize_mul_two_pow, ne_eq, hm, hne, not_false_eq_true, true_and]
    congr 2
    push_cast
    ring

@[simp] theorem roundTo_zero (f : NumFmt) (s : Bool) (e : Int) : roundTo f s 0 e = .fin s 0 0 := by
  have hshift (k : Nat) : shiftRightRne 0 k = 0 := by simp [shiftRightRne]
  simp [roundTo, overflowOr, normalize, hshift]

/-- When a finite magnitude d · 2^q overflows, and what it is otherwise. -/
theorem overflowOr_cases (f : NumFmt) (s : Bool) (d : Nat) (q : Int) :
    (d ≠ 0 ∧ fmtEmax f < q + (Nat.log2 d : Int) ∧ overflowOr f s d q = .inf s) ∨
    ((d = 0 ∨ q + (Nat.log2 d : Int) ≤ fmtEmax f) ∧ overflowOr f s d q = normalize s d q) := by
  rw [overflowOr]
  split
  · next h => exact .inl ⟨h.1, h.2, rfl⟩
  · next h => exact .inr ⟨by omega, rfl⟩

theorem isFinite_normalize (s : Bool) (m : Nat) (e : Int) : isFinite (normalize s m e) = true := by
  rw [normalize]; split <;> rfl

/-! ### Rounding to an integer number of units -/

/-- d is the nearest integer to t > 0, the even one of two, where t is a magnitude counted in units 2^q: q is the smallest
subnormal's exponent, or t has p bits before the point. -/
structure RoundedUnits (f : NumFmt) (t : ℚ) (q : Int) (d : Nat) : Prop where
  pos : 0 < t
  qmin_le : fmtQmin f ≤ q
  le_pow : d ≤ 2 ^ fmtPrec f
  near : |(d : ℚ) - t| ≤ 1 / 2
  even_of_half : |(d : ℚ) - t| = 1 / 2 → d % 2 = 0
  normal : q = fmtQmin f ∨ (2 : ℚ) ^ (fmtPrec f - 1) ≤ t

namespace RoundedUnits

variable {f : NumFmt} {t : ℚ} {q : Int} {d : Nat}

/-- Any other integer is at least a half away from t. -/
theorem half_le_of_ne (h : RoundedUnits f t q d) {i : Int} (hi : i ≠ d) : 1 / 2 ≤ |(i : ℚ) - t| := by
  have hint : (1 : ℚ) ≤ |(i : ℚ) - d| := by exact_mod_cast Int.one_le_abs (sub_ne_zero.mpr hi)
  have htri : |(i : ℚ) - d| ≤ |(i : ℚ) - t| + |(d : ℚ) - t| := by
    rw [abs_sub_comm (d : ℚ) t]
    exact abs_sub_le _ _ _
  linarith [h.near]

theorem le_int (h : RoundedUnits f t q d) (i : Int) : |(d : ℚ) - t| ≤ |(i : ℚ) - t| := by
  rcases eq_or_ne i d with rfl | hi
  · simp
  · exact h.near.trans (h.half_le_of_ne hi)

/-- A number below the p-bit integers is farther from t than d, because 2^(p−1) is no nearer than d. -/
theorem lt_of_small (h : RoundedUnits f t q d) (hq : fmtQmin f < q) {w : ℚ} (hw : |w| < 2 ^ (fmtPrec f - 1)) :
    |(d : ℚ) - t| < |w - t| := by
  have ht : (2 : ℚ) ^ (fmtPrec f - 1) ≤ t := h.normal.resolve_left hq.ne'
  have hle := h.le_int (2 ^ (fmtPrec f - 1))
  push_cast at hle
  rw [abs_of_nonpos (sub_nonpos.mpr ht)] at hle
  have hwlt : w < 2 ^ (fmtPrec f - 1) := lt_of_abs_lt hw
  rw [abs_of_neg (sub_neg.mpr (hwlt.trans_le ht))]
  linarith

end RoundedUnits

/-- In units 2^q a finite value of the format is an integer, or smaller than every p-bit integer. -/
theorem exists_units {f : NumFmt} {z : NumVal} (hwf : numWf f z = true) (hfin : isFinite z = true) (s : Bool) (q : Int) :
    ∃ w : ℚ, numRat z = signFactor s * w * (2 : ℚ) ^ q ∧
      ((∃ i : Int, w = i) ∨ fmtQmin f < q ∧ |w| < 2 ^ (fmtPrec f - 1)) := by
  obtain ⟨t, n, g, rfl⟩ := isFinite_iff.mp hfin
  refine ⟨signFactor s * signFactor t * n * (2 : ℚ) ^ (g - q), ?_, ?_⟩
  · rw [numRat_fin, zpow_sub₀ two_ne_zero]
    have hs := signFactor_mul_self s
    field_simp
    linear_combination -(signFactor t * n) * hs
  · rcases bounds_of_numWf hwf with rfl | ⟨hn, hg⟩
    · exact .inl ⟨0, by simp⟩
    · rcases le_or_gt q g with hqg | hgq
      · obtain ⟨k, hk⟩ := Int.eq_ofNat_of_zero_le (sub_nonneg.mpr hqg)
        refine .inl ⟨(if s != t then -1 else 1) * n * 2 ^ k, ?_⟩
        rw [← signFactor_bne, hk, zpow_natCast]
        push_cast
        rfl
      · refine .inr ⟨by omega, ?_⟩
        have hp : (2 : ℚ) ^ fmtPrec f = 2 ^ (fmtPrec f - 1) * 2 := by cases f <;> norm_num [fmtPrec]
        have hnq : (n : ℚ) < 2 ^ fmtPrec f := by exact_mod_cast hn
        have hpow : (2 : ℚ) ^ (g - q) ≤ 2 ^ (-1 : Int) := zpow_le_zpow_right₀ one_le_two (by omega)
        rw [abs_mul, abs_mul, abs_mul, abs_signFactor, abs_signFactor, one_mul, one_mul, Nat.abs_cast,
          abs_of_pos (by positivity)]
        calc (n : ℚ) * 2 ^ (g - q) ≤ n * 2 ^ (-1 : Int) := by gcongr
          _ < 2 ^ fmtPrec f * 2 ^ (-1 : Int) := by gcongr
          _ = 2 ^ (fmtPrec f - 1) := by rw [hp, zpow_neg_one]; field_simp

/-- The odd part of an even integer of at most 2^p units has its last place below its own lowest bit: p ≥ 2 bits leave room
even for 2^p itself. -/
theorem exists_odd_part_quantum_lt {f : NumFmt} {d : Nat} {q : Int} (hq : fmtQmin f ≤ q) (hpos : 0 < d)
    (hd : d ≤ 2 ^ fmtPrec f) (heven : d % 2 = 0) :
    ∃ o j : Nat, o % 2 = 1 ∧ d = o * 2 ^ j ∧ quantum f o (q + j) < q + j := by
  rcases hd.eq_or_lt with rfl | hlt
  · have hp : 2 ≤ fmtPrec f := by cases f <;> decide
    refine ⟨1, fmtPrec f, rfl, by simp, ?_⟩
    have hlog : Nat.log2 1 = 0 := by decide
    simp only [quantum, hlog]
    omega
  · obtain ⟨o, hodd, hdo, -⟩ := exists_odd_part hpos
    refine ⟨o, trailingZeros d, hodd, hdo, ?_⟩
    have hj : trailingZeros d ≠ 0 := by
      intro h0
      rw [h0] at hdo
      omega
    have hlog : Nat.log2 d = Nat.log2 o + trailingZeros d := by
      conv_lhs => rw [hdo]
      exact log2_mul_two_pow (by omega) _
    have hlogd : Nat.log2 d < fmtPrec f := (Nat.log2_lt hpos.ne').mpr hlt
    simp only [quantum]
    omega

/-- An even integer of at most 2^p units keeps an even significand when it is stored. -/
theorem evenSignificand_normalize {f : NumFmt} (s : Bool) {d : Nat} {q : Int} (hq : fmtQmin f ≤ q) (hd : d ≤ 2 ^ fmtPrec f)
    (heven : d % 2 = 0) : evenSignificand f (normalize s d q) := by
  rcases Nat.eq_zero_or_pos d with rfl | hpos
  · simp [normalize, evenSignificand, inUnits]
  · obtain ⟨o, j, hodd, rfl, hlt⟩ := exists_odd_part_quantum_lt hq hpos hd heven
    obtain ⟨k, hk⟩ := Int.eq_ofNat_of_zero_le (show 0 ≤ q + j - quantum f o (q + j) - 1 by omega)
    rw [normalize_shift s hodd, evenSignificand, inUnits, if_pos hlt.le,
      show (q + j - quantum f o (q + j)).toNat = k + 1 by omega, Nat.shiftLeft_eq, pow_succ, ← mul_assoc,
      Nat.mul_mod_left]

/-- The leading bit of d · 2^q stands above the format's largest exponent exactly when the number reaches the next power. -/
theorem emax_lt_iff (f : NumFmt) {d : Nat} (hd : d ≠ 0) (q : Int) :
    fmtEmax f < q + (Nat.log2 d : Int) ↔ (2 : ℚ) ^ (fmtEmax f + 1) ≤ d * (2 : ℚ) ^ q := by
  have hlo : (2 : ℚ) ^ (q + (Nat.log2 d : Int)) ≤ d * (2 : ℚ) ^ q := by
    rw [add_comm, zpow_add₀ two_ne_zero, zpow_natCast]
    gcongr
    exact_mod_cast Nat.log2_self_le hd
  have hhi : d * (2 : ℚ) ^ q < (2 : ℚ) ^ (q + (Nat.log2 d : Int) + 1) := by
    rw [show q + (Nat.log2 d : Int) + 1 = ((Nat.log2 d + 1 : Nat) : Int) + q by push_cast; ring, zpow_add₀ two_ne_zero,
      zpow_natCast]
    gcongr
    exact_mod_cast Nat.lt_log2_self
  constructor
  · intro h
    exact (zpow_le_zpow_right₀ one_le_two (by omega)).trans hlo
  · intro h
    have := (zpow_lt_zpow_iff_right₀ one_lt_two).mp (h.trans_lt hhi)
    omega

namespace RoundedUnits

variable {f : NumFmt} {t : ℚ} {q : Int} {d : Nat}

/-- In units finer than the last place of the largest finite value, neither d nor t reaches the overflow range. -/
theorem below_overflow (h : RoundedUnits f t q d) (hq : q ≤ fmtEmax f - (fmtPrec f : Int)) :
    d * (2 : ℚ) ^ q < 2 ^ (fmtEmax f + 1) ∧
    t * (2 : ℚ) ^ q + 2 ^ (fmtEmax f - (fmtPrec f : Int)) < 2 ^ (fmtEmax f + 1) := by
  have htop : (2 : ℚ) ^ (fmtEmax f + 1) = 2 * 2 ^ fmtPrec f * 2 ^ (fmtEmax f - (fmtPrec f : Int)) := by
    rw [show fmtEmax f + 1 = 1 + (fmtPrec f : Int) + (fmtEmax f - (fmtPrec f : Int)) by ring, zpow_add₀ two_ne_zero,
      zpow_add₀ two_ne_zero, zpow_one, zpow_natCast]
  have hqc : (2 : ℚ) ^ q ≤ 2 ^ (fmtEmax f - (fmtPrec f : Int)) := zpow_le_zpow_right₀ one_le_two hq
  have hc : (0 : ℚ) < 2 ^ (fmtEmax f - (fmtPrec f : Int)) := by positivity
  have hp : (4 : ℚ) ≤ 2 ^ fmtPrec f := by cases f <;> norm_num [fmtPrec]
  have hdp : (d : ℚ) ≤ 2 ^ fmtPrec f := by exact_mod_cast h.le_pow
  have htp : t ≤ 2 ^ fmtPrec f + 1 / 2 := by linarith [(abs_le.mp h.near).1]
  rw [htop]
  constructor
  · calc (d : ℚ) * 2 ^ q ≤ 2 ^ fmtPrec f * 2 ^ (fmtEmax f - (fmtPrec f : Int)) := by gcongr
      _ < 2 * 2 ^ fmtPrec f * 2 ^ (fmtEmax f - (fmtPrec f : Int)) := by
        gcongr
        linarith
  · calc t * 2 ^ q + 2 ^ (fmtEmax f - (fmtPrec f : Int))
          ≤ (2 ^ fmtPrec f + 1 / 2) * 2 ^ (fmtEmax f - (fmtPrec f : Int)) + 2 ^ (fmtEmax f - (fmtPrec f : Int)) := by gcongr
      _ = (2 ^ fmtPrec f + 3 / 2) * 2 ^ (fmtEmax f - (fmtPrec f : Int)) := by ring
      _ < 2 * 2 ^ fmtPrec f * 2 ^ (fmtEmax f - (fmtPrec f : Int)) := by
        gcongr
        linarith

/-- d reaches 2^p exactly when t reaches the midpoint below it: 2^p − 1 is odd, so the midpoint goes up. -/
theorem two_pow_le_iff (h : RoundedUnits f t q d) : 2 ^ fmtPrec f ≤ (d : ℚ) ↔ 2 ^ fmtPrec f ≤ t + 1 / 2 := by
  obtain ⟨hlo, hhi⟩ := abs_le.mp h.near
  constructor
  · intro hle
    linarith
  · intro hle
    by_contra hlt
    have hdlt : (d : ℚ) + 1 ≤ 2 ^ fmtPrec f := by
      have : d < 2 ^ fmtPrec f := by exact_mod_cast not_le.mp hlt
      exact_mod_cast this
    have hhalf : |(d : ℚ) - t| = 1 / 2 := by
      rw [abs_sub_comm, abs_of_nonneg] <;> linarith
    have hmax : d + 1 = 2 ^ fmtPrec f := by
      have : (d : ℚ) + 1 = 2 ^ fmtPrec f := by linarith
      exact_mod_cast this
    have hpow : 2 ^ fmtPrec f % 2 = 0 := by cases f <;> decide
    have := h.even_of_half hhalf
    omega

/-- A magnitude of p bits before the point rounds to an integer of p bits. -/
theorem two_pow_pred_le (h : RoundedUnits f t q d) (ht : (2 : ℚ) ^ (fmtPrec f - 1) ≤ t) :
    (2 : ℚ) ^ (fmtPrec f - 1) ≤ d := by
  by_contra hlt
  have hle := h.le_int (2 ^ (fmtPrec f - 1))
  push_cast at hle
  rw [abs_of_nonpos (sub_nonpos.mpr ht), abs_of_nonpos (by linarith)] at hle
  linarith

/-- d units reach the power of two above the largest finite value exactly when t units reach the overflow midpoint. -/
theorem overflow_iff (h : RoundedUnits f t q d) :
    (2 : ℚ) ^ (fmtEmax f + 1) ≤ d * (2 : ℚ) ^ q ↔
      (2 : ℚ) ^ (fmtEmax f + 1) ≤ t * (2 : ℚ) ^ q + 2 ^ (fmtEmax f - (fmtPrec f : Int)) := by
  have hq0 : (0 : ℚ) < 2 ^ q := by positivity
  rcases lt_trichotomy q (fmtEmax f - (fmtPrec f : Int) + 1) with hq | hq | hq
  · obtain ⟨hd, ht⟩ := h.below_overflow (by omega)
    exact iff_of_false (not_le.mpr hd) (not_le.mpr ht)
  · have htop : (2 : ℚ) ^ (fmtEmax f + 1) = 2 ^ fmtPrec f * 2 ^ q := by
      rw [hq, ← zpow_natCast, ← zpow_add₀ two_ne_zero]
      congr 1
      ring
    have hhalf : (2 : ℚ) ^ (fmtEmax f - (fmtPrec f : Int)) = 1 / 2 * 2 ^ q := by
      rw [hq, zpow_add₀ two_ne_zero, zpow_one]
      ring
    rw [htop, hhalf, ← add_mul, mul_le_mul_iff_left₀ hq0, mul_le_mul_iff_left₀ hq0]
    exact h.two_pow_le_iff
  · have hqmin : q ≠ fmtQmin f := by
      cases f <;> simp only [fmtEmax, fmtPrec, fmtQmin] at hq ⊢ <;> omega
    have ht : (2 : ℚ) ^ (fmtPrec f - 1) ≤ t := h.normal.resolve_left hqmin
    have hd := h.two_pow_pred_le ht
    have htop : (2 : ℚ) ^ (fmtEmax f + 1) ≤ 2 ^ (fmtPrec f - 1) * 2 ^ q := by
      rw [← zpow_natCast, ← zpow_add₀ two_ne_zero]
      exact zpow_le_zpow_right₀ one_le_two (by omega)
    have hc : (0 : ℚ) ≤ 2 ^ (fmtEmax f - (fmtPrec f : Int)) := by positivity
    exact iff_of_true (htop.trans (by gcongr)) (htop.trans (le_add_of_le_of_nonneg (by gcongr) hc))

/-- The sign and the stored magnitude of d units are what `RoundedTo` asks of a rounding of t units. -/
theorem roundedTo (h : RoundedUnits f t q d) (s : Bool) :
    RoundedTo f (signFactor s * t * (2 : ℚ) ^ q) (overflowOr f s d q) := by
  have hpow : (0 : ℚ) < 2 ^ q := by positivity
  have hdist (w : ℚ) : |signFactor s * w * (2 : ℚ) ^ q - signFactor s * t * 2 ^ q| = |w - t| * 2 ^ q := by
    rw [← sub_mul, ← mul_sub, abs_mul, abs_mul, abs_signFactor, one_mul, abs_of_pos hpow]
  have habs : |signFactor s * t * (2 : ℚ) ^ q| = t * 2 ^ q := by
    rw [abs_mul, abs_mul, abs_signFactor, one_mul, abs_of_pos h.pos, abs_of_pos hpow]
  have hsign : decide (signFactor s * t * (2 : ℚ) ^ q < 0) = s := by
    rw [mul_assoc]
    exact signFactor_mul_neg_iff s (mul_pos h.pos hpow)
  have hwf : numWf f (overflowOr f s d q) = true := numWf_overflowOr s h.le_pow h.qmin_le
  obtain ⟨hd, hlog, hy⟩ | ⟨hlog, hy⟩ := overflowOr_cases f s d q
  · rw [hy]
    rw [hy] at hwf
    refine ⟨hwf, by simp [isFinite], by simp [isFinite], fun hx => ?_, fun _ => by rw [hsign], fun _ => hsign.symm⟩
    rw [habs] at hx
    exact absurd (h.overflow_iff.mp ((emax_lt_iff f hd q).mp hlog)) (not_le.mpr hx)
  · have hnum : numRat (normalize s d q) = signFactor s * d * (2 : ℚ) ^ q := numRat_normalize s d q
    rw [hy]
    rw [hy] at hwf
    refine ⟨hwf, fun _ z hz hzf => ?_, fun _ z hz hzf hne heq => ?_, fun _ => isFinite_normalize s d q, fun hx => ?_,
      fun _ => by rw [hsign, signBit_normalize]⟩
    · obtain ⟨w, hw, ⟨i, rfl⟩ | ⟨hq, hsmall⟩⟩ := exists_units hz hzf s q <;> rw [hnum, hw, hdist, hdist]
      · exact mul_le_mul_of_nonneg_right (h.le_int i) hpow.le
      · exact mul_le_mul_of_nonneg_right (h.lt_of_small hq hsmall).le hpow.le
    · obtain ⟨w, hw, hcase⟩ := exists_units hz hzf s q
      rw [hw, hnum, hdist, hdist] at heq
      have hwd : |w - t| = |(d : ℚ) - t| := mul_right_cancel₀ hpow.ne' heq
      obtain ⟨i, rfl⟩ | ⟨hq, hsmall⟩ := hcase
      · have hid : i ≠ d := by
          rintro rfl
          exact hne (by rw [hw, hnum]; norm_num)
        have hhalf : |(d : ℚ) - t| = 1 / 2 := le_antisymm h.near (hwd ▸ h.half_le_of_ne hid)
        exact evenSignificand_normalize s h.qmin_le h.le_pow (h.even_of_half hhalf)
      · exact absurd hwd (h.lt_of_small hq hsmall).ne'
    · rw [habs] at hx
      have hover := h.overflow_iff.mpr hx
      have hd : d ≠ 0 := by
        rintro rfl
        rw [Nat.cast_zero, zero_mul] at hover
        exact absurd hover (not_le.mpr (by positivity))
      have hlt := (emax_lt_iff f hd q).mpr hover
      omega

end RoundedUnits

/-! ### Rounding a magnitude -/

/-- The significand m stands for the magnitude t > 0 in a rounding: it is t, or it is the odd integer next to t with at
least two bits more than the format has, so that its last bit shows on which side of every tie t is. -/
def StandsFor (f : NumFmt) (m : Nat) (t : ℚ) : Prop :=
  m ≠ 0 ∧ ((m : ℚ) = t ∨ m % 2 = 1 ∧ |t - m| < 1 ∧ 2 ^ (fmtPrec f + 1) ≤ m)

/-- A magnitude has the leading bit of the significand that stands for it. -/
theorem StandsFor.two_pow_log2_le {f : NumFmt} {m : Nat} {t : ℚ} (h : StandsFor f m t) : (2 : ℚ) ^ Nat.log2 m ≤ t := by
  obtain ⟨hm, rfl | ⟨hodd, hnear, hbig⟩⟩ := h
  · exact_mod_cast Nat.log2_self_le hm
  · have hlog : fmtPrec f + 1 ≤ Nat.log2 m := (Nat.le_log2 hm).mpr hbig
    have hlt : 2 ^ Nat.log2 m + 1 ≤ m := by
      have hle := Nat.log2_self_le hm
      have hpow : 2 ^ Nat.log2 m = 2 * 2 ^ (Nat.log2 m - 1) := by
        rw [← pow_succ']
        congr 1
        omega
      omega
    have hltq : (2 : ℚ) ^ Nat.log2 m + 1 ≤ m := by exact_mod_cast hlt
    linarith [(abs_lt.mp hnear).1]

/-- The remainder of the significand compares with half of 2^k as the remainder of the magnitude it stands for does: with two
bits or more to drop, half of 2^k is even, so an odd remainder is never a tie and an error below 1 makes none. -/
theorem remainder_compare {m k : Nat} {t : ℚ} (h : (m : ℚ) = t ∨ m % 2 = 1 ∧ |t - m| < 1 ∧ 2 ≤ k) :
    0 ≤ t - 2 ^ k * (m >>> k : Nat) ∧ t - 2 ^ k * (m >>> k : Nat) ≤ 2 ^ k ∧
    (2 * (m % 2 ^ k) < 2 ^ k → 2 * (t - 2 ^ k * (m >>> k : Nat)) < 2 ^ k) ∧
    (2 ^ k < 2 * (m % 2 ^ k) → 2 ^ k < 2 * (t - 2 ^ k * (m >>> k : Nat))) ∧
    (2 * (m % 2 ^ k) = 2 ^ k → 2 * (t - 2 ^ k * (m >>> k : Nat)) = 2 ^ k) := by
  have hdiv : 2 ^ k * (m >>> k) + m % 2 ^ k = m := by
    rw [Nat.shiftRight_eq_div_pow]
    exact Nat.div_add_mod _ _
  have hdivq : (2 : ℚ) ^ k * (m >>> k : Nat) + (m % 2 ^ k : Nat) = m := by exact_mod_cast hdiv
  have hmod : m % 2 ^ k < 2 ^ k := Nat.mod_lt _ (by positivity)
  generalize m >>> k = D at *
  generalize m % 2 ^ k = r at *
  obtain rfl | ⟨hodd, hnear, hk⟩ := h
  · rw [show (m : ℚ) - 2 ^ k * D = r by linarith]
    exact ⟨by positivity, by exact_mod_cast hmod.le, fun hr => by exact_mod_cast hr, fun hr => by exact_mod_cast hr,
      fun hr => by exact_mod_cast hr⟩
  · obtain ⟨j, rfl⟩ := Nat.exists_eq_add_of_le hk
    have hfour : 2 ^ (2 + j) = 4 * 2 ^ j := by rw [pow_add]; norm_num
    have hrodd : r % 2 = 1 := by
      rw [← hdiv, hfour, mul_assoc, Nat.add_mod, show 4 * (2 ^ j * D) % 2 = 0 by omega] at hodd
      omega
    obtain ⟨hlo, hhi⟩ := abs_lt.mp hnear
    have hr1 : (1 : ℚ) ≤ r := by exact_mod_cast (show 1 ≤ r by omega)
    have hrN : (r : ℚ) + 1 ≤ 2 ^ (2 + j) := by exact_mod_cast hmod
    refine ⟨by linarith, by linarith, fun hr => ?_, fun hr => ?_, fun hr => by omega⟩
    · have hgap : (2 * r + 2 : ℚ) ≤ 2 ^ (2 + j) := by exact_mod_cast (show 2 * r + 2 ≤ 2 ^ (2 + j) by omega)
      linarith
    · have hgap : (2 ^ (2 + j) + 2 : ℚ) ≤ 2 * r := by exact_mod_cast (show 2 ^ (2 + j) + 2 ≤ 2 * r by omega)
      linarith

/-- In units of its last place a magnitude has p bits before the point, unless the last place is the smallest subnormal's. -/
theorem StandsFor.normal {f : NumFmt} {m : Nat} {t : ℚ} (h : StandsFor f m t) (e : Int) :
    quantum f m e = fmtQmin f ∨ (2 : ℚ) ^ (fmtPrec f - 1) ≤ t * (2 : ℚ) ^ (e - quantum f m e) := by
  have hp : 1 ≤ fmtPrec f := by cases f <;> decide
  rcases max_choice (e + (Nat.log2 m : Int) - ((fmtPrec f : Int) - 1)) (fmtQmin f) with hq | hq
  · right
    calc (2 : ℚ) ^ (fmtPrec f - 1) = 2 ^ Nat.log2 m * (2 : ℚ) ^ (e - quantum f m e) := by
          rw [quantum, hq, ← zpow_natCast, ← zpow_natCast, ← zpow_add₀ two_ne_zero]
          congr 1
          push_cast [hp]
          ring
      _ ≤ t * (2 : ℚ) ^ (e - quantum f m e) := by
          gcongr
          exact h.two_pow_log2_le
  · exact .inl hq

/-- A significand is exact, or at least two of its bits stand below the last place. -/
theorem StandsFor.exact_or_drops {f : NumFmt} {m : Nat} {t : ℚ} (h : StandsFor f m t) (e : Int) :
    (m : ℚ) = t ∨ m % 2 = 1 ∧ |t - m| < 1 ∧ e + 2 ≤ quantum f m e := by
  obtain ⟨hm, hexact | ⟨hodd, hnear, hbig⟩⟩ := h
  · exact .inl hexact
  · have hlog := (Nat.le_log2 hm).mpr hbig
    refine .inr ⟨hodd, hnear, le_trans ?_ (le_max_left _ _)⟩
    omega

/-- Dropping k bits of a significand rounds the magnitude it stands for, to nearest and ties to even. -/
theorem shiftRightRne_nearest {m k : Nat} {t : ℚ} (h : (m : ℚ) = t ∨ m % 2 = 1 ∧ |t - m| < 1 ∧ 2 ≤ k) :
    |(shiftRightRne m k : ℚ) - t / 2 ^ k| ≤ 1 / 2 ∧
    (|(shiftRightRne m k : ℚ) - t / 2 ^ k| = 1 / 2 → shiftRightRne m k % 2 = 0) := by
  obtain ⟨hlo, hhi, hbelow, habove, hhalf⟩ := remainder_compare h
  have hN : (0 : ℚ) < 2 ^ k := by positivity
  obtain ⟨u, hu⟩ : ∃ u, t = 2 ^ k * (m >>> k : Nat) + 2 ^ k * u := ⟨t / 2 ^ k - (m >>> k : Nat), by field_simp; ring⟩
  have hquot : t / 2 ^ k = (m >>> k : Nat) + u := by rw [hu]; field_simp
  rw [hu, add_sub_cancel_left] at hlo hhi hbelow habove hhalf
  have hu0 : 0 ≤ u := nonneg_of_mul_nonneg_right hlo hN
  have hu1 : u ≤ 1 := le_of_mul_le_mul_left (by linarith) hN
  rw [hquot]
  simp only [shiftRightRne]
  split
  · next hup =>
    have huhalf : 1 / 2 ≤ u := by
      refine le_of_mul_le_mul_left ?_ hN
      obtain hr | ⟨hr, -⟩ := hup
      · linarith [habove hr]
      · linarith [hhalf hr]
    have habs : |((m >>> k + 1 : Nat) : ℚ) - ((m >>> k : Nat) + u)| = 1 - u := by
      rw [Nat.cast_add, Nat.cast_one, abs_of_nonneg] <;> linarith
    rw [habs]
    refine ⟨by linarith, fun heq => ?_⟩
    obtain hr | ⟨-, hodd⟩ := hup
    · have : 2 ^ k * (1 / 2) < 2 ^ k * u := by linarith [habove hr]
      linarith [lt_of_mul_lt_mul_left this hN.le]
    · omega
  · next hdown =>
    have habs : |((m >>> k : Nat) : ℚ) - ((m >>> k : Nat) + u)| = u := by
      rw [sub_add_cancel_left, abs_neg, abs_of_nonneg hu0]
    rw [habs]
    rcases lt_or_eq_of_le (show 2 * (m % 2 ^ k) ≤ 2 ^ k by omega) with hr | hr
    · have : 2 ^ k * u < 2 ^ k * (1 / 2) := by linarith [hbelow hr]
      have hlt : u < 1 / 2 := lt_of_mul_lt_mul_left this hN.le
      exact ⟨hlt.le, fun heq => absurd heq hlt.ne⟩
    · have : 2 ^ k * u = 2 ^ k * (1 / 2) := by linarith [hhalf hr]
      have heq : u = 1 / 2 := mul_left_cancel₀ hN.ne' this
      exact ⟨heq.le, fun _ => by omega⟩

/-- `roundTo` picks the integer number of units that is nearest to the magnitude its significand stands for. -/
theorem exists_roundedUnits_of_standsFor {f : NumFmt} {m : Nat} {t : ℚ} (h : StandsFor f m t) (s : Bool) (e : Int) :
    ∃ d, roundTo f s m e = overflowOr f s d (quantum f m e) ∧
      RoundedUnits f (t * (2 : ℚ) ^ (e - quantum f m e)) (quantum f m e) d := by
  have hpos : 0 < t := lt_of_lt_of_le (by positivity) h.two_pow_log2_le
  have hmlt : m < 2 ^ (Nat.log2 m + 1) := Nat.lt_log2_self
  have hqmin : fmtQmin f ≤ quantum f m e := le_max_right _ _
  have hqe : e + (Nat.log2 m : Int) - ((fmtPrec f : Int) - 1) ≤ quantum f m e := le_max_left _ _
  have hnormal := h.normal e
  have hdrops := h.exact_or_drops e
  rw [roundTo]
  generalize quantum f m e = q at *
  split
  · next hge =>
    obtain ⟨k, hk⟩ := Int.eq_ofNat_of_zero_le (sub_nonneg.mpr hge)
    have hexact : (m : ℚ) = t := hdrops.resolve_right fun ⟨_, _, hq⟩ => by omega
    have hunits : t * (2 : ℚ) ^ (e - q) = (m * 2 ^ k : Nat) := by
      rw [hk, ← hexact, zpow_natCast]
      push_cast
      rfl
    refine ⟨m * 2 ^ k, ?_, ⟨by positivity, hqmin, ?_, by simp [hunits], by simp [hunits], hnormal⟩⟩
    · rw [overflowOr_mul_two_pow]
      congr 1
      omega
    · calc m * 2 ^ k ≤ 2 ^ (Nat.log2 m + 1) * 2 ^ k := by gcongr
        _ = 2 ^ (Nat.log2 m + 1 + k) := (pow_add _ _ k).symm
        _ ≤ 2 ^ fmtPrec f := Nat.pow_le_pow_right two_pos (by omega)
  · next hlt =>
    obtain ⟨k, hk⟩ := Int.eq_ofNat_of_zero_le (show 0 ≤ q - e by omega)
    have hunits : t * (2 : ℚ) ^ (e - q) = t / 2 ^ k := by
      rw [show e - q = -(k : Int) by omega, zpow_neg, zpow_natCast, div_eq_mul_inv]
    obtain ⟨hnear, heven⟩ := shiftRightRne_nearest (k := k) (hdrops.imp_right fun ⟨hodd, herr, hq⟩ => ⟨hodd, herr, by omega⟩)
    rw [← hunits] at hnear heven
    rw [show (q - e).toNat = k by omega]
    refine ⟨_, rfl, by positivity, hqmin, shiftRightRne_le _ _ _ (hmlt.trans_le ?_), hnear, heven, hnormal⟩
    exact Nat.pow_le_pow_right two_pos (by omega)

/-- `roundTo` rounds the number its significand stands for once to the format. -/
theorem roundedTo_roundTo {f : NumFmt} {m : Nat} {t : ℚ} (h : StandsFor f m t) (s : Bool) (e : Int) :
    RoundedTo f (signFactor s * t * (2 : ℚ) ^ e) (roundTo f s m e) := by
  obtain ⟨d, hy, hunits⟩ := exists_roundedUnits_of_standsFor h s e
  have hx : signFactor s * t * (2 : ℚ) ^ e =
      signFactor s * (t * 2 ^ (e - quantum f m e)) * 2 ^ quantum f m e := by
    rw [mul_assoc, mul_assoc, mul_assoc, ← zpow_add₀ two_ne_zero, sub_add_cancel]
  rw [hx, hy]
  exact hunits.roundedTo s

/-- A zero of either sign is an exact 0 rounded. -/
theorem roundedTo_zero (f : NumFmt) (s : Bool) : RoundedTo f 0 (.fin s 0 0) where
  wf := numWf_zero f s
  nearest _ z _ _ := by simp [numRat]
  tie _ z _ _ hne heq := by
    rw [numRat_fin_eq_zero_iff.mpr rfl, sub_zero, sub_zero, abs_zero, abs_eq_zero] at heq
    exact absurd (heq.trans (numRat_fin_eq_zero_iff.mpr rfl).symm) hne
  finite _ := rfl
  overflow h := by
    rw [abs_zero, zero_add] at h
    have := (zpow_le_zpow_iff_right₀ (one_lt_two (α := ℚ))).mp h
    omega
  sign h := absurd rfl h

/-- `roundTo` of an exact significand, 0 included. -/
theorem roundedTo_roundTo_exact (f : NumFmt) (s : Bool) (m : Nat) (e : Int) :
    RoundedTo f (signFactor s * m * (2 : ℚ) ^ e) (roundTo f s m e) := by
  rcases eq_or_ne m 0 with rfl | hm
  · simpa using roundedTo_zero f s
  · exact roundedTo_roundTo ⟨hm, .inl rfl⟩ s e

/-! ### The exact sum, product and quotient -/

theorem signedInt_cast (s : Bool) (m : Nat) : (signedInt s m : ℚ) = signFactor s * m := by
  cases s <;> simp [signedInt, signFactor]

/-- The aligned sum is the exact sum, in units of the lower of the two exponents. -/
theorem alignedSum_cast (s : Bool) (m : Nat) (e : Int) (t : Bool) (n : Nat) (g : Int) :
    (alignedSum s m e t n g : ℚ) * (2 : ℚ) ^ min e g = numRat (.fin s m e) + numRat (.fin t n g) := by
  have hshift (u : Bool) (a : Nat) (i : Int) (hi : min e g ≤ i) :
      (signedInt u (a <<< (i - min e g).toNat) : ℚ) * (2 : ℚ) ^ min e g = numRat (.fin u a i) := by
    obtain ⟨k, hk⟩ := Int.eq_ofNat_of_zero_le (sub_nonneg.mpr hi)
    have hi' : i = k + min e g := by omega
    have hk' : (i - min e g).toNat = k := by omega
    rw [signedInt_cast, numRat_fin, hk', Nat.shiftLeft_eq]
    conv_rhs => rw [hi', zpow_add₀ two_ne_zero, zpow_natCast]
    push_cast
    ring
  rw [alignedSum, Int.cast_add, add_mul, hshift s m e (min_le_left _ _), hshift t n g (min_le_right _ _)]

theorem signFactor_mul_natAbs (x : Int) : signFactor (decide (x < 0)) * (x.natAbs : ℚ) = x := by
  rcases lt_or_ge x 0 with hx | hx
  · simp [signFactor, hx, Nat.cast_natAbs, abs_of_neg hx]
  · simp [signFactor, not_lt.mpr hx, Nat.cast_natAbs, abs_of_nonneg hx]

/-- The sum of two finite numbers: the exact sum rounded once, and the sign of an exact zero. -/
theorem sumOr_rounds (f : NumFmt) (inv : NumVal) {a b : NumVal} (ha : isFinite a = true) (hb : isFinite b = true) :
    RoundedTo f (numRat a + numRat b) (sumOr f inv a b) ∧
    (numRat a + numRat b = 0 → sumOr f inv a b = .fin (signBit a && signBit b) 0 0) := by
  obtain ⟨s, m, e, rfl⟩ := isFinite_iff.mp ha
  obtain ⟨t, n, g, rfl⟩ := isFinite_iff.mp hb
  rw [← alignedSum_cast]
  simp only [sumOr, signBit]
  generalize alignedSum s m e t n g = x
  split
  · next hx =>
    subst hx
    exact ⟨by simpa using roundedTo_zero f (s && t), fun _ => rfl⟩
  · next hx =>
    refine ⟨?_, fun h0 => ?_⟩
    · rw [← signFactor_mul_natAbs x]
      exact roundedTo_roundTo_exact f _ _ _
    · have hx' : (x : ℚ) ≠ 0 := by exact_mod_cast hx
      exact absurd h0 (mul_ne_zero hx' (by positivity))

theorem fmul_rounds (P : Params) {a b : NumVal} (ha : isFinite a = true) (hb : isFinite b = true) :
    RoundedTo P.numfmt (numRat a * numRat b) (fmul P a b) ∧
    (numRat a * numRat b = 0 → fmul P a b = .fin (signBit a != signBit b) 0 0) := by
  obtain ⟨s, m, e, rfl⟩ := isFinite_iff.mp ha
  obtain ⟨t, n, g, rfl⟩ := isFinite_iff.mp hb
  have hx : numRat (.fin s m e) * numRat (.fin t n g) =
      signFactor (s != t) * (m * n : Nat) * (2 : ℚ) ^ (e + g) := by
    rw [numRat_fin, numRat_fin, signFactor_bne, zpow_add₀ two_ne_zero]
    push_cast
    ring
  simp only [fmul, signBit]
  refine ⟨hx ▸ roundedTo_roundTo_exact _ _ _ _, fun h0 => ?_⟩
  have hmn : m * n = 0 := by
    rw [mul_eq_zero, numRat_fin_eq_zero_iff, numRat_fin_eq_zero_iff] at h0
    exact mul_eq_zero.mpr h0
  rw [hmn, roundTo_zero]

/-- A quotient to at least p + 1 bits, with one last bit that says whether there is a remainder, stands for twice the exact
quotient. -/
theorem standsFor_quotient {f : NumFmt} {a b : Nat} (hb : b ≠ 0) (hbig : b * 2 ^ fmtPrec f ≤ a) :
    StandsFor f (2 * (a / b) + if a % b = 0 then 0 else 1) (2 * ((a : ℚ) / b)) := by
  have hbq : (0 : ℚ) < b := by exact_mod_cast Nat.pos_of_ne_zero hb
  have hq : 2 ^ fmtPrec f ≤ a / b := (Nat.le_div_iff_mul_le (Nat.pos_of_ne_zero hb)).mpr (by rwa [mul_comm])
  have hp : 0 < 2 ^ fmtPrec f := by positivity
  have hdiv : (b : ℚ) * (a / b : Nat) + (a % b : Nat) = a := by exact_mod_cast Nat.div_add_mod a b
  have hquot : (a : ℚ) / b = (a / b : Nat) + (a % b : Nat) / b := by
    rw [← hdiv]
    field_simp
  have hmod : a % b < b := Nat.mod_lt _ (Nat.pos_of_ne_zero hb)
  rw [hquot]
  generalize a / b = q at *
  generalize a % b = r at *
  refine ⟨by omega, ?_⟩
  split
  · next hr =>
    left
    simp [hr]
  · next hr =>
    right
    have hlo : (0 : ℚ) < r / b := by
      have : (0 : ℚ) < r := by exact_mod_cast Nat.pos_of_ne_zero hr
      positivity
    have hhi : (r : ℚ) / b < 1 := (div_lt_one hbq).mpr (by exact_mod_cast hmod)
    refine ⟨by omega, ?_, by rw [pow_succ]; omega⟩
    push_cast
    rw [abs_lt]
    constructor <;> linarith

theorem roundedTo_roundQuotient (f : NumFmt) (s : Bool) {a b : Nat} (ha : a ≠ 0) (hb : b ≠ 0) (e : Int) :
    RoundedTo f (signFactor s * ((a : ℚ) / b) * (2 : ℚ) ^ e) (roundQuotient f s a b e) := by
  simp only [roundQuotient]
  generalize hk : fmtPrec f + 2 + Nat.log2 b - Nat.log2 a = k
  have hbig : b * 2 ^ fmtPrec f ≤ a <<< k := by
    rw [Nat.shiftLeft_eq]
    calc b * 2 ^ fmtPrec f ≤ 2 ^ (Nat.log2 b + 1) * 2 ^ fmtPrec f := by gcongr; exact Nat.lt_log2_self.le
      _ = 2 ^ (Nat.log2 b + 1 + fmtPrec f) := (pow_add _ _ _).symm
      _ ≤ 2 ^ (Nat.log2 a + k) := Nat.pow_le_pow_right two_pos (by omega)
      _ = 2 ^ Nat.log2 a * 2 ^ k := pow_add _ _ _
      _ ≤ a * 2 ^ k := by gcongr; exact Nat.log2_self_le ha
  have hx : signFactor s * ((a : ℚ) / b) * (2 : ℚ) ^ e =
      signFactor s * (2 * (((a <<< k : Nat) : ℚ) / b)) * (2 : ℚ) ^ (e - k - 1) := by
    rw [Nat.shiftLeft_eq, zpow_sub₀ two_ne_zero, zpow_sub₀ two_ne_zero, zpow_natCast, zpow_one]
    push_cast
    field_simp
  rw [hx]
  exact roundedTo_roundTo (standsFor_quotient hb hbig) s _

theorem fdiv_rounds (P : Params) {a b : NumVal} (ha : isFinite a = true) (hb : isFinite b = true) (hb0 : numRat b ≠ 0) :
    RoundedTo P.numfmt (numRat a / numRat b) (fdiv P a b) ∧
    (numRat a = 0 → fdiv P a b = .fin (signBit a != signBit b) 0 0) := by
  obtain ⟨s, m, e, rfl⟩ := isFinite_iff.mp ha
  obtain ⟨t, n, g, rfl⟩ := isFinite_iff.mp hb
  have hn : n ≠ 0 := by rwa [ne_eq, numRat_fin_eq_zero_iff] at hb0
  simp only [fdiv, signBit, hn, if_false]
  split
  · next hm =>
    subst hm
    exact ⟨by simpa [numRat_fin] using roundedTo_zero P.numfmt (s != t), fun _ => rfl⟩
  · next hm =>
    refine ⟨?_, fun h0 => absurd (numRat_fin_eq_zero_iff.mp h0) hm⟩
    have hx : numRat (.fin s m e) / numRat (.fin t n g) =
        signFactor (s != t) * ((m : ℚ) / n) * (2 : ℚ) ^ (e - g) := by
      have ht : signFactor t ≠ 0 := signFactor_ne_zero t
      have htt := signFactor_mul_self t
      rw [numRat_fin, numRat_fin, signFactor_bne, zpow_sub₀ two_ne_zero]
      field_simp
      linear_combination -signFactor s * htt
    rw [hx]
    exact roundedTo_roundQuotient _ _ hm hn _

@[simp] theorem isFinite_fneg (x : NumVal) : isFinite (fneg x) = isFinite x := by cases x <;> rfl

@[simp] theorem signBit_fneg (x : NumVal) : signBit (fneg x) = !signBit x := by cases x <;> rfl

/-- Settles O41: each operation on two finite numbers reduces to one rounding of its exact result. A difference is the sum with
the negated operand. -/
theorem arithmeticRoundsOnce : Obligations.ArithmeticRoundsOnce := by
  intro P a b ha hb
  obtain ⟨hadd, hadd0⟩ := sumOr_rounds P.numfmt (freeNaN P .add a b) ha hb
  obtain ⟨hsub, hsub0⟩ := sumOr_rounds P.numfmt (freeNaN P .sub a b) ha ((isFinite_fneg b).trans hb)
  rw [numRat_fneg, ← sub_eq_add_neg] at hsub hsub0
  rw [signBit_fneg] at hsub0
  obtain ⟨hmul, hmul0⟩ := fmul_rounds P ha hb
  exact ⟨hadd, hsub, hmul, fun h => (fdiv_rounds P ha hb h).1, hadd0, hsub0, hmul0, fun h => (fdiv_rounds P ha hb h).2⟩

end Sys2Proof.Machine
end

section
/-! PROOFS. What one step can do to the registers of the engine, said once as the relation `StepEffect`. The invariants of
10_state.md (statements O56, O57, O58) are derived from its cases. -/

namespace Sys2Proof.Machine

open Sys2Proof

/-- The registers of the engine (10_state.md) and the reset input are the same in u as in s: only the model's own fields and
the read data of the port may differ. -/
structure SameRegs (s u : State) : Prop where
  eng : u.eng = s.eng
  frameIn : u.frameIn = s.frameIn
  out : u.out = s.out
  status : u.status = s.status
  pending : u.pending = s.pending
  rst : u.rst = s.rst

namespace SameRegs

variable {s u : State}

/-- Taking the next event leaves the registers. -/
theorem withScript (s : State) (rest : List PortEvent) : SameRegs s { s with script := rest } :=
  ⟨rfl, rfl, rfl, rfl, rfl, rfl⟩

theorem after_setActor (h : SameRegs s u) (a : Agent) : SameRegs s (setActor a u) :=
  ⟨h.eng, h.frameIn, h.out, h.status, h.pending, h.rst⟩

theorem after_setRdata (h : SameRegs s u) (d : Word32) : SameRegs s (setRdata d u) :=
  ⟨h.eng, h.frameIn, h.out, h.status, h.pending, h.rst⟩

theorem after_drawFree (h : SameRegs s u) : SameRegs s (drawFree u).2 :=
  ⟨h.eng, h.frameIn, h.out, h.status, h.pending, h.rst⟩

end SameRegs

/-- What a step from s can come to. In each case u is s but for the port's read data and the model's own fields. -/
inductive StepEffect (s : State) : State → Prop where
  /-- a read that is answered, a NOP, a turn with nothing to complete, an access while `rst` is asserted -/
  | quiet {u : State} (hu : SameRegs s u) : StepEffect s u
  /-- AccessRefused (60_exceptions.md R243) -/
  | refuse {u : State} (hu : SameRegs s u) (hr : s.rst = false) : StepEffect s (refuseAccess u)
  /-- CommandRejected (60_exceptions.md R242) -/
  | reject {u : State} (hu : SameRegs s u) (hr : s.rst = false) : StepEffect s (rejectCommand u)
  /-- a whole-word write of STATUS (20_memory.md R89) -/
  | writeStatus {u : State} {d : Word32} {rest : List PortEvent} (hu : SameRegs s u) (hr : s.rst = false)
      (hs : s.script = .write 0x000C 0b1111 d :: rest) : StepEffect s { u with status := statusWriteOne u.status d }
  /-- a write of a FRAME_IN word (20_memory.md R90) -/
  | writeFrameIn {u : State} (j : Nat) (d : Word32) (hu : SameRegs s u) (hr : s.rst = false) :
      StepEffect s { u with frameIn := wr u.frameIn j d }
  /-- acceptance of RESET (46_commands.md R231) -/
  | acceptReset {u : State} (hu : SameRegs s u) (hr : s.rst = false) (hb : s.status.busy = false) :
      StepEffect s (accept .reset u)
  /-- acceptance of DECODE (46_commands.md R231, R232) -/
  | acceptDecode {u : State} (hu : SameRegs s u) (hr : s.rst = false) (hb : s.status.busy = false) :
      StepEffect s (latchFrame (accept .decode u))
  /-- completion of RESET (46_commands.md R234) -/
  | completeReset {u : State} (hu : SameRegs s u) (hr : s.rst = false) (hp : s.pending = .reset) :
      StepEffect s (completeReset u)
  /-- completion of DECODE (46_commands.md R233) -/
  | completeDecode {u : State} (hu : SameRegs s u) (hr : s.rst = false) (hp : s.pending = .decode) :
      StepEffect s (completeDecode Config.params u)
  /-- a change of the reset input (20_memory.md R80) -/
  | setRst {u : State} {level : Bool} {rest : List PortEvent} (hu : SameRegs s u)
      (hs : s.script = .rst level :: rest) : StepEffect s (setRst level u)

/-- STATUS is reached by a whole-word access at 0x000C only (20_memory.md R84, R85). -/
theorem accessed_eq_status_iff {off : Offset} {be : BitVec 4} :
    accessed off be = .status ↔ off = 0x000C ∧ be = 0b1111 := by
  constructor
  · intro h
    simp only [accessed, regAt] at h
    split at h
    · cases h
    · next hfull =>
      push Not at hfull
      split_ifs at h with _ _ _ hoff
      exact ⟨BitVec.eq_of_toNat_eq hoff, hfull.2⟩
  · rintro ⟨rfl, rfl⟩
    rfl

theorem engineTurn_effect {s u t : State} (hu : SameRegs s u) (h : engineTurn u = .next t) : StepEffect s t := by
  rcases engineTurn_next_cases h with ⟨_, rfl⟩ | ⟨hr, hp, rfl⟩ | ⟨hr, hp, rfl⟩
  · exact .quiet (hu.after_setActor _)
  · exact .completeReset (hu.after_setActor _) (hu.rst ▸ hr) (hu.pending ▸ hp)
  · exact .completeDecode (hu.after_setActor _) (hu.rst ▸ hr) (hu.pending ▸ hp)

/-- A command that the host issues is without effect, rejected or accepted (46_commands.md R230). -/
theorem exec_host_effect {i : Instr} {s u t : State} (hu : SameRegs s u) (hr : s.rst = false) (ha : u.actor = .host)
    (h : exec i u = .next t) : StepEffect s t := by
  rcases exec_next_cases h with ⟨_, rfl⟩ | ⟨_, _, rfl⟩ | ⟨_, he, _⟩ | ⟨_, _, rfl⟩ | ⟨_, he, _⟩
  · exact .quiet hu
  · rcases issueReset_cases u with ⟨_, hi⟩ | ⟨hb, hi⟩ <;> rw [hi]
    · exact .reject hu hr
    · exact .acceptReset hu hr (hu.status ▸ hb)
  · exact absurd (ha.symm.trans he) (by decide)
  · rcases issueDecode_cases u with ⟨_, hi⟩ | ⟨hb, hi⟩ <;> rw [hi]
    · exact .reject hu hr
    · exact .acceptDecode hu hr (hu.status ▸ hb)
  · exact absurd (ha.symm.trans he) (by decide)

theorem hostRead_effect {s u : State} (hu : SameRegs s u) (P : Params) (off : Offset) (be : BitVec 4) :
    StepEffect s (hostRead P off be u) := by
  rcases hostRead_cases P off be u with ⟨_, h⟩ | ⟨_, w, _, h⟩ | ⟨_, mask, w, d, _, h, _⟩ | ⟨hr, _, h⟩ <;> rw [h]
  · exact .quiet (hu.after_setRdata _)
  · exact .quiet (hu.after_setRdata _)
  · exact .quiet (hu.after_drawFree.after_setRdata _)
  · exact .refuse (hu.after_setRdata 0) (hu.rst ▸ hr)

theorem hostWrite_effect {s u t : State} {off : Offset} {be : BitVec 4} {d : Word32} {rest : List PortEvent}
    (hu : SameRegs s u) (hs : s.script = .write off be d :: rest) (h : hostWrite off be d u = .done t) :
    StepEffect s t := by
  rcases hostWrite_cases off be d u with ⟨_, hw⟩ | ⟨_, _, hw⟩ | ⟨hr, ha, hw⟩ | ⟨hr, j, _, hw⟩ | ⟨hr, hw⟩ <;>
    rw [hw] at h <;> cases h
  · exact .quiet hu
  · obtain ⟨rfl, rfl⟩ := accessed_eq_status_iff.mp ha
    exact .writeStatus hu (hu.rst ▸ hr) hs
  · exact .writeFrameIn j d hu (hu.rst ▸ hr)
  · exact .refuse hu (hu.rst ▸ hr)

/-- Every step has one of the effects of `StepEffect`. -/
theorem step_effect {s t : State} (h : step s = .next t) : StepEffect s t := by
  rcases step_next_cases h with ⟨_, ht⟩ | ⟨rest, _, ht⟩ | ⟨level, rest, hs, rfl⟩ | ⟨off, be, rest, _, rfl⟩ |
    ⟨off, be, d, rest, hs, ht⟩ | ⟨off, be, d, rest, _, hr, _, _, rfl⟩ | ⟨off, be, d, rest, i, _, hr, _, _, ht⟩
  · exact engineTurn_effect (.withScript s s.script) ht
  · exact engineTurn_effect (.withScript s rest) ht
  · exact .setRst (.withScript s rest) hs
  · exact hostRead_effect ((SameRegs.withScript s rest).after_setActor _) _ off be
  · exact hostWrite_effect ((SameRegs.withScript s rest).after_setActor _) hs ht
  · exact .reject ((SameRegs.withScript s rest).after_setActor _) hr
  · exact exec_host_effect ((SameRegs.withScript s rest).after_setActor _) hr rfl ht

/-! ### The sticky flags (10_state.md R42) -/

/-- No sticky bit that is set in st is cleared in st'. -/
structure StickyKept (st st' : Status) : Prop where
  lagoor : st.lagoor = true → st'.lagoor = true
  cmderr : st.cmderr = true → st'.cmderr = true
  accerr : st.accerr = true → st'.accerr = true

/-- A step keeps the sticky bits, writes STATUS, or asserts `rst`. -/
theorem step_keeps_sticky_or {s t : State} (h : step s = .next t) :
    StickyKept s.status t.status ∨
    (∃ d rest, s.script = .write 0x000C 0b1111 d :: rest ∧ t.status = statusWriteOne s.status d) ∨
    ∃ rest, s.script = .rst true :: rest := by
  cases step_effect h with
  | quiet hu | refuse hu | reject hu => exact .inl (by constructor <;> simp [hu.status])
  | writeStatus hu _ hs => exact .inr (.inl ⟨_, _, hs, congrArg (statusWriteOne · _) hu.status⟩)
  | writeFrameIn j d hu | acceptReset hu | acceptDecode hu | completeReset hu =>
    exact .inl (by constructor <;> simp [hu.status])
  | completeDecode hu => exact .inl (by constructor <;> simp +contextual [hu.status])
  | @setRst u level rest hu hs =>
    cases level with
    | true => exact .inr (.inr ⟨rest, hs⟩)
    | false => exact .inl (by constructor <;> simp [setRst, hu.status])

/-- Settles O56, from the three things a step can do to the sticky bits. -/
theorem stickyFlagsNeedExplicitClear : Obligations.StickyFlagsNeedExplicitClear := by
  intro s t h clearedBy
  rcases step_keeps_sticky_or h with hk | ⟨d, rest, hs, ht⟩ | ⟨rest, hs⟩
  · refine ⟨fun h1 h0 => ?_, fun h1 h0 => ?_, fun h1 h0 => ?_⟩
    · exact absurd (hk.lagoor h1) (by simp [h0])
    · exact absurd (hk.cmderr h1) (by simp [h0])
    · exact absurd (hk.accerr h1) (by simp [h0])
  · refine ⟨fun h1 h0 => .inl ⟨d, rest, hs, ?_⟩, fun h1 h0 => .inl ⟨d, rest, hs, ?_⟩, fun h1 h0 => .inl ⟨d, rest, hs, ?_⟩⟩
    all_goals simpa [ht, h1] using h0
  · exact ⟨fun _ _ => .inr ⟨rest, hs⟩, fun _ _ => .inr ⟨rest, hs⟩, fun _ _ => .inr ⟨rest, hs⟩⟩

/-! ### RESET on the decoder state (10_state.md R61) -/

theorem exec_reset_engine {s : State} (ha : s.actor = .engine) : exec .reset s = .next (completeReset s) := by
  simp only [exec, execReset, ha]

/-- Settles O6: both completions give the reset state. -/
theorem resetIsIdempotent : Obligations.ResetIsIdempotent := by
  intro s ha
  have ha' : (completeReset s).actor = .engine := by rw [completeReset_actor, ha]
  refine ⟨completeReset s, completeReset (completeReset s), exec_reset_engine ha, exec_reset_engine ha', ?_, fun hs => ?_⟩
  · simp only [completeReset_eng]
  · rw [completeReset_eng, hs]
    rfl

end Sys2Proof.Machine
end

section
/-! PROOFS. The ratio ladder (10_state.md R56, statement O27): its integers stay within 16 bits, and both formats hold a
16-bit integer over 32768 exactly. -/

namespace Sys2Proof.Machine

open Sys2Proof

/-! ### The integers of the ladder -/

theorem ratioInt_succ_of_lt (P : Params) {k : Nat} (hk : k < 13) :
    ratioInt P (k + 1) = max (-1768) (min (ratioInt P k) (P.ratioInt (k + 1))) := by
  rw [ratioInt, if_neg (by omega)]

theorem ratioInt_of_ge (P : Params) {k : Nat} (hk : 14 ≤ k) : ratioInt P k = -1768 := by
  obtain ⟨j, rfl⟩ : ∃ j, k = j + 1 := ⟨k - 1, by omega⟩
  rw [ratioInt, if_pos hk]

/-- No ratio is below the last one. -/
theorem neg_1768_le_ratioInt (P : Params) (k : Nat) : -1768 ≤ ratioInt P k := by
  cases k with
  | zero => simp [ratioInt]
  | succ k =>
    rcases lt_or_ge k 13 with hk | hk
    · rw [ratioInt_succ_of_lt P hk]
      exact le_max_left _ _
    · rw [ratioInt_of_ge P (by omega)]

theorem ratioInt_succ_le (P : Params) (k : Nat) : ratioInt P (k + 1) ≤ ratioInt P k := by
  have hlow := neg_1768_le_ratioInt P k
  rcases lt_or_ge k 13 with hk | hk
  · rw [ratioInt_succ_of_lt P hk]
    exact max_le hlow (min_le_left _ _)
  · rwa [ratioInt_of_ge P (by omega : 14 ≤ k + 1)]

/-- No ratio is above the first one. -/
theorem ratioInt_le_32190 (P : Params) (k : Nat) : ratioInt P k ≤ 32190 :=
  antitone_nat_of_succ_le (ratioInt_succ_le P) (Nat.zero_le k)

theorem natAbs_ratioInt_lt (P : Params) (k : Nat) : (ratioInt P k).natAbs < 2 ^ 15 := by
  have hlow := neg_1768_le_ratioInt P k
  have hhigh := ratioInt_le_32190 P k
  omega

/-! ### Exact table entries -/

/-- A number that some finite value of the format is, is rounded to a value that is the same number. -/
theorem RoundedTo.numRat_eq {f : NumFmt} {x : ℚ} {y z : NumVal} (h : RoundedTo f x y) (hy : isFinite y = true)
    (hz : numWf f z = true) (hzf : isFinite z = true) (hzx : numRat z = x) : numRat y = x := by
  have hle := h.nearest hy z hz hzf
  rw [hzx, sub_self, abs_zero] at hle
  exact sub_eq_zero.mp (abs_nonpos_iff.mp hle)

theorem numRat_finiteEntry {x : NumVal} (h : isFinite x = true) : numRat (finiteEntry x) = numRat x := by
  obtain ⟨s, m, e, rfl⟩ := isFinite_iff.mp h
  rw [finiteEntry]
  split
  · next hm => rw [numRat_fin_eq_zero_iff.mpr hm, NumVal.zero, numRat_fin_eq_zero_iff.mpr rfl]
  · rfl

/-- A number below 1 in magnitude does not overflow. -/
theorem RoundedTo.isFinite_of_abs_lt_one {f : NumFmt} {x : ℚ} {y : NumVal} (h : RoundedTo f x y) (hx : |x| < 1) :
    isFinite y = true := by
  refine h.finite ?_
  have hone : (1 : ℚ) ≤ 2 ^ fmtEmax f := one_le_zpow₀ one_le_two (by cases f <;> decide)
  have hhalf : (2 : ℚ) ^ (fmtEmax f - (fmtPrec f : Int)) ≤ 2 ^ fmtEmax f := zpow_le_zpow_right₀ one_le_two (by omega)
  calc |x| + (2 : ℚ) ^ (fmtEmax f - (fmtPrec f : Int)) < 2 ^ fmtEmax f + 2 ^ fmtEmax f := by linarith
    _ = 2 ^ (fmtEmax f + 1) := by rw [zpow_add_one₀ two_ne_zero]; ring

/-- The integer n over 2^15 is a value of both formats when n has at most 15 bits. -/
theorem numRat_scaledEntry_of_lt (f : NumFmt) {n : Int} (hn : n.natAbs < 2 ^ 15) :
    numRat (scaledEntry f n 15) = n / 32768 := by
  have hx : signFactor (decide (n < 0)) * (n.natAbs : ℚ) * (2 : ℚ) ^ (-(15 : Nat) : Int) = n / 32768 := by
    rw [signFactor_mul_natAbs, zpow_neg, zpow_natCast, div_eq_mul_inv]
    norm_num
  have hround := roundedTo_roundTo_exact f (decide (n < 0)) n.natAbs (-(15 : Nat))
  rw [hx] at hround
  have habs : |(n : ℚ) / 32768| < 1 := by
    have hnq : |(n : ℚ)| < 32768 := by exact_mod_cast (show |n| < 32768 by rw [Int.abs_eq_natAbs]; omega)
    rw [abs_div, abs_of_pos (by norm_num : (0 : ℚ) < 32768), div_lt_one (by norm_num)]
    exact hnq
  have hfin := hround.isFinite_of_abs_lt_one habs
  have hlog : Nat.log2 n.natAbs < 15 := by
    rcases eq_or_ne n.natAbs 0 with h0 | h0
    · rw [h0]; decide
    · exact (Nat.log2_lt h0).mpr hn
  have hwf : numWf f (normalize (decide (n < 0)) n.natAbs (-(15 : Nat))) = true := by
    apply numWf_normalize
    · exact hn.le.trans (Nat.pow_le_pow_right two_pos (by cases f <;> decide))
    · cases f <;> decide
    · cases f <;> simp only [fmtEmax] <;> omega
  rw [scaledEntry, numRat_finiteEntry hfin]
  exact hround.numRat_eq hfin hwf (isFinite_normalize _ _ _) ((numRat_normalize _ _ _).trans hx)

/-- Settles O27. -/
theorem ratioLadderDescends : Obligations.RatioLadderDescends := fun P =>
  ⟨rfl, ratioInt_of_ge P le_rfl, fun k _ => ratioInt_succ_le P k,
    fun k _ => numRat_scaledEntry_of_lt P.numfmt (natAbs_ratioInt_lt P k)⟩

end Sys2Proof.Machine
end

section
/-! PROOFS. What the operations of a DECODE do to CURSOR, LPC, CUR_GE and CGP: of the fourteen parts of a codebook step,
READ_CB alone moves the cursor, CUR_ENERGY_STEP alone changes CUR_GE, GAIN_POWER_SELECT alone changes CGP, and none changes
LPC. With it the statement O28. -/

namespace Sys2Proof.Machine

open Sys2Proof

/-! ### The bit reader moves the cursor and leaves LPC -/

/-- GETBITS moves the cursor by its width (40_bitreader.md R150). -/
theorem getBits_cursor (n : Nat) (e : Engine) : (getBits n e).2.wk.cursor = e.wk.cursor + BitVec.ofNat 9 n := by
  rw [getBits_wk]
  exact BitVec.eq_of_toNat_eq (by simp)

@[simp] theorem unpackLag_cursor (P : Params) (s : Nat) (e : Engine) :
    (unpackLag P s e).wk.cursor = e.wk.cursor + 13 := by
  simp only [unpackLag, getBits_cursor, BitVec.add_assoc]
  rfl

@[simp] theorem unpackLsf_cursor (P : Params) (i : Nat) (e : Engine) :
    (unpackLsf P i e).wk.cursor = e.wk.cursor + BitVec.ofNat 9 (lsfBits i) := by
  simp only [unpackLsf, getBits_cursor]

@[simp] theorem readCb_cursor (e : Engine) : (readCb e).wk.cursor = e.wk.cursor + 6 := by
  simp only [readCb, getBits_cursor, BitVec.add_assoc]
  rfl

@[simp] theorem unpackLag_lpc (P : Params) (s : Nat) (e : Engine) : (unpackLag P s e).wk.lpc = e.wk.lpc := by
  simp only [unpackLag, getBits_wk]

@[simp] theorem unpackLsf_lpc (P : Params) (i : Nat) (e : Engine) : (unpackLsf P i e).wk.lpc = e.wk.lpc := by
  simp only [unpackLsf, getBits_wk]

@[simp] theorem readCb_lpc (e : Engine) : (readCb e).wk.lpc = e.wk.lpc := by
  simp only [readCb, getBits_wk]

@[simp] theorem unpackHeader_lpc (P : Params) (e : Engine) : (unpackHeader P e).wk.lpc = e.wk.lpc := by
  simp only [unpackHeader]
  exact (forRange_frame (by omega) _ (fun t : Engine => t.wk.lpc) (unpackLsf_lpc P) _).trans
    ((forRange_frame (by omega) _ (fun t : Engine => t.wk.lpc) (unpackLag_lpc P) _).trans (by simp))

/-! ### The parts of a codebook step -/

@[simp] theorem pitchTap_cursor (P : Params) (R : Int) (c : Vector NumVal 3) (i : Nat) (e : Engine) :
    (pitchTap P R c i e).wk.cursor = e.wk.cursor := by simp only [pitchTap, lagRead_wk]

@[simp] theorem pitchTap_lpc (P : Params) (R : Int) (c : Vector NumVal 3) (i : Nat) (e : Engine) :
    (pitchTap P R c i e).wk.lpc = e.wk.lpc := by simp only [pitchTap, lagRead_wk]

@[simp] theorem pitch_cursor (P : Params) (s v : Nat) (e : Engine) : (pitch P s v e).wk.cursor = e.wk.cursor :=
  forRange_frame (by omega) _ (fun t : Engine => t.wk.cursor) (pitchTap_cursor P _ _) e

@[simp] theorem pitch_lpc (P : Params) (s v : Nat) (e : Engine) : (pitch P s v e).wk.lpc = e.wk.lpc :=
  forRange_frame (by omega) _ (fun t : Engine => t.wk.lpc) (pitchTap_lpc P _ _) e

@[simp] theorem maybeGainPower_wk (P : Params) (s v : Nat) (e : Engine) : (maybeGainPower P s v e).wk = e.wk := by
  rw [maybeGainPower]
  split
  · rw [gainPowerSelect_wk]
  · rfl

/-- Step 4 changes no more than CGP, and that at step 0 of subframes 1 to 3 only (42_gain.md R180). -/
@[simp] theorem maybeGainPower_dec (P : Params) (s v : Nat) (e : Engine) :
    (maybeGainPower P s v e).dec = { e.dec with
      cgp := if s ≠ 0 ∧ v = 0 then ladderPower P (currentEnergy P e) (previousEnergy P e) else e.dec.cgp } := by
  rw [maybeGainPower]
  split
  · rw [gainPowerSelect_dec]
  · rfl

/-! ### The codebook step -/

theorem codebookStep_cursor (P : Params) (s v : Nat) (e : Engine) :
    (codebookStep P s v e).wk.cursor = e.wk.cursor + 6 := by
  simp [codebookStep, sampleSteps, gainSteps]

theorem codebookStep_lpc (P : Params) (s v : Nat) (e : Engine) : (codebookStep P s v e).wk.lpc = e.wk.lpc := by
  simp [codebookStep, sampleSteps, gainSteps]

theorem codebookStep_curGe (P : Params) (s v : Nat) (e : Engine) :
    (codebookStep P s v e).dec.curGe = energyUpdate P e.dec.curGl e.dec.curGl e.dec.curGe := by
  simp [codebookStep, sampleSteps, gainSteps]

/-- A codebook step leaves CGP or gives it a power of the ladder (10_state.md R37). -/
theorem codebookStep_cgp (P : Params) (s v : Nat) (e : Engine) :
    ∃ cE pE, (codebookStep P s v e).dec.cgp = if s ≠ 0 ∧ v = 0 then ladderPower P cE pE else e.dec.cgp := by
  simp only [codebookStep, sampleSteps, gainSteps, emit_dec, lpcSynth_dec, lagWrite_dec, combine_dec, pitch_dec,
    signApply_dec, gainLevelUpdate_dec, readCb_dec, cbGain_dec, cbLevel_dec, maybeGainPower_dec, prevEnergyStep_dec,
    curEnergyStep_dec, captureE2_dec, setSeq_dec]
  exact ⟨_, _, rfl⟩

/-- Settles O28: the case of `codebookStep_cgp` in which CGP is left. -/
theorem gainPowerPersistsOutsideSubframeStart : Obligations.GainPowerPersistsOutsideSubframeStart := by
  intro P s v e h
  obtain ⟨cE, pE, hcgp⟩ := codebookStep_cgp P s v e
  rw [hcgp, if_neg h]

end Sys2Proof.Machine
end

section
/-! PROOFS. The machine's invariant (10_state.md R38, R39, R45; 20_memory.md R80): the statement O57. A DECODE keeps the
clauses on its own state because CGP only takes powers of the ladder, the converter gives lpc[0] = 1, and the energy tracker
adds products of equal signs; the clauses on BUSY and `rst` follow from the cases of `StepEffect`. -/

namespace Sys2Proof.Machine

open Sys2Proof

/-! ### lpc[0] (10_state.md R38) -/

theorem rd_lpcPair_zero (P : Params) (f : NumVal) {a b : Nat} (ha : 1 ≤ a) (hb : 1 ≤ b) (lpc : Vector NumVal 11) :
    rd (lpcPair P f a b lpc) 0 = rd lpc 0 := by
  rw [lpcPair, rd_wr_other _ _ (by omega), rd_wr_other _ _ (by omega)]

theorem rd_lpcWhile_zero (P : Params) (f : NumVal) (fuel : Nat) {a b : Nat} (ha : 1 ≤ a) (lpc : Vector NumVal 11) :
    rd (lpcWhile P f fuel a b lpc) 0 = rd lpc 0 := by
  induction fuel generalizing a b lpc with
  | zero => rfl
  | succ fuel ih =>
    rw [lpcWhile]
    split
    · rw [ih (by omega), rd_lpcPair_zero P f ha (by omega)]
    · rfl

theorem rd_lpcIteration_zero (P : Params) (f : NumVal) {i : Nat} (hi : 1 ≤ i) (lpc : Vector NumVal 11) :
    rd (lpcIteration P f i lpc) 0 = rd lpc 0 := by
  rw [lpcIteration, rd_lpcWhile_zero P f i le_rfl, rd_wr_other _ _ (by omega)]

/-- LSF_TO_LPC unfolded once (41_lsf.md R160). -/
theorem lsfToLpc_eq (P : Params) (x : Vector NumVal 10) : lsfToLpc P x =
    forRange 1 11 (fun i lpc => lpcIteration P (rd x (i - 1)) i lpc)
      (wr (Vector.replicate 11 NumVal.zero) 0 (numOfInt 1)) := by
  unfold lsfToLpc
  rfl

/-- The converter's result starts with 1 (41_lsf.md R163). -/
theorem rd_lsfToLpc_zero (P : Params) (x : Vector NumVal 10) : rd (lsfToLpc P x) 0 = numOfInt 1 := by
  have hstart : rd (wr (Vector.replicate 11 NumVal.zero) 0 (numOfInt 1)) 0 = numOfInt 1 :=
    rd_wr_same _ _ (i := 0) (by omega)
  rw [lsfToLpc_eq]
  refine forRange_induct (by omega : 1 ≤ 11) _ (fun _ lpc => rd lpc 0 = numOfInt 1) _ hstart fun i lpc hi _ h => ?_
  rw [rd_lpcIteration_zero P _ hi, h]

/-! ### CUR_GE (10_state.md R39) -/

theorem nonNegOrNaN_iff {x : NumVal} : nonNegOrNaN x = true ↔ isNaN x = true ∨ signBit x = false := by
  simp [nonNegOrNaN]

theorem isNaN_iff {x : NumVal} : isNaN x = true ↔ ∃ s p, x = .nan s p := by
  cases x <;> simp [isNaN]

theorem isNaN_fmul_of_isNaN (P : Params) {a b : NumVal} (h : isNaN a = true ∨ isNaN b = true) :
    isNaN (fmul P a b) = true := by
  rcases h with h | h <;> obtain ⟨s, p, rfl⟩ := isNaN_iff.mp h
  · rfl
  · cases a <;> rfl

/-- The sign of a product is the product of the signs (00_scope.md R12). -/
theorem isNaN_or_signBit_fmul (P : Params) (a b : NumVal) :
    isNaN (fmul P a b) = true ∨ signBit (fmul P a b) = (signBit a != signBit b) := by
  unfold fmul
  split
  · exact .inl (isNaN_freeNaN _ _ _ _)
  · exact .inl (isNaN_freeNaN _ _ _ _)
  · exact .inr rfl
  · split
    · exact .inl (isNaN_freeNaN _ _ _ _)
    · exact .inr rfl
  · split
    · exact .inl (isNaN_freeNaN _ _ _ _)
    · exact .inr rfl
  · exact .inr (signBit_roundTo _ _ _ _)

/-- A square is not negative. -/
theorem nonNegOrNaN_fmul_self (P : Params) (a : NumVal) : nonNegOrNaN (fmul P a a) = true :=
  nonNegOrNaN_iff.mpr ((isNaN_or_signBit_fmul P a a).imp_right fun h => by rw [h, bne_self_eq_false])

theorem nonNegOrNaN_fmul (P : Params) {a b : NumVal} (ha : nonNegOrNaN a = true) (hb : nonNegOrNaN b = true) :
    nonNegOrNaN (fmul P a b) = true := by
  rw [nonNegOrNaN_iff] at *
  rcases ha with ha | ha
  · exact .inl (isNaN_fmul_of_isNaN P (.inl ha))
  rcases hb with hb | hb
  · exact .inl (isNaN_fmul_of_isNaN P (.inr hb))
  · exact (isNaN_or_signBit_fmul P a b).imp_right fun h => by rw [h, ha, hb, bne_self_eq_false]

/-- The exact sum of two numbers that carry a plus sign is not negative. -/
theorem alignedSum_nonneg (m : Nat) (e : Int) (n : Nat) (g : Int) : 0 ≤ alignedSum false m e false n g := by
  simp only [alignedSum, signedInt, Bool.false_eq_true, if_false]
  positivity

theorem nonNegOrNaN_fadd (P : Params) {a b : NumVal} (ha : nonNegOrNaN a = true) (hb : nonNegOrNaN b = true) :
    nonNegOrNaN (fadd P a b) = true := by
  have hinv : nonNegOrNaN (freeNaN P .add a b) = true := nonNegOrNaN_iff.mpr (.inl rfl)
  rw [fadd]
  generalize freeNaN P .add a b = inv at hinv
  unfold sumOr
  split
  · exact hinv
  · exact hinv
  · split
    · exact ha
    · exact hinv
  · exact ha
  · exact hb
  · next s m e t n g =>
    obtain rfl : s = false := by simpa [nonNegOrNaN, isNaN, signBit] using ha
    obtain rfl : t = false := by simpa [nonNegOrNaN, isNaN, signBit] using hb
    have hsum := alignedSum_nonneg m e n g
    dsimp only
    split
    · rfl
    · exact nonNegOrNaN_iff.mpr (.inr (by rw [signBit_roundTo]; simpa using hsum))

theorem nonNegOrNaN_kGef (P : Params) : nonNegOrNaN (kGef P) = true := by
  refine nonNegOrNaN_iff.mpr (.inr ?_)
  rw [kGef, num, if_neg (by decide), roundQuotient, signBit_roundTo]
  rfl

/-- The cascade of ENERGY_UPDATE (42_gain.md R175): what holds of the product, of the old components, and passes on to
acc +f K_GEF *f component, holds of the new components. -/
theorem energyUpdate_forall (P : Params) (Q : NumVal → Prop) {g1 g2 : NumVal} {ge : Vector NumVal 3}
    (hprod : Q (fmul P g1 g2)) (hge : ∀ i < 3, Q (rd ge i))
    (hacc : ∀ acc x, Q acc → Q x → Q (fadd P acc (fmul P (kGef P) x))) :
    ∀ i < 3, Q (rd (energyUpdate P g1 g2 ge) i) := by
  rw [energyUpdate]
  refine (forRange_induct (by omega : 0 ≤ 3) _
    (fun _ (r : NumVal × Vector NumVal 3) => Q r.1 ∧ ∀ i < 3, Q (rd r.2 i)) _ ⟨hprod, hge⟩ ?_).2
  rintro k ⟨acc, x⟩ _ hk ⟨hfst, hsnd⟩
  have hnew := hacc acc _ hfst (hsnd k hk)
  refine ⟨hnew, fun i hi => ?_⟩
  rw [rd_wr]
  split
  · exact hnew
  · exact hsnd i hi

/-- The tracker of CUR_GE adds squares and multiples of components, so no component becomes negative (42_gain.md R179). -/
theorem nonNegOrNaN_energyUpdate (P : Params) (g : NumVal) {ge : Vector NumVal 3}
    (hge : ∀ i < 3, nonNegOrNaN (rd ge i) = true) : ∀ i < 3, nonNegOrNaN (rd (energyUpdate P g g ge) i) = true :=
  energyUpdate_forall P (nonNegOrNaN · = true) (nonNegOrNaN_fmul_self P g) hge fun _ _ hacc hx =>
    nonNegOrNaN_fadd P hacc (nonNegOrNaN_fmul P (nonNegOrNaN_kGef P) hx)

/-! ### CGP (10_state.md R38) -/

theorem ladderPower_mem_cgpValues (P : Params) (cE pE : NumVal) : ladderPower P cE pE ∈ cgpValues P := by
  rw [ladderPower]
  split
  · next k hk => exact List.mem_cons_of_mem _ (List.mem_map_of_mem (List.mem_of_find?_eq_some hk))
  · exact List.mem_cons_self

/-! ### DECODE_FRAME keeps the clauses on its own state -/

/-- The clauses of `State.Inv` that speak of the engine alone. -/
structure Engine.Inv (P : Params) (e : Engine) : Prop where
  cgp : cgpLegal P e.dec
  lpc0 : rd e.wk.lpc 0 = numOfInt 1
  curGe : curGeNonNeg e.dec

namespace Engine.Inv

variable {P : Params} {e t : Engine}

/-- Only CGP, CUR_GE and LPC matter. -/
theorem congr (h : e.Inv P) (hcgp : t.dec.cgp = e.dec.cgp) (hlpc : t.wk.lpc = e.wk.lpc)
    (hge : t.dec.curGe = e.dec.curGe) : t.Inv P where
  cgp := by rw [cgpLegal, hcgp]; exact h.cgp
  lpc0 := by rw [hlpc]; exact h.lpc0
  curGe := by rw [curGeNonNeg, hge]; exact h.curGe

theorem after_codebookStep (h : e.Inv P) (s v : Nat) : (codebookStep P s v e).Inv P where
  cgp := by
    obtain ⟨cE, pE, hcgp⟩ := codebookStep_cgp P s v e
    rw [cgpLegal, hcgp]
    split
    · exact ladderPower_mem_cgpValues P cE pE
    · exact h.cgp
  lpc0 := by rw [codebookStep_lpc]; exact h.lpc0
  curGe := by rw [curGeNonNeg, codebookStep_curGe]; exact nonNegOrNaN_energyUpdate P _ h.curGe

theorem after_subframeStart (h : e.Inv P) (s : Nat) : (subframeStart P s e).Inv P where
  cgp := by simpa [subframeStart, cgpLegal] using h.cgp
  lpc0 := by simp [subframeStart, rd_lsfToLpc_zero]
  curGe := by simpa [subframeStart, curGeNonNeg] using h.curGe

theorem after_subframe (h : e.Inv P) (s : Nat) : (subframe P s e).Inv P :=
  forRange_induct (by omega : 0 ≤ 12) _ (fun _ t => Engine.Inv P t) _ (h.after_subframeStart s)
    fun v _ _ _ ht => ht.after_codebookStep s v

theorem after_decodeFrame (h : e.Inv P) : (decodeFrame P e).Inv P := by
  have hheader : (unpackHeader P (setSeq 0 0 .unpack (clearOor e))).Inv P := h.congr (by simp) (by simp) (by simp)
  have hframes := forRange_induct (by omega : 0 ≤ 4) (subframe P) (fun _ t => Engine.Inv P t) _ hheader
    fun s _ _ _ ht => ht.after_subframe s
  rw [decodeFrame]
  exact hframes.congr (by simp) (by simp) (by simp)

/-- RESET gives CGP the power of row 14, and CUR_GE zeros (10_state.md R60). -/
theorem of_dec_reset (hlpc : rd e.wk.lpc 0 = numOfInt 1) (hdec : e.dec = Decoder.reset) : e.Inv P where
  cgp := by
    rw [cgpLegal, hdec]
    exact List.mem_cons_of_mem _ (List.mem_map.mpr ⟨14, by decide, rfl⟩)
  lpc0 := hlpc
  curGe := by
    intro i hi
    rw [hdec]
    exact congrArg nonNegOrNaN (rd_replicate NumVal.zero hi)

end Engine.Inv

theorem Engine.reset_inv (P : Params) : Engine.reset.Inv P := .of_dec_reset rfl rfl

/-! ### The clauses on the whole machine -/

/-- What a step does to the decoder state and the working registers: nothing, a completion, or a reset. -/
theorem step_eng_cases {s t : State} (h : step s = .next t) :
    (t.eng.dec = s.eng.dec ∧ t.eng.wk = s.eng.wk ∧ t.out = s.out) ∨
    (t.eng.dec = Decoder.reset ∧ t.eng.wk = s.eng.wk ∧ t.out = s.out) ∨
    (t.eng = decodeFrame Config.params s.eng ∧ t.out = t.eng.wk.outbuf) ∨
    (t.eng = Engine.reset ∧ t.out = Vector.replicate 192 NumVal.zero) := by
  cases step_effect h with
  | quiet hu | refuse hu | reject hu | writeStatus hu | writeFrameIn j d hu | acceptReset hu | acceptDecode hu =>
    exact .inl (by simp [hu.eng, hu.out])
  | completeReset hu => exact .inr (.inl (by simp [hu.eng, hu.out]))
  | completeDecode hu => exact .inr (.inr (.inl (by simp [hu.eng])))
  | @setRst u level _ hu =>
    cases level with
    | true => exact .inr (.inr (.inr ⟨rfl, rfl⟩))
    | false => exact .inl ⟨congrArg Engine.dec hu.eng, congrArg Engine.wk hu.eng, hu.out⟩

theorem step_keeps_engineInv {s t : State} (h : step s = .next t) (hs : s.eng.Inv Config.params) :
    t.eng.Inv Config.params := by
  rcases step_eng_cases h with ⟨hdec, hwk, _⟩ | ⟨hdec, hwk, _⟩ | ⟨heng, _⟩ | ⟨heng, _⟩
  · exact hs.congr (by rw [hdec]) (by rw [hwk]) (by rw [hdec])
  · exact .of_dec_reset (by rw [hwk]; exact hs.lpc0) hdec
  · exact heng ▸ hs.after_decodeFrame
  · exact heng ▸ Engine.reset_inv _

/-- BUSY is set with PENDING at acceptance and cleared with it at completion and by `rst` (10_state.md R45). -/
theorem step_keeps_pendingAgrees {s t : State} (h : step s = .next t) (hs : pendingAgrees s = true) :
    pendingAgrees t = true := by
  cases step_effect h with
  | quiet hu | refuse hu | reject hu | writeStatus hu | writeFrameIn j d hu =>
    simpa [pendingAgrees, hu.status, hu.pending] using hs
  | acceptReset hu | acceptDecode hu | completeReset hu | completeDecode hu => simp [pendingAgrees]
  | @setRst u level _ hu =>
    cases level with
    | true => rfl
    | false => simpa [pendingAgrees, setRst, hu.status, hu.pending] using hs

/-- The power-on state, register by register (10_state.md R60). -/
theorem heldInReset_iff (s : State) : heldInReset s ↔ (s.rst = true → s.eng = Engine.reset ∧
    s.frameIn = Vector.replicate 12 0 ∧ s.out = Vector.replicate 192 NumVal.zero ∧ s.status = Status.reset ∧
    s.pending = .none) := by
  refine forall_congr' fun hr => ?_
  obtain ⟨eng, frameIn, out, status, pending, rst, rdata, script, actor, freeCount⟩ := s
  obtain rfl : rst = true := hr
  simp [powerOn, State.reset]

theorem SameRegs.heldInReset {s u : State} (hu : SameRegs s u) (hs : heldInReset s) : heldInReset u := by
  rw [heldInReset_iff] at *
  rwa [hu.eng, hu.frameIn, hu.out, hu.status, hu.pending, hu.rst]

theorem heldInReset_of_rst_eq_false {s : State} (hr : s.rst = false) : heldInReset s := fun h =>
  absurd (hr.symm.trans h) (by decide)

/-- While `rst` is asserted a step changes none of the engine's registers (20_memory.md R80). -/
theorem step_keeps_heldInReset {s t : State} (h : step s = .next t) (hs : heldInReset s) : heldInReset t := by
  cases step_effect h with
  | quiet hu => exact hu.heldInReset hs
  | refuse hu hr | reject hu hr | writeStatus hu hr | writeFrameIn j d hu hr | acceptReset hu hr
  | acceptDecode hu hr | completeReset hu hr | completeDecode hu hr =>
    exact heldInReset_of_rst_eq_false (by simp [hu.rst, hr])
  | @setRst u level _ hu =>
    cases level with
    | true => exact (heldInReset_iff _).mpr fun _ => ⟨rfl, rfl, rfl, rfl, rfl⟩
    | false => exact heldInReset_of_rst_eq_false rfl

theorem State.inv_iff {P : Params} {s : State} :
    s.Inv P ↔ pendingAgrees s = true ∧ s.eng.Inv P ∧ heldInReset s :=
  ⟨fun h => ⟨h.pending, ⟨h.cgp, h.lpc0, h.curGe⟩, h.held⟩,
    fun ⟨hp, he, hh⟩ => ⟨hp, he.cgp, he.lpc0, he.curGe, hh⟩⟩

/-- Settles O57: each group of clauses is kept on its own. -/
theorem stepKeepsMachineInvariant : Obligations.StepKeepsMachineInvariant := by
  intro s t hs h
  obtain ⟨hpending, heng, hheld⟩ := State.inv_iff.mp hs
  exact State.inv_iff.mpr
    ⟨step_keeps_pendingAgrees h hpending, step_keeps_engineInv h heng, step_keeps_heldInReset h hheld⟩

theorem State.reset_inv (P : Params) : State.reset.Inv P :=
  State.inv_iff.mpr ⟨rfl, Engine.reset_inv P, heldInReset_of_rst_eq_false rfl⟩

end Sys2Proof.Machine
end

section
/-! PROOFS. All numbers stay values of NUMFMT and CURSOR stays at most 384 (10_state.md R30, R46): the statement O58, and the
statement O59 on the power-on state. Every number a DECODE stores is the result of an operation, a table entry, a constant or
a number that was stored already. The cursor is followed exactly: 96 after the header, and 6 more per codebook step. -/

namespace Sys2Proof.Machine

open Sys2Proof

/-! ### Vectors of numbers -/

section

variable {f : NumFmt} {n : Nat} {x : Vector NumVal n}

/-- An element is a value of the format, and so is the default an index outside gives. -/
theorem allWf.rd (h : allWf f x) (i : Nat) : numWf f (rd x i) = true := by
  rcases lt_or_ge i n with hi | hi
  · exact h i hi
  · have hout : Machine.rd x i = default := by simp [Machine.rd, hi]
    rw [hout]
    exact numWf_zero f false

theorem allWf.wr (h : allWf f x) (i : Nat) {v : NumVal} (hv : numWf f v = true) : allWf f (wr x i v) := by
  intro j hj
  rw [rd_wr]
  split
  · exact hv
  · exact h j hj

theorem allWf_replicate {v : NumVal} (hv : numWf f v = true) : allWf f (Vector.replicate n v) := by
  intro i hi
  rwa [rd_replicate v hi]

theorem allWf_replicate_zero : allWf f (Vector.replicate n NumVal.zero) := allWf_replicate (numWf_zero f false)

/-- A loop whose turns keep the vector's elements values of the format. -/
theorem allWf.forRange (h : allWf f x) {lo hi : Nat} (hle : lo ≤ hi) {body : Nat → Vector NumVal n → Vector NumVal n}
    (hbody : ∀ k y, lo ≤ k → k < hi → allWf f y → allWf f (body k y)) : allWf f (forRange lo hi body x) :=
  forRange_induct hle body (fun _ y => allWf f y) x h hbody

end

/-! ### The results of the operations -/

section

variable {P : Params}

theorem numWf_numOfInt_one (f : NumFmt) : numWf f (numOfInt 1) = true := by cases f <;> decide

theorem numWf_clamp_level {x : NumVal} {f : NumFmt} (h : numWf f x = true) : numWf f (clamp x glMin glMax) = true := by
  rw [clamp]
  split
  · cases f <;> decide
  · split
    · cases f <;> decide
    · exact h

theorem numWf_ladderPower (cE pE : NumVal) : numWf P.numfmt (ladderPower P cE pE) = true := by
  rw [ladderPower]
  split
  · exact numWf_num _ _ _
  · exact numWf_num _ _ _

theorem allWf_lagRow (k : Nat) : allWf P.numfmt (lagRow P k) := by
  have hrom (c : Nat) : numWf P.numfmt (romLagCoef P k c) = true := numWf_finiteEntry (numWf_toFormat _ _)
  intro i hi
  rw [rd_of_lt _ hi]
  interval_cases i
  · exact hrom 0
  · exact hrom 1
  · exact hrom 2

theorem allWf_energyUpdate (g1 g2 : NumVal) {ge : Vector NumVal 3} (h : allWf P.numfmt ge) :
    allWf P.numfmt (energyUpdate P g1 g2 ge) :=
  energyUpdate_forall P (numWf P.numfmt · = true) (numWf_fmul P g1 g2) h fun _ _ _ _ => numWf_fadd P _ _

theorem allWf_lpcWhile (c : NumVal) (fuel : Nat) {a b : Nat} {lpc : Vector NumVal 11} (h : allWf P.numfmt lpc) :
    allWf P.numfmt (lpcWhile P c fuel a b lpc) := by
  induction fuel generalizing a b lpc with
  | zero => exact h
  | succ fuel ih =>
    rw [lpcWhile]
    split
    · exact ih ((h.wr a (numWf_fadd P _ _)).wr b (numWf_fadd P _ _))
    · exact h

theorem allWf_lsfToLpc {x : Vector NumVal 10} (h : allWf P.numfmt x) : allWf P.numfmt (lsfToLpc P x) := by
  rw [lsfToLpc_eq]
  exact (allWf_replicate_zero.wr 0 (numWf_numOfInt_one _)).forRange (by omega) fun i _ _ _ hlpc =>
    allWf_lpcWhile _ i (hlpc.wr i (h.rd (i - 1)))

theorem allWf_lsfInterp (s : Nat) (prev cur : Vector NumVal 10) : allWf P.numfmt (lsfInterp P s prev cur) := by
  intro i hi
  rw [lsfInterp, rd_ofFn _ hi]
  exact numWf_fadd P _ _

theorem allWf_lagShifted {f : NumFmt} {lag : Vector NumVal 169} (h : allWf f lag) : allWf f (lagShifted lag) := by
  unfold lagShifted
  exact h.forRange (by omega) fun i _ _ _ hlag => hlag.wr (i - 48) (hlag.rd i)

theorem allWf_synShiftStore {f : NumFmt} {syn : Vector NumVal 10} {o : Vector NumVal 4} (hs : allWf f syn)
    (ho : allWf f o) : allWf f (synShiftStore syn o) := by
  have hslide := hs.forRange (by omega : 4 ≤ 10) fun i _ _ _ hx => hx.wr (i - 4) (hx.rd i)
  unfold synShiftStore
  exact (((hslide.wr 6 (ho.rd 0)).wr 7 (ho.rd 1)).wr 8 (ho.rd 2)).wr 9 (ho.rd 3)

/-- An output is the last difference of its ten (45_synthesis.md R220). -/
theorem numWf_synOutput (lpc : Vector NumVal 11) (syn : Vector NumVal 10) (comb o : Vector NumVal 4) (j : Nat) :
    numWf P.numfmt (synOutput P lpc syn comb o j) = true := by
  rw [synOutput, forRange_succ (by omega : 1 ≤ 10)]
  exact numWf_fsub P _ _

theorem allWf_synOutputs {e : Engine} (h : allWf P.numfmt e.wk.o) : allWf P.numfmt (synOutputs P e) := by
  unfold synOutputs
  exact h.forRange (by omega) fun j _ _ _ ho => ho.wr j (numWf_synOutput _ _ _ _ _)

end

/-! ### The cursor in the header -/

/-- How many bits the LSF indices before index i take (10_state.md R50). -/
def lsfBitsBefore (i : Nat) : Nat := ((List.range i).map lsfBits).sum

theorem lsfBitsBefore_succ (i : Nat) : lsfBitsBefore (i + 1) = lsfBitsBefore i + lsfBits i := by
  simp [lsfBitsBefore, List.range_succ]

/-- The ten indices take 44 bits (10_state.md R50). -/
theorem lsfBitsBefore_succ_le : ∀ i < 10, lsfBitsBefore (i + 1) ≤ 44 := by decide

theorem getBits_cursor_toNat {n : Nat} {e : Engine} (hc : e.wk.cursor.toNat + n ≤ 384) :
    (getBits n e).2.wk.cursor.toNat = e.wk.cursor.toNat + n := by
  rw [getBits_wk, BitVec.toNat_ofNat]
  omega

/-! ### The engine's numbers through a DECODE -/

theorem Decoder.Wf.with_lag {f : NumFmt} {d : Decoder} (h : d.Wf f) {lag : Vector NumVal 169} (hlag : allWf f lag) :
    Decoder.Wf f { d with lag := lag } := { h with lag := hlag }

theorem Work.Wf.with_comb {f : NumFmt} {w : Work} (h : w.Wf f) {comb : Vector NumVal 4} (hcomb : allWf f comb) :
    Work.Wf f { w with comb := comb } := { h with comb := hcomb }

theorem Work.Wf.with_outbuf {f : NumFmt} {w : Work} (h : w.Wf f) {outbuf : Vector NumVal 192}
    (hout : allWf f outbuf) : Work.Wf f { w with outbuf := outbuf } := { h with outbuf := hout }

/-- The decoder state and the working registers hold values of the format, and CURSOR is at most 384. -/
structure Engine.NumbersWf (f : NumFmt) (e : Engine) : Prop where
  dec : e.dec.Wf f
  wk : e.wk.Wf f

namespace Engine.NumbersWf

variable {P : Params} {f : NumFmt} {e : Engine}

theorem after_clearOor (h : e.NumbersWf f) : (clearOor e).NumbersWf f := ⟨h.dec, { h.wk with }⟩

theorem after_setSeq (h : e.NumbersWf f) (s v : Nat) (ph : Phase) : (setSeq s v ph e).NumbersWf f :=
  ⟨h.dec, { h.wk with }⟩

theorem after_setCursor (h : e.NumbersWf f) {c : Nat} (hc : c ≤ 384) : (setCursor c e).NumbersWf f := by
  refine ⟨h.dec, { h.wk with cursor := ?_ }⟩
  rw [setCursor_wk, BitVec.toNat_ofNat]
  exact (Nat.mod_le _ _).trans hc

theorem after_getBits (h : e.NumbersWf f) {n : Nat} (hc : e.wk.cursor.toNat + n ≤ 384) :
    (getBits n e).2.NumbersWf f := h.after_setCursor hc

theorem after_unpackLag (h : e.NumbersWf P.numfmt) (s : Nat) (hc : e.wk.cursor.toNat + 13 ≤ 384) :
    (unpackLag P s e).NumbersWf P.numfmt := by
  have h6 : (getBits 6 e).2.NumbersWf P.numfmt := h.after_getBits (by omega)
  have hcoef : ({ (getBits 6 e).2 with wk := { (getBits 6 e).2.wk with
      lagc := wr (getBits 6 e).2.wk.lagc s (lagRow P (getBits 6 e).1) } } : Engine).NumbersWf P.numfmt := by
    refine ⟨h6.dec, { h6.wk with lagc := fun i hi => ?_ }⟩
    rw [rd_wr]
    split
    · exact allWf_lagRow _
    · exact h6.wk.lagc i hi
  have h7 := hcoef.after_getBits (n := 7) (by rw [getBits_cursor_toNat (by omega)]; omega)
  exact ⟨h7.dec, { h7.wk with }⟩

theorem after_unpackLsf (h : e.NumbersWf P.numfmt) (i : Nat) (hc : e.wk.cursor.toNat + lsfBits i ≤ 384) :
    (unpackLsf P i e).NumbersWf P.numfmt :=
  have hbits := h.after_getBits hc
  ⟨hbits.dec, { hbits.wk with lsf := hbits.wk.lsf.wr i (numWf_scaledEntry _ _ _) }⟩

theorem after_readCb (h : e.NumbersWf f) (hc : e.wk.cursor.toNat + 6 ≤ 384) : (readCb e).NumbersWf f := by
  have h1 : (getBits 1 e).2.NumbersWf f := h.after_getBits (by omega)
  have hsign : ({ (getBits 1 e).2 with wk := { (getBits 1 e).2.wk with
      cbSign := (getBits 1 e).1 == 1 } } : Engine).NumbersWf f := ⟨h1.dec, { h1.wk with }⟩
  have h5 := hsign.after_getBits (n := 5) (by rw [getBits_cursor_toNat (by omega)]; omega)
  exact ⟨h5.dec, { h5.wk with }⟩

/-- UNPACK_HEADER leaves the cursor at 96 (40_bitreader.md R154). -/
theorem after_unpackHeader (h : e.NumbersWf P.numfmt) :
    (unpackHeader P e).NumbersWf P.numfmt ∧ (unpackHeader P e).wk.cursor.toNat = 96 := by
  have hlags := forRange_induct (by omega : 0 ≤ 4) (unpackLag P)
    (fun s t => Engine.NumbersWf P.numfmt t ∧ t.wk.cursor.toNat = 13 * s) (setCursor 0 e)
    ⟨h.after_setCursor (by omega), by simp⟩ fun s t _ hs ⟨ht, hc⟩ =>
      ⟨ht.after_unpackLag s (by omega), by rw [unpackLag_cursor]; bv_omega⟩
  have hlsfs := forRange_induct (by omega : 0 ≤ 10) (unpackLsf P)
    (fun i t => Engine.NumbersWf P.numfmt t ∧ t.wk.cursor.toNat = 52 + lsfBitsBefore i) _
    hlags fun i t _ hi ⟨ht, hc⟩ => by
      have hsum := lsfBitsBefore_succ i
      have hle := lsfBitsBefore_succ_le i hi
      exact ⟨ht.after_unpackLsf i (by omega), by
        rw [unpackLsf_cursor, BitVec.toNat_add, BitVec.toNat_ofNat]; omega⟩
  exact hlsfs

theorem after_lpcSelect (h : e.NumbersWf P.numfmt) (s : Nat) : (lpcSelect P s e).NumbersWf P.numfmt := by
  refine ⟨h.dec, { h.wk with lpc := ?_ }⟩
  rw [lpcSelect_wk]
  apply allWf_lsfToLpc
  split
  · exact allWf_lsfInterp _ _ _
  · exact h.wk.lsf

theorem after_lagShift (h : e.NumbersWf f) : (lagShift e).NumbersWf f :=
  ⟨{ h.dec with lag := allWf_lagShifted h.dec.lag }, h.wk⟩

theorem after_captureE2 (h : e.NumbersWf f) : (captureE2 e).NumbersWf f :=
  ⟨h.dec, { h.wk with e2Init := h.dec.curGe.rd 2 }⟩

theorem after_curEnergyStep (h : e.NumbersWf P.numfmt) : (curEnergyStep P e).NumbersWf P.numfmt :=
  ⟨{ h.dec with curGe := allWf_energyUpdate _ _ h.dec.curGe }, h.wk⟩

theorem after_prevEnergyStep (h : e.NumbersWf P.numfmt) : (prevEnergyStep P e).NumbersWf P.numfmt :=
  ⟨{ h.dec with prevGe := allWf_energyUpdate _ _ h.dec.prevGe }, h.wk⟩

theorem after_maybeGainPower (h : e.NumbersWf P.numfmt) (s v : Nat) :
    (maybeGainPower P s v e).NumbersWf P.numfmt := by
  rw [maybeGainPower]
  split
  · exact ⟨{ h.dec with cgp := numWf_ladderPower _ _ }, h.wk⟩
  · exact h

theorem after_cbLevel (h : e.NumbersWf P.numfmt) : (cbLevel P e).NumbersWf P.numfmt :=
  ⟨h.dec, { h.wk with cbGl := numWf_clamp_level (numWf_fmul P _ _) }⟩

theorem after_cbGain (h : e.NumbersWf P.numfmt) : (cbGain P e).NumbersWf P.numfmt :=
  ⟨h.dec, { h.wk with cbGain := numWf_pow10 P _ }⟩

theorem after_gainLevelUpdate (h : e.NumbersWf P.numfmt) : (gainLevelUpdate P e).NumbersWf P.numfmt :=
  ⟨{ h.dec with prevGl := h.dec.curGl, curGl := numWf_fadd P _ _ }, h.wk⟩

theorem after_signApply (h : e.NumbersWf f) : (signApply e).NumbersWf f := by
  refine ⟨h.dec, { h.wk with cbGain := ?_ }⟩
  rw [signApply_wk]
  dsimp only
  split
  · exact numWf_fneg h.wk.cbGain
  · exact h.wk.cbGain

theorem after_lagRead (h : e.NumbersWf f) (j : Int) : (lagRead j e).2.NumbersWf f := by
  rw [lagRead]
  split
  · exact h
  · exact ⟨h.dec, { h.wk with }⟩

theorem after_pitchTap (h : e.NumbersWf P.numfmt) (R : Int) (c : Vector NumVal 3) (i : Nat) :
    (pitchTap P R c i e).NumbersWf P.numfmt :=
  have hreads := ((h.after_lagRead (R + i)).after_lagRead (R + i + 1)).after_lagRead (R + i + 2)
  ⟨hreads.dec, { hreads.wk with pitch := hreads.wk.pitch.wr i (numWf_fadd P _ _) }⟩

theorem after_pitch (h : e.NumbersWf P.numfmt) (s v : Nat) : (pitch P s v e).NumbersWf P.numfmt :=
  forRange_induct (by omega : 0 ≤ 4) _ (fun _ t => Engine.NumbersWf P.numfmt t) _ h
    fun i _ _ _ ht => ht.after_pitchTap _ _ i

theorem after_combine (h : e.NumbersWf P.numfmt) : (combine P e).NumbersWf P.numfmt := by
  constructor
  · rw [combine_dec]
    exact h.dec
  · rw [combine_wk]
    exact h.wk.with_comb (h.wk.comb.forRange (by omega) fun i _ _ _ hx => hx.wr i (numWf_fadd P _ _))

theorem after_lagWrite (h : e.NumbersWf f) (v : Nat) : (lagWrite v e).NumbersWf f := by
  constructor
  · rw [lagWrite_dec]
    exact h.dec.with_lag (h.dec.lag.forRange (by omega) fun i _ _ _ hx => hx.wr _ (h.wk.comb.rd i))
  · rw [lagWrite_wk]
    exact h.wk

theorem after_lpcSynth (h : e.NumbersWf P.numfmt) : (lpcSynth P e).NumbersWf P.numfmt :=
  have ho := allWf_synOutputs h.wk.o
  ⟨{ h.dec with syn := allWf_synShiftStore h.dec.syn ho }, { h.wk with o := ho }⟩

theorem after_emit (h : e.NumbersWf f) (s v : Nat) : (emit s v e).NumbersWf f := by
  constructor
  · rw [emit_dec]
    exact h.dec
  · rw [emit_wk]
    exact h.wk.with_outbuf (h.wk.outbuf.forRange (by omega) fun i _ _ _ hx => hx.wr _ (h.dec.syn.rd (10 - 5 + i)))

theorem after_gainSteps (h : e.NumbersWf P.numfmt) (s v : Nat) (hc : e.wk.cursor.toNat + 6 ≤ 384) :
    (gainSteps P s v e).NumbersWf P.numfmt :=
  have hlevel := ((h.after_captureE2.after_curEnergyStep.after_prevEnergyStep).after_maybeGainPower s v).after_cbLevel
  (hlevel.after_cbGain.after_readCb (by simpa using hc)).after_gainLevelUpdate.after_signApply

theorem after_sampleSteps (h : e.NumbersWf P.numfmt) (s v : Nat) : (sampleSteps P s v e).NumbersWf P.numfmt :=
  ((((h.after_pitch s v).after_combine).after_lagWrite v).after_lpcSynth).after_emit s v

theorem after_codebookStep (h : e.NumbersWf P.numfmt) (s v : Nat) (hc : e.wk.cursor.toNat + 6 ≤ 384) :
    (codebookStep P s v e).NumbersWf P.numfmt :=
  ((h.after_setSeq s v .step).after_gainSteps s v (by simpa using hc)).after_sampleSteps s v

/-- A subframe reads its twelve pairs of codebook fields, 72 bits. -/
theorem after_subframe (h : e.NumbersWf P.numfmt) (s : Nat) (hc : e.wk.cursor.toNat + 72 ≤ 384) :
    (subframe P s e).NumbersWf P.numfmt ∧ (subframe P s e).wk.cursor.toNat = e.wk.cursor.toNat + 72 :=
  forRange_induct (by omega : 0 ≤ 12) _
    (fun v t => Engine.NumbersWf P.numfmt t ∧ t.wk.cursor.toNat = e.wk.cursor.toNat + 6 * v) _
    ⟨((h.after_setSeq s 0 .subframeStart).after_lpcSelect s).after_lagShift, by simp [subframeStart]⟩
    fun v t _ hv ⟨ht, htc⟩ =>
      ⟨ht.after_codebookStep s v (by omega), by rw [codebookStep_cursor]; bv_omega⟩

theorem after_frameEnd (h : e.NumbersWf f) : (frameEnd e).NumbersWf f :=
  ⟨{ h.dec with prevLsf := h.wk.lsf }, { h.wk with }⟩

theorem after_decodeFrame (h : e.NumbersWf P.numfmt) : (decodeFrame P e).NumbersWf P.numfmt := by
  obtain ⟨hheader, hcursor⟩ := (h.after_clearOor.after_setSeq 0 0 .unpack).after_unpackHeader
  have hframes := forRange_induct (by omega : 0 ≤ 4) (subframe P)
    (fun s t => Engine.NumbersWf P.numfmt t ∧ t.wk.cursor.toNat = 96 + 72 * s) _ ⟨hheader, hcursor⟩
    fun s t _ hs ⟨ht, htc⟩ => by
      obtain ⟨hnext, hnextc⟩ := ht.after_subframe s (by omega)
      exact ⟨hnext, by omega⟩
  rw [decodeFrame]
  exact hframes.1.after_frameEnd

end Engine.NumbersWf

/-! ### The reset values -/

theorem Decoder.reset_wf (f : NumFmt) : Decoder.reset.Wf f where
  prevLsf := allWf_replicate_zero
  syn := allWf_replicate_zero
  lag := allWf_replicate_zero
  curGl := by cases f <;> decide
  prevGl := by cases f <;> decide
  curGe := allWf_replicate_zero
  prevGe := allWf_replicate_zero
  cgp := numWf_zero f false

theorem Work.reset_wf (f : NumFmt) : Work.reset.Wf f where
  cursor := by decide
  lagc s hs := by
    have hrow : rd Work.reset.lagc s = Vector.replicate 3 NumVal.zero := rd_replicate _ hs
    rw [hrow]
    exact allWf_replicate_zero
  lsf := allWf_replicate_zero
  lpc := allWf_replicate_zero.wr 0 (numWf_numOfInt_one f)
  e2Init := numWf_zero f false
  cbGl := numWf_zero f false
  cbGain := numWf_zero f false
  pitch := allWf_replicate_zero
  comb := allWf_replicate_zero
  o := allWf_replicate_zero
  outbuf := allWf_replicate_zero

theorem Engine.reset_numbersWf (f : NumFmt) : Engine.reset.NumbersWf f := ⟨Decoder.reset_wf f, Work.reset_wf f⟩

/-! ### The machine -/

/-- Settles O58, from what a step does to the decoder state, the working registers and OUT. -/
theorem stepKeepsNumbersInFormat : Obligations.StepKeepsNumbersInFormat := by
  intro s t hs h
  rcases step_eng_cases h with ⟨hdec, hwk, hout⟩ | ⟨hdec, hwk, hout⟩ | ⟨heng, hout⟩ | ⟨heng, hout⟩
  · exact ⟨hdec ▸ hs.dec, hwk ▸ hs.wk, hout ▸ hs.out⟩
  · exact ⟨hdec ▸ Decoder.reset_wf _, hwk ▸ hs.wk, hout ▸ hs.out⟩
  · have hdecoded : t.eng.NumbersWf Config.params.numfmt := heng ▸ Engine.NumbersWf.after_decodeFrame ⟨hs.dec, hs.wk⟩
    exact ⟨hdecoded.dec, hdecoded.wk, hout ▸ hdecoded.wk.outbuf⟩
  · exact ⟨heng ▸ Decoder.reset_wf _, heng ▸ Work.reset_wf _, hout ▸ allWf_replicate_zero⟩

/-- Settles O59. -/
theorem powerOnStateSatisfiesInvariants : Obligations.PowerOnStateSatisfiesInvariants :=
  ⟨State.reset_inv _, ⟨Decoder.reset_wf _, Work.reset_wf _, allWf_replicate_zero⟩⟩

end Sys2Proof.Machine
end

section
/-! PROOFS. 20_memory.md R102: the slot of a value is its IEEE 754 encoding (statement SlotsTellValuesApart, O42). A finite
value other than zero is counted in units of its last place 2^q, q = `quantum`; its significand in these units has at most
p bits, and fewer only at the smallest q, which is what tells a subnormal from a normal encoding. That two values have
different slots then follows from what a slot stands for. -/

namespace Sys2Proof.Machine

open Sys2Proof

/-! ### The three fields of a slot -/

/-- The bits of the three fields of an encoding, one above the other. -/
theorem getLsbD_encoding (n m : Nat) (s : Bool) (E F i : Nat) :
    (BitVec.ofBool s ++ BitVec.ofNat n E ++ BitVec.ofNat m F).getLsbD i =
      if i < m then F.testBit i else if i < m + n then E.testBit (i - m) else decide (i = m + n) && s := by
  simp only [BitVec.getLsbD_append, BitVec.getLsbD_ofNat, BitVec.getLsbD_ofBool]
  by_cases hF : i < m
  · simp [hF]
  · have hE : i - m < n ↔ i < m + n := by omega
    by_cases hlt : i < m + n
    · simp [hF, hE, hlt]
    · have hs : i - m - n = 0 ↔ i = m + n := by omega
      simp [hF, hE, hlt, hs]

/-- The bits of a slot, from the least significant: fraction, exponent, sign, and zeros above. -/
theorem slotOf_getLsbD (f : NumFmt) (x : NumVal) (i : Nat) :
    (slotOf f x).getLsbD i =
      if i < ieeeFracBits f then (ieeeFields f x).2.2.testBit i
      else if i < ieeeFracBits f + ieeeExpBits f then (ieeeFields f x).2.1.testBit (i - ieeeFracBits f)
      else decide (i = ieeeFracBits f + ieeeExpBits f) && (ieeeFields f x).1 := by
  cases f with
  | binary64 => exact getLsbD_encoding 11 52 _ _ _ i
  | binary32 =>
    refine (BitVec.getLsbD_append (x := 0#32)).trans ?_
    rw [getLsbD_encoding 8 23]
    by_cases h : i < 32
    · rw [if_pos h]
      rfl
    · simp [ieeeFracBits, ieeeExpBits, h, show ¬i < 31 by omega, show ¬i < 23 by omega, show i ≠ 31 by omega]

theorem slotOf_signBit (f : NumFmt) (x : NumVal) :
    (slotOf f x).getLsbD (ieeeFracBits f + ieeeExpBits f) = (ieeeFields f x).1 := by
  simp [slotOf_getLsbD]

theorem slotOf_expField (f : NumFmt) (x : NumVal) :
    (slotOf f x).extractLsb' (ieeeFracBits f) (ieeeExpBits f) = BitVec.ofNat _ (ieeeFields f x).2.1 :=
  BitVec.eq_of_getLsbD_eq fun i hi => by simp [slotOf_getLsbD, hi, BitVec.getLsbD_ofNat, -BitVec.getLsbD_eq_getElem]

theorem slotOf_fracField (f : NumFmt) (x : NumVal) :
    (slotOf f x).extractLsb' 0 (ieeeFracBits f) = BitVec.ofNat _ (ieeeFields f x).2.2 :=
  BitVec.eq_of_getLsbD_eq fun i hi => by simp [slotOf_getLsbD, hi, BitVec.getLsbD_ofNat, -BitVec.getLsbD_eq_getElem]

theorem slotWord_binary32_high (x : NumVal) : slotWord .binary32 x true = 0 :=
  BitVec.eq_of_getLsbD_eq fun i hi => by
    rw [slotWord, BitVec.getLsbD_extractLsb', slotOf_getLsbD]
    simp [ieeeFracBits, ieeeExpBits, show ¬32 + i < 23 by omega, show ¬32 + i < 31 by omega, show 32 + i ≠ 31 by omega]

/-! ### The parameters of a format, in terms of its fields -/

theorem fmtPrec_eq (f : NumFmt) : fmtPrec f = ieeeFracBits f + 1 := by cases f <;> rfl

theorem fmtQmin_eq (f : NumFmt) : fmtQmin f = 1 - ieeeBias f - (ieeeFracBits f : Int) := by cases f <;> rfl

theorem fmtPayloadBits_eq (f : NumFmt) : fmtPayloadBits f = ieeeFracBits f - 1 := by cases f <;> rfl

theorem two_pow_ieeeFracBits (f : NumFmt) : 2 ^ ieeeFracBits f = 2 * 2 ^ (ieeeFracBits f - 1) := by cases f <;> rfl

/-- The exponent field of all ones is the one above the largest finite value's. -/
theorem two_pow_ieeeExpBits (f : NumFmt) : 2 ^ ieeeExpBits f = 2 * (fmtEmax f).toNat + 1 + 1 := by cases f <;> rfl

/-! ### A finite value in units of its last place -/

theorem numWf_fin_iff {f : NumFmt} {s : Bool} {m : Nat} {e : Int} :
    numWf f (.fin s m e) = true ↔
      (m = 0 ∧ e = 0) ∨ (m % 2 = 1 ∧ m < 2 ^ fmtPrec f ∧ fmtQmin f ≤ e ∧ e + (Nat.log2 m : Int) ≤ fmtEmax f) := by
  simp [numWf, and_assoc]

/-- x is `sig` units of 2^q, as its encoding counts it: sig has the leading bit that an encoding leaves out, unless q is the
smallest subnormal's exponent. -/
structure LastPlaceUnits (f : NumFmt) (x : NumVal) (sig : Nat) (q : Int) : Prop where
  numRat_eq : numRat x = signFactor (signBit x) * (sig * (2 : ℚ) ^ q)
  sig_lt : sig < 2 * 2 ^ ieeeFracBits f
  qmin_le : fmtQmin f ≤ q
  le_qmax : q + (ieeeFracBits f : Int) ≤ fmtEmax f
  subnormal : sig < 2 ^ ieeeFracBits f → q = fmtQmin f

theorem lastPlaceUnits_of_numWf {f : NumFmt} {s : Bool} {m : Nat} {e : Int} (h : numWf f (.fin s m e) = true) (hm : m ≠ 0) :
    LastPlaceUnits f (.fin s m e) (inUnits m e (quantum f m e)) (quantum f m e) := by
  obtain ⟨hm0, -⟩ | ⟨-, hlt, hmin, hmax⟩ := numWf_fin_iff.mp h
  · exact absurd hm0 hm
  have hlog : Nat.log2 m < ieeeFracBits f + 1 := fmtPrec_eq f ▸ (Nat.log2_lt hm).mpr hlt
  have htop : fmtQmin f + (ieeeFracBits f : Int) ≤ fmtEmax f := by cases f <;> decide
  have hq : quantum f m e = max (e + (Nat.log2 m : Int) - (ieeeFracBits f : Int)) (fmtQmin f) := by
    rw [quantum, fmtPrec_eq]
    push_cast
    ring_nf
  generalize quantum f m e = q at hq ⊢
  obtain ⟨k, rfl⟩ := Int.le.dest (show q ≤ e by omega)
  have hsig : inUnits m (q + k) q = m * 2 ^ k := by simp [inUnits, Nat.shiftLeft_eq]
  have hne : m * 2 ^ k ≠ 0 := by positivity
  have hlogsig : Nat.log2 (m * 2 ^ k) = Nat.log2 m + k := log2_mul_two_pow hm k
  rw [hsig]
  refine ⟨?_, ?_, by omega, by omega, fun hsmall => ?_⟩
  · rw [numRat_fin, zpow_add₀ two_ne_zero, zpow_natCast, signBit]
    push_cast
    ring
  · rw [← pow_succ', ← Nat.log2_lt hne]
    omega
  · rw [← Nat.log2_lt hne] at hsmall
    omega

/-! ### What the slot of each kind of value stands for -/

section Fields

variable {f : NumFmt} {x : NumVal} {E F : Nat}

theorem slotOf_expField_toNat (h : ieeeFields f x = (signBit x, E, F)) (hE : E < 2 ^ ieeeExpBits f) :
    ((slotOf f x).extractLsb' (ieeeFracBits f) (ieeeExpBits f)).toNat = E := by
  rw [slotOf_expField, h, BitVec.toNat_ofNat, Nat.mod_eq_of_lt hE]

theorem slotOf_fracField_toNat (h : ieeeFields f x = (signBit x, E, F)) (hF : F < 2 ^ ieeeFracBits f) :
    ((slotOf f x).extractLsb' 0 (ieeeFracBits f)).toNat = F := by
  rw [slotOf_fracField, h, BitVec.toNat_ofNat, Nat.mod_eq_of_lt hF]

theorem slotOf_signBit_eq (h : ieeeFields f x = (signBit x, E, F)) :
    (slotOf f x).getLsbD (ieeeFracBits f + ieeeExpBits f) = signBit x := by
  rw [slotOf_signBit, h]

/-- A finite value whose fields stand for its number. -/
theorem slotStandsFor_of_finite (hx : isFinite x = true) (h : ieeeFields f x = (signBit x, E, F))
    (hE : E < 2 ^ ieeeExpBits f - 1) (hF : F < 2 ^ ieeeFracBits f)
    (hnum : numRat x = signFactor (signBit x) *
      if E = 0 then (F : ℚ) * 2 ^ (1 - ieeeBias f - (ieeeFracBits f : Int))
      else (2 ^ ieeeFracBits f + (F : ℚ)) * 2 ^ ((E : Int) - ieeeBias f - (ieeeFracBits f : Int))) :
    SlotStandsFor f x (slotOf f x) := by
  have hexp := slotOf_expField_toNat h (by omega)
  have hfrac := slotOf_fracField_toNat h hF
  refine ⟨slotOf_signBit_eq h, fun _ => hexp ▸ hE, fun _ => ?_, ?_, ?_⟩
  · rw [hexp, hfrac]
    exact hnum
  · rintro s rfl
    exact absurd hx Bool.false_ne_true
  · rintro s p rfl
    exact absurd hx Bool.false_ne_true

end Fields

theorem slotStandsFor_fin {f : NumFmt} {s : Bool} {m : Nat} {e : Int} (h : numWf f (.fin s m e) = true) :
    SlotStandsFor f (.fin s m e) (slotOf f (.fin s m e)) := by
  have hone : 0 < 2 ^ ieeeExpBits f - 1 := by cases f <;> decide
  rcases eq_or_ne m 0 with rfl | hm
  · exact slotStandsFor_of_finite rfl rfl hone (by positivity) (by simp [numRat_fin])
  have hu := lastPlaceUnits_of_numWf h hm
  have hfields : ieeeFields f (.fin s m e) = _ := if_neg hm
  rw [fmtPrec_eq, Nat.add_sub_cancel] at hfields
  generalize inUnits m e (quantum f m e) = sig at hu hfields
  generalize quantum f m e = q at hu hfields
  have hqmin := fmtQmin_eq f
  have hqle := hu.qmin_le
  split at hfields
  · next hsub =>
    refine slotStandsFor_of_finite rfl hfields hone hsub ?_
    rw [hu.numRat_eq, if_pos rfl, hu.subnormal hsub, hqmin]
  · next hnorm =>
    have hexp : (((q - fmtQmin f + 1).toNat : Nat) : Int) = q - fmtQmin f + 1 := by omega
    have hE : (q - fmtQmin f + 1).toNat < 2 ^ ieeeExpBits f - 1 := by
      have htop := hu.le_qmax
      rw [two_pow_ieeeExpBits]
      cases f <;> simp only [fmtEmax, fmtQmin, ieeeFracBits] at htop ⊢ <;> omega
    have hlt := hu.sig_lt
    refine slotStandsFor_of_finite rfl hfields hE (by omega) ?_
    rw [hu.numRat_eq, if_neg (by omega), hexp, Nat.cast_sub (by omega), hqmin]
    push_cast
    ring_nf

theorem slotStandsFor_inf (f : NumFmt) (s : Bool) : SlotStandsFor f (.inf s) (slotOf f (.inf s)) := by
  have hfields : ieeeFields f (.inf s) = (signBit (.inf s), 2 * (fmtEmax f).toNat + 1, 0) := rfl
  have hexp := slotOf_expField_toNat hfields (by rw [two_pow_ieeeExpBits]; omega)
  have hfrac := slotOf_fracField_toNat hfields (by positivity)
  refine ⟨slotOf_signBit_eq hfields, fun h => ?_, fun h => ?_, fun _ _ => ⟨?_, hfrac⟩, fun _ _ h => ?_⟩
  · exact absurd h Bool.false_ne_true
  · exact absurd h Bool.false_ne_true
  · rw [hexp, two_pow_ieeeExpBits, Nat.add_sub_cancel]
  · cases h

theorem slotStandsFor_nan {f : NumFmt} {s : Bool} {p : BitVec 51} (h : numWf f (.nan s p) = true) :
    SlotStandsFor f (.nan s p) (slotOf f (.nan s p)) := by
  have hp : p.toNat < 2 ^ (ieeeFracBits f - 1) := by simpa [numWf, fmtPayloadBits_eq] using h
  have hfields : ieeeFields f (.nan s p) =
      (signBit (.nan s p), 2 * (fmtEmax f).toNat + 1, 2 ^ (ieeeFracBits f - 1) + p.toNat) := by
    rw [ieeeFields, fmtPayloadBits_eq, Nat.mod_eq_of_lt hp]
    rfl
  have hexp := slotOf_expField_toNat hfields (by rw [two_pow_ieeeExpBits]; omega)
  have hfrac := slotOf_fracField_toNat hfields (by rw [two_pow_ieeeFracBits]; omega)
  refine ⟨slotOf_signBit_eq hfields, fun h => ?_, fun h => ?_, fun _ h => ?_, fun _ _ h => ⟨?_, ?_⟩⟩
  · exact absurd h Bool.false_ne_true
  · exact absurd h Bool.false_ne_true
  · cases h
  · rw [hexp, two_pow_ieeeExpBits, Nat.add_sub_cancel]
  · cases h
    exact hfrac

theorem slotStandsFor_slotOf {f : NumFmt} {x : NumVal} (h : numWf f x = true) : SlotStandsFor f x (slotOf f x) := by
  cases x with
  | fin s m e => exact slotStandsFor_fin h
  | inf s => exact slotStandsFor_inf f s
  | nan s p => exact slotStandsFor_nan h

/-! ### A slot stands for one value only -/

theorem normalize_of_numWf {f : NumFmt} {s : Bool} {m : Nat} {e : Int} (h : numWf f (.fin s m e) = true) :
    normalize s m e = .fin s m e := by
  obtain ⟨rfl, rfl⟩ | ⟨hodd, -⟩ := numWf_fin_iff.mp h
  · rfl
  · exact normalize_of_odd s hodd e

/-- A number has one stored form for each sign bit: two ways to write it agree up to trailing zeros of the significand. -/
theorem normalize_eq_of_mul_zpow_eq (s : Bool) {m n : Nat} {e g : Int} (h : (m : ℚ) * 2 ^ e = n * 2 ^ g) :
    normalize s m e = normalize s n g := by
  wlog hle : e ≤ g generalizing m n e g
  · exact (this h.symm (by omega)).symm
  obtain ⟨k, rfl⟩ := Int.le.dest hle
  have hm : m = n * 2 ^ k := by
    rw [zpow_add₀ two_ne_zero, zpow_natCast, mul_comm ((2 : ℚ) ^ e), ← mul_assoc] at h
    exact_mod_cast mul_right_cancel₀ (zpow_ne_zero e two_ne_zero) h
  rw [hm, normalize_mul_two_pow]

theorem eq_of_numRat_eq {f : NumFmt} {x y : NumVal} (hx : numWf f x = true) (hy : numWf f y = true)
    (hxf : isFinite x = true) (hyf : isFinite y = true) (hs : signBit x = signBit y) (h : numRat x = numRat y) : x = y := by
  obtain ⟨s, m, e, rfl⟩ := isFinite_iff.mp hxf
  obtain ⟨t, n, g, rfl⟩ := isFinite_iff.mp hyf
  obtain rfl : s = t := hs
  rw [numRat_fin, numRat_fin, mul_assoc, mul_assoc] at h
  rw [← normalize_of_numWf hx, ← normalize_of_numWf hy]
  exact normalize_eq_of_mul_zpow_eq s (mul_left_cancel₀ (signFactor_ne_zero s) h)

namespace SlotStandsFor

variable {f : NumFmt} {x y : NumVal} {w : Slot64}

/-- The exponent field tells the finite values. -/
theorem isFinite_iff_expField (h : SlotStandsFor f x w) :
    isFinite x = true ↔ (w.extractLsb' (ieeeFracBits f) (ieeeExpBits f)).toNat ≠ 2 ^ ieeeExpBits f - 1 := by
  cases x with
  | fin s m e => exact iff_of_true rfl (h.finiteExp rfl).ne
  | inf s => exact iff_of_false Bool.false_ne_true (not_not.mpr (h.inf s rfl).1)
  | nan s p => exact iff_of_false Bool.false_ne_true (not_not.mpr (h.nan s p rfl).1)

/-- A slot stands for one value of the format only. -/
theorem unique (hx : SlotStandsFor f x w) (hy : SlotStandsFor f y w) (hxwf : numWf f x = true) (hywf : numWf f y = true) :
    x = y := by
  have hs : signBit x = signBit y := hx.sign.symm.trans hy.sign
  have hfin : isFinite x = true ↔ isFinite y = true := hx.isFinite_iff_expField.trans hy.isFinite_iff_expField.symm
  have hquiet : 0 < 2 ^ (ieeeFracBits f - 1) := by positivity
  by_cases hxf : isFinite x = true
  · refine eq_of_numRat_eq hxwf hywf hxf (hfin.mp hxf) hs ?_
    rw [hx.finiteNum hxf, hy.finiteNum (hfin.mp hxf), hs]
  · cases x with
    | fin s m e => exact absurd rfl hxf
    | inf s =>
      have hx0 := (hx.inf s rfl).2
      cases y with
      | fin t n g => exact absurd (hfin.mpr rfl) hxf
      | inf t => exact congrArg NumVal.inf hs
      | nan t p =>
        have hy0 := (hy.nan t p rfl).2
        omega
    | nan s p =>
      have hxp := (hx.nan s p rfl).2
      cases y with
      | fin t n g => exact absurd (hfin.mpr rfl) hxf
      | inf t =>
        have hy0 := (hy.inf t rfl).2
        omega
      | nan t r =>
        obtain rfl : s = t := hs
        have hyr := (hy.nan s r rfl).2
        obtain rfl : p = r := BitVec.eq_of_toNat_eq (by omega)
        rfl

end SlotStandsFor

/-- Settles O42: each slot stands for its value, and a slot stands for one value only. -/
theorem slotsTellValuesApart : Obligations.SlotsTellValuesApart := by
  refine ⟨fun f x hx => slotStandsFor_slotOf hx, fun f x y hx hy h => ?_, slotWord_binary32_high⟩
  have hyx : SlotStandsFor f y (slotOf f x) := by
    rw [h]
    exact slotStandsFor_slotOf hy
  exact (slotStandsFor_slotOf hx).unique hyx hx hy

end Sys2Proof.Machine
end

section
/-! PROOFS. The host port (20_memory.md): what one step that is a host read or a host write does, said once for each kind of
register, and the statements on the registers, the windows and the frame of a transaction (O43, O45, O46, O47, O48, O53, O55). -/

namespace Sys2Proof.Machine

open Sys2Proof

/-! ### The register an access reaches (20_memory.md R84) -/

/-- A whole-word access at a multiple of 4 reaches the register of the map. -/
theorem accessed_ofNat {a : Nat} (ha : a < 2 ^ 14) (h4 : a % 4 = 0) : accessed (BitVec.ofNat 14 a) 0b1111 = regAt a := by
  have htoNat : (BitVec.ofNat 14 a).toNat = a := by rw [BitVec.toNat_ofNat, Nat.mod_eq_of_lt ha]
  simp [accessed, htoNat, h4]

theorem accessed_frameIn {j : Nat} (hj : j < 12) :
    accessed (BitVec.ofNat 14 (0x0100 + 4 * j)) 0b1111 = .frameIn j := by
  rw [accessed_ofNat (by omega) (by omega)]
  rw [regAt, if_neg (by omega), if_neg (by omega), if_neg (by omega), if_neg (by omega), if_pos (by omega),
    Nat.add_sub_cancel_left, Nat.mul_div_cancel_left j (by omega)]

/-- The byte offset of a word inside its slot. -/
theorem slotOffset_spec (high : Bool) (base k : Nat) (hb : base % 8 = 0) :
    let a := base + 8 * k + if high then 4 else 0
    a % 4 = 0 ∧ base ≤ a ∧ a ≤ base + 8 * k + 4 ∧ (a - base) / 8 = k ∧ decide (4 ≤ a % 8) = high := by
  cases high <;> simp <;> omega

theorem accessed_stateSlot {k : Nat} (hk : k < 256) (high : Bool) :
    accessed (BitVec.ofNat 14 (0x1000 + 8 * k + if high then 4 else 0)) 0b1111 = .stateSlot k high := by
  obtain ⟨h4, hlo, hhi, hidx, hhigh⟩ := slotOffset_spec high 0x1000 k rfl
  rw [accessed_ofNat (by omega) h4]
  generalize 0x1000 + 8 * k + (if high then 4 else 0) = a at *
  rw [regAt, if_neg (by omega), if_neg (by omega), if_neg (by omega), if_neg (by omega), if_neg (by omega),
    if_pos (by omega), hidx, hhigh]

theorem accessed_outSlot {n : Nat} (hn : n < 192) (high : Bool) :
    accessed (BitVec.ofNat 14 (0x2000 + 8 * n + if high then 4 else 0)) 0b1111 = .outSlot n high := by
  obtain ⟨h4, hlo, hhi, hidx, hhigh⟩ := slotOffset_spec high 0x2000 n rfl
  rw [accessed_ofNat (by omega) h4]
  generalize 0x2000 + 8 * n + (if high then 4 else 0) = a at *
  rw [regAt, if_neg (by omega), if_neg (by omega), if_neg (by omega), if_neg (by omega), if_neg (by omega),
    if_neg (by omega), if_pos (by omega), hidx, hhigh]

/-! ### One step of the host -/

section HostStep

variable {s : State} {off : Offset} {be : BitVec 4} {d : Word32} {rest : List PortEvent}

theorem hostRead_of_word {P : Params} {w : Word32} (hr : s.rst = false) (hv : regValue P s (accessed off be) = .word w) :
    hostRead P off be s = setRdata w s := by
  simp [hostRead, hr, hv]

/-- A read with unspecified bits: those outside the mask are the bits the rules give (20_memory.md R89). -/
theorem hostRead_of_free {P : Params} {mask w : Word32} (hr : s.rst = false)
    (hv : regValue P s (accessed off be) = .free mask w) :
    ∃ u, hostRead P off be s = setRdata u (drawFree s).2 ∧ ∀ b, mask.getLsbD b = false → u.getLsbD b = w.getLsbD b := by
  refine ⟨(w &&& ~~~mask) ||| ((drawFree s).1 &&& mask), by simp [hostRead, hr, hv], fun b hb => ?_⟩
  by_cases hlt : b < 32
  · simp [hlt, hb, -BitVec.getLsbD_eq_getElem]
  · rw [BitVec.getLsbD_of_ge _ b (by omega), BitVec.getLsbD_of_ge w b (by omega)]

theorem hostRead_of_rst (P : Params) (hr : s.rst = true) : hostRead P off be s = setRdata 0 s := by
  simp [hostRead, hr]

theorem hostWrite_of_rst (hr : s.rst = true) : hostWrite off be d s = .done s := by
  simp [hostWrite, hr]

theorem hostWrite_status (hr : s.rst = false) (ha : accessed off be = .status) :
    hostWrite off be d s = .done { s with status := statusWriteOne s.status d } := by
  simp [hostWrite, hr, ha]

theorem hostWrite_frameIn {j : Nat} (hr : s.rst = false) (ha : accessed off be = .frameIn j) :
    hostWrite off be d s = .done { s with frameIn := wr s.frameIn j d } := by
  simp [hostWrite, hr, ha]

theorem step_read (hs : s.script = .read off be :: rest) :
    step s = .next (hostRead Config.params off be (setActor .host { s with script := rest })) := by
  simp only [step, hs, stepEvent]

theorem step_write_done {t : State} (hs : s.script = .write off be d :: rest)
    (hw : hostWrite off be d (setActor .host { s with script := rest }) = .done t) : step s = .next t := by
  simp only [step, hs, stepEvent, hw]

/-- What a register reads does not depend on whose step it is, nor on the events to come. -/
theorem regValue_host (P : Params) (s : State) (rest : List PortEvent) (r : Reg) :
    regValue P (setActor .host { s with script := rest }) r = regValue P s r := by
  cases r <;> rfl

/-- A read of a word that the rules give (20_memory.md R86). -/
theorem step_read_word (hr : s.rst = false) (hs : s.script = .read off be :: rest) {w : Word32}
    (hv : regValue Config.params s (accessed off be) = .word w) :
    step s = .next { s with script := rest, actor := .host, rdata := w } := by
  rw [step_read hs, hostRead_of_word (s := setActor .host { s with script := rest }) hr
    ((regValue_host _ s rest _).trans hv)]
  rfl

/-- A read of a word with unspecified bits (20_memory.md R89). -/
theorem step_read_free (hr : s.rst = false) (hs : s.script = .read off be :: rest) {mask w : Word32}
    (hv : regValue Config.params s (accessed off be) = .free mask w) :
    ∃ u n, step s = .next { s with script := rest, actor := .host, rdata := u, freeCount := n } ∧
      ∀ b, mask.getLsbD b = false → u.getLsbD b = w.getLsbD b := by
  obtain ⟨u, hread, hbits⟩ := hostRead_of_free (s := setActor .host { s with script := rest }) hr
    ((regValue_host _ s rest _).trans hv)
  refine ⟨u, s.freeCount + 1, ?_, hbits⟩
  rw [step_read hs, hread]
  rfl

/-- A read of a word that is unspecified while BUSY = 1 (20_memory.md R100, R101). -/
theorem step_read_unlessBusy (hr : s.rst = false) (hs : s.script = .read off be :: rest) {w : Word32}
    (hv : regValue Config.params s (accessed off be) = unlessBusy s w) :
    (s.status.busy = false → step s = .next { s with script := rest, actor := .host, rdata := w }) ∧
    (s.status.busy = true →
      ∃ u n, step s = .next { s with script := rest, actor := .host, rdata := u, freeCount := n }) := by
  refine ⟨fun hb => step_read_word hr hs (hv.trans ?_), fun hb => ?_⟩
  · simp [unlessBusy, hb]
  · obtain ⟨u, n, hstep, -⟩ := step_read_free hr hs (hv.trans (if_pos hb))
    exact ⟨u, n, hstep⟩

end HostStep

/-- Settles O43: each of the three registers reads a word of the configuration or a constant. -/
theorem constantRegistersRead : Obligations.ConstantRegistersRead := fun _ _ hr =>
  ⟨fun hs => step_read_word hr hs rfl, fun hs => step_read_word hr hs rfl, fun hs => step_read_word hr hs rfl⟩

/-! ### STATUS (20_memory.md R89) -/

/-- STATUS bit by bit (10_state.md R42). -/
theorem statusWord_getLsbD (st : Status) (bit5 : Bool) (b : Nat) :
    (statusWord st bit5).getLsbD b = [st.busy, st.done, st.lagoor, st.cmderr, st.accerr, bit5].getD b false := by
  change (0#26 ++ BitVec.ofBool bit5 ++ BitVec.ofBool st.accerr ++ BitVec.ofBool st.cmderr ++ BitVec.ofBool st.lagoor
    ++ BitVec.ofBool st.done ++ BitVec.ofBool st.busy).getLsbD b = _
  simp only [BitVec.getLsbD_append, BitVec.getLsbD_ofBool, BitVec.getLsbD_zero]
  match b with
  | 0 | 1 | 2 | 3 | 4 | 5 => simp
  | n + 6 => simp

/-- A STATUS read: every bit but bit 5 is the stored one, and while idle bit 5 is PREV_VALID (20_memory.md R89). -/
theorem step_read_status {s : State} {rest : List PortEvent} (hr : s.rst = false)
    (hs : s.script = .read 0x000C 0b1111 :: rest) :
    ∃ w n, step s = .next { s with script := rest, actor := .host, rdata := w, freeCount := n } ∧
      ∀ b, b ≠ 5 ∨ s.status.busy = false → w.getLsbD b = (statusWord s.status s.eng.dec.prevValid).getLsbD b := by
  cases hb : s.status.busy with
  | false =>
    exact ⟨_, s.freeCount, step_read_word hr hs (if_neg (by simp [hb])), fun _ _ => rfl⟩
  | true =>
    obtain ⟨w, n, hstep, hbits⟩ := step_read_free hr hs (if_pos hb)
    refine ⟨w, n, hstep, fun b hb5 => hbits b ?_⟩
    have hne : b ≠ 5 := hb5.resolve_right (by simp)
    have hmask : 0x00000020#32 = BitVec.twoPow 32 5 := rfl
    simp [hmask, BitVec.getLsbD_twoPow, hne.symm]

/-- Settles O45: a write is `statusWriteOne`, and a read gives `statusWord` up to bit 5. -/
theorem statusReadsAndClears : Obligations.StatusReadsAndClears := by
  intro s d rest hr
  refine ⟨fun hs => step_write_done hs (hostWrite_status hr rfl), fun hs => ?_⟩
  obtain ⟨w, n, hstep, hbits⟩ := step_read_status hr hs
  simp only [statusWord_getLsbD] at hbits
  refine ⟨w, n, hstep, hbits 0 (by simp), hbits 1 (by simp), hbits 2 (by simp), hbits 3 (by simp), hbits 4 (by simp),
    fun hb => hbits 5 (.inr hb), fun b hb => ?_⟩
  rw [hbits b (.inl (by omega)), List.getD_eq_default _ _ (by simpa using hb)]

/-! ### FRAME_IN (20_memory.md R90) -/

/-- Settles O46: the access reaches word j, which is a read or a write of a vector element. -/
theorem frameInReadsBack : Obligations.FrameInReadsBack := by
  intro s j d rest hr hj
  have hacc := accessed_frameIn hj
  refine ⟨fun hs => ⟨_, step_write_done hs (hostWrite_frameIn hr hacc), rfl, rd_wr_same _ _ hj, fun k _ hk => ?_⟩,
    fun hs => step_read_word hr hs (by rw [hacc]; rfl)⟩
  exact rd_wr_other _ _ hk.symm

/-! ### The OUT and the STATE window (20_memory.md R100, R101) -/

/-- Settles O47: the window holds one word of a slot, unspecified while BUSY. -/
theorem outWindowReads : Obligations.OutWindowReads := by
  intro s n high rest hr hn hs
  exact step_read_unlessBusy hr hs (by rw [accessed_outSlot hn]; rfl)

theorem regValue_stateSlot_of_lt (P : Params) (s : State) {k : Nat} (hk : k < 198) (high : Bool) :
    regValue P s (.stateSlot k high) = unlessBusy s (slotWord P.numfmt (stateSlotValue s.eng.dec k) high) :=
  if_pos hk

theorem regValue_stateSlot_of_ge (P : Params) (s : State) {k : Nat} (hk : 198 ≤ k) (high : Bool) :
    regValue P s (.stateSlot k high) = .word 0 :=
  if_neg (by omega)

section StateSlots

variable (d : Decoder) {i : Nat}

theorem stateSlotValue_prevLsf (hi : i < 10) : stateSlotValue d i = rd d.prevLsf i := if_pos hi

theorem stateSlotValue_syn (hi : i < 10) : stateSlotValue d (10 + i) = rd d.syn i := by
  rw [stateSlotValue, if_neg (by omega), if_pos (by omega), Nat.add_sub_cancel_left]

theorem stateSlotValue_lag (hi : i < 169) : stateSlotValue d (20 + i) = rd d.lag i := by
  rw [stateSlotValue, if_neg (by omega), if_neg (by omega), if_pos (by omega), Nat.add_sub_cancel_left]

theorem stateSlotValue_curGe (hi : i < 3) : stateSlotValue d (191 + i) = rd d.curGe i := by
  rw [stateSlotValue, if_neg (by omega), if_neg (by omega), if_neg (by omega), if_neg (by omega), if_neg (by omega),
    if_pos (by omega), Nat.add_sub_cancel_left]

theorem stateSlotValue_prevGe (hi : i < 3) : stateSlotValue d (194 + i) = rd d.prevGe i := by
  rw [stateSlotValue, if_neg (by omega), if_neg (by omega), if_neg (by omega), if_neg (by omega), if_neg (by omega),
    if_neg (by omega), if_pos (by omega), Nat.add_sub_cancel_left]

end StateSlots

/-- Settles O48: below slot 198 the window shows `stateSlotValue`, group by group; above it reads 0. -/
theorem stateWindowShowsDecoder : Obligations.StateWindowShowsDecoder := by
  intro s k high rest hr hk hs shows
  have hacc := accessed_stateSlot hk high
  have hlow (h : k < 198) := step_read_unlessBusy hr hs ((congrArg _ hacc).trans (regValue_stateSlot_of_lt _ s h high))
  have hshow (hb : s.status.busy = false) {x : NumVal} (h : k < 198) (hx : stateSlotValue s.eng.dec k = x) : shows x :=
    hx ▸ (hlow h).1 hb
  refine ⟨fun hb => ⟨?_, ?_, ?_, ?_, ?_, ?_, ?_, ?_⟩, fun h => ?_, fun hb h => (hlow h).2 hb⟩
  · rintro i hi rfl
    exact hshow hb (by omega) (stateSlotValue_prevLsf _ hi)
  · rintro i hi rfl
    exact hshow hb (by omega) (stateSlotValue_syn _ hi)
  · rintro i hi rfl
    exact hshow hb (by omega) (stateSlotValue_lag _ hi)
  · rintro rfl
    exact hshow hb (by omega) rfl
  · rintro rfl
    exact hshow hb (by omega) rfl
  · rintro i hi rfl
    exact hshow hb (by omega) (stateSlotValue_curGe _ hi)
  · rintro i hi rfl
    exact hshow hb (by omega) (stateSlotValue_prevGe _ hi)
  · rintro rfl
    exact hshow hb (by omega) rfl
  · exact step_read_word hr hs ((congrArg _ hacc).trans (regValue_stateSlot_of_ge _ s h high))

/-! ### The reset input (20_memory.md R80) -/

theorem engineTurn_of_rst {s : State} (hr : s.rst = true) : engineTurn s = .next (setActor .engine s) := by
  simp [engineTurn, engineCommand, hr]

/-- Settles O53, event by event. -/
theorem assertedResetHoldsPort : Obligations.AssertedResetHoldsPort := by
  intro s rest hr
  refine ⟨fun off be hs => ?_, fun off be d hs => ?_, fun hs => ?_, fun hs => ?_⟩
  · rw [step_read hs, hostRead_of_rst (s := setActor .host { s with script := rest }) _ hr]
    rfl
  · exact step_write_done hs (hostWrite_of_rst (s := setActor .host { s with script := rest }) hr)
  · simp only [step, hs, stepEvent]
    exact engineTurn_of_rst (s := { s with script := rest }) hr
  · simp only [step, hs, stepEvent, setRst, Bool.false_eq_true, ↓reduceIte]

/-! ### What a host transaction leaves (20_memory.md R97, R98) -/

/-- From s to t the decoder state, the working registers and OUT stay, and while a command is executing so do the latched
frame, the pending command and BUSY. -/
structure HostFrame (s t : State) : Prop where
  dec : t.eng.dec = s.eng.dec
  wk : t.eng.wk = s.eng.wk
  out : t.out = s.out
  latch : s.status.busy = true → t.eng.latch = s.eng.latch
  pending : s.status.busy = true → t.pending = s.pending
  busy : s.status.busy = true → t.status.busy = true

namespace HostFrame

variable {s t : State}

theorem refl (s : State) : HostFrame s s := ⟨rfl, rfl, rfl, fun _ => rfl, fun _ => rfl, id⟩

theorem rejectCommand (s : State) : HostFrame s (rejectCommand s) := { refl s with }

theorem hostRead (P : Params) (off : Offset) (be : BitVec 4) (s : State) : HostFrame s (hostRead P off be s) := by
  rcases hostRead_cases P off be s with ⟨_, h⟩ | ⟨_, w, _, h⟩ | ⟨_, m, w, u, _, h, _⟩ | ⟨_, _, h⟩ <;> rw [h] <;>
    exact { refl s with }

theorem hostWrite {off : Offset} {be : BitVec 4} {d : Word32} (h : hostWrite off be d s = .done t) : HostFrame s t := by
  rcases hostWrite_cases off be d s with ⟨_, hw⟩ | ⟨_, _, hw⟩ | ⟨_, _, hw⟩ | ⟨_, j, _, hw⟩ | ⟨_, hw⟩ <;>
    rw [hw] at h <;> cases h <;> exact { refl s with }

/-- A command that the host issues changes nothing here but by its acceptance, which takes an idle engine. -/
theorem exec {i : Instr} (ha : s.actor = .host) (h : exec i s = .next t) : HostFrame s t := by
  rcases exec_next_cases h with ⟨_, rfl⟩ | ⟨_, _, rfl⟩ | ⟨_, he, _⟩ | ⟨_, _, rfl⟩ | ⟨_, he, _⟩
  · exact refl _
  · rcases issueReset_cases s with ⟨_, hi⟩ | ⟨hb, hi⟩ <;> rw [hi]
    · exact rejectCommand s
    · constructor <;> simp [hb]
  · exact absurd (ha.symm.trans he) (by decide)
  · rcases issueDecode_cases s with ⟨_, hi⟩ | ⟨hb, hi⟩ <;> rw [hi]
    · exact rejectCommand s
    · constructor <;> simp [hb]
  · exact absurd (ha.symm.trans he) (by decide)

/-- Taking the event off the script and naming the host changes nothing that the frame speaks of. -/
theorem of_host {rest : List PortEvent} (h : HostFrame (setActor .host { s with script := rest }) t) : HostFrame s t :=
  { h with }

end HostFrame

/-- A step that is a host read or write keeps the frame. -/
theorem step_hostFrame {s t : State} {rest : List PortEvent} (h : step s = .next t)
    (hs : (∃ off be, s.script = .read off be :: rest) ∨ (∃ off be d, s.script = .write off be d :: rest)) :
    HostFrame s t := by
  rcases step_next_cases h with ⟨hn, _⟩ | ⟨_, hn, _⟩ | ⟨_, _, hn, _⟩ | ⟨off, be, _, _, rfl⟩ | ⟨off, be, d, _, _, ht⟩ |
    ⟨_, _, _, _, _, _, _, _, rfl⟩ | ⟨_, _, _, _, i, _, _, _, _, ht⟩
  · simp [hn] at hs
  · simp [hn] at hs
  · simp [hn] at hs
  · exact (HostFrame.hostRead _ off be _).of_host
  · exact (HostFrame.hostWrite ht).of_host
  · exact (HostFrame.rejectCommand _).of_host
  · exact (HostFrame.exec rfl ht).of_host

/-- Settles O55. A step that is a host transaction keeps the frame. -/
theorem hostTransactionsLeaveDecoder : Obligations.HostTransactionsLeaveDecoder := by
  intro s t rest h hs
  obtain ⟨hdec, hwk, hout, hlatch, hpending, hbusy⟩ := step_hostFrame h hs
  exact ⟨hdec, hwk, hout, fun hb => ⟨hlatch hb, hpending hb, hbusy hb⟩⟩

end Sys2Proof.Machine
end

section
/-! PROOFS. 20_memory.md R93, R94: the words of a frame keep its bit order up to the bit reader (statement
LatchedWordsKeepBitOrder, O15). -/

namespace Sys2Proof.Machine

open Sys2Proof

/-- Byte k of the latch is byte k mod 4 of word k div 4 (46_commands.md R232). -/
theorem rd_latchOf (frameIn : Vector Word32 12) {k : Nat} (hk : k < 48) :
    rd (latchOf frameIn) k = byteOfWord (rd frameIn (k / 4)) (k % 4) := by
  simp only [latchOf, rd_ofFn _ hk]

theorem byteOfWord_getLsbD (w : Word32) (k : Nat) {i : Nat} (hi : i < 8) :
    (byteOfWord w k).getLsbD i = w.getLsbD (8 * k + i) := by
  rw [byteOfWord, BitVec.getLsbD_extractLsb', decide_eq_true hi, Bool.true_and]

theorem rd_frameWords_getLsbD (b : BitVec 384) {j i : Nat} (hj : j < 12) (hi : i < 32) :
    (rd (frameWords b) j).getLsbD i = b.getLsbD (32 * j + i) := by
  rw [frameWords, rd_ofFn _ hj, BitVec.getLsbD_extractLsb', decide_eq_true hi, Bool.true_and]

/-- Settles O15: bit p is bit p mod 8 of byte p div 8, which is bit 8·(p div 8 mod 4) + p mod 8 of word p div 32. -/
theorem latchedWordsKeepBitOrder : Obligations.LatchedWordsKeepBitOrder := by
  intro b p
  rw [latchBit]
  split
  · next hp =>
    have hsum : 32 * (p / 8 / 4) + (8 * (p / 8 % 4) + p % 8) = p := by omega
    rw [rd_latchOf _ (by omega), byteOfWord_getLsbD _ _ (by omega), rd_frameWords_getLsbD b (by omega) (by omega), hsum]
  · next hp => rw [BitVec.getLsbD_of_ge b p (by omega), Bool.toNat_false]

end Sys2Proof.Machine
end

section
/-! PROOFS. 30_encoding.md R121, R123, R134: the fields of a frame tile its 384 bits, so that every bit of a frame belongs to
exactly one field, and packing and unpacking are inverse (statement FramePackingIsBijective, O14). -/

namespace Sys2Proof

open Machine

/-! ### Fields side by side -/

/-- Bit k of the frame belongs to the field at p (30_encoding.md R121). -/
def FieldPos.Holds (p : FieldPos) (k : Nat) : Prop := p.first ≤ k ∧ k < p.first + p.width

theorem FieldPos.holds_iff {p : FieldPos} {k : Nat} : p.Holds k ↔ ∃ j < p.width, k = p.first + j :=
  ⟨fun ⟨hlo, hhi⟩ => ⟨k - p.first, by omega, by omega⟩, by rintro ⟨j, hj, rfl⟩; exact ⟨by omega, by omega⟩⟩

/-- The fields of the list lie side by side, from bit a up to bit b. -/
def Tiles (a b : Nat) : List (FieldPos × Nat) → Prop
  | [] => a = b
  | px :: l => px.1.first = a ∧ Tiles (a + px.1.width) b l

namespace Tiles

variable {a b k : Nat} {l : List (FieldPos × Nat)}

theorem le (h : Tiles a b l) : a ≤ b := by
  induction l generalizing a with
  | nil => exact Nat.le_of_eq h
  | cons px l ih => exact (Nat.le_add_right _ _).trans (ih h.2)

/-- Every field lies between the ends. -/
theorem bounds (h : Tiles a b l) {px : FieldPos × Nat} (hpx : px ∈ l) :
    a ≤ px.1.first ∧ px.1.first + px.1.width ≤ b := by
  induction l generalizing a with
  | nil => cases hpx
  | cons py l ih =>
    obtain ⟨hfirst, htail⟩ := h
    rcases List.mem_cons.mp hpx with rfl | hpx
    · exact ⟨hfirst.ge, hfirst ▸ htail.le⟩
    · obtain ⟨hlo, hhi⟩ := ih htail hpx
      exact ⟨by omega, hhi⟩

/-- Every bit between the ends belongs to a field. -/
theorem exists_holds (h : Tiles a b l) (hlo : a ≤ k) (hhi : k < b) : ∃ px ∈ l, px.1.Holds k := by
  induction l generalizing a with
  | nil =>
    obtain rfl : a = b := h
    omega
  | cons px l ih =>
    obtain ⟨rfl, htail⟩ := h
    by_cases hk : k < px.1.first + px.1.width
    · exact ⟨px, List.mem_cons_self, hlo, hk⟩
    · obtain ⟨py, hpy, hholds⟩ := ih htail (by omega)
      exact ⟨py, List.mem_cons_of_mem _ hpy, hholds⟩

/-- No bit belongs to two fields. -/
theorem eq_of_holds (h : Tiles a b l) {px py : FieldPos × Nat} (hpx : px ∈ l) (hpy : py ∈ l) (hx : px.1.Holds k)
    (hy : py.1.Holds k) : px = py := by
  induction l generalizing a with
  | nil => cases hpx
  | cons pz l ih =>
    obtain ⟨rfl, htail⟩ := h
    obtain ⟨hxlo, hxhi⟩ := hx
    obtain ⟨hylo, hyhi⟩ := hy
    rcases List.mem_cons.mp hpx with rfl | hxl <;> rcases List.mem_cons.mp hpy with rfl | hyl
    · rfl
    · have := htail.bounds hyl
      omega
    · have := htail.bounds hxl
      omega
    · exact ih htail hxl hyl

theorem append {c : Nat} {l' : List (FieldPos × Nat)} (h : Tiles a b l) (h' : Tiles b c l') : Tiles a c (l ++ l') := by
  induction l generalizing a with
  | nil =>
    obtain rfl : a = b := h
    exact h'
  | cons px l ih => exact ⟨h.1, ih h.2⟩

/-- Groups of fields, the k-th from e k up to e (k + 1), lie side by side. -/
theorem flatMap_range (e : Nat → Nat) {g : Nat → List (FieldPos × Nat)} {n : Nat} (ha : e 0 = a) (hb : e n = b)
    (h : ∀ k < n, Tiles (e k) (e (k + 1)) (g k)) : Tiles a b ((List.range n).flatMap g) := by
  subst ha hb
  induction n with
  | zero => rfl
  | succ n ih =>
    rw [List.range_succ, List.flatMap_append, List.flatMap_singleton]
    exact (ih fun k hk => h k (Nat.lt_succ_of_lt hk)).append (h n (Nat.lt_succ_self n))

end Tiles

theorem lsfFirst_eq : ∀ i < 10, lsfFirst i = 52 + lsfBitsBefore i := by decide

/-- The fields of R121's table, in its order, tile the frame. -/
theorem tiles_fields (f : Frame) : Tiles 0 384 f.fields := by
  refine Tiles.append (b := 96) (.append (b := 52) ?_ ?_) ?_
  · exact .flatMap_range (13 * ·) rfl rfl fun s _ => ⟨rfl, rfl, rfl⟩
  · rw [List.map_eq_flatMap]
    refine .flatMap_range (52 + lsfBitsBefore ·) rfl rfl fun i hi => ⟨lsfFirst_eq i hi, ?_⟩
    rw [lsfBitsBefore_succ]
    exact Nat.add_assoc ..
  · exact .flatMap_range (96 + 6 * ·) rfl rfl fun n _ => ⟨rfl, Nat.add_right_comm 96 1 _, rfl⟩

/-! ### Packing bit by bit (30_encoding.md R134) -/

theorem setField_getLsbD (bits : BitVec 384) (p : FieldPos) (x : Nat) {k : Nat} (hk : k < 384) :
    (setField bits p x).getLsbD k = true ↔ bits.getLsbD k = true ∨ p.Holds k ∧ x.testBit (k - p.first) = true := by
  simp only [setField, FieldPos.Holds, BitVec.getLsbD_or, BitVec.getLsbD_shiftLeft, BitVec.getLsbD_ofNat,
    Nat.testBit_mod_two_pow, Bool.or_eq_true, Bool.and_eq_true, decide_eq_true_eq, Bool.not_eq_true',
    decide_eq_false_iff_not]
  grind

theorem foldl_setField_getLsbD (l : List (FieldPos × Nat)) (bits : BitVec 384) {k : Nat} (hk : k < 384) :
    (l.foldl (fun bits px => setField bits px.1 px.2) bits).getLsbD k = true ↔
      bits.getLsbD k = true ∨ ∃ px ∈ l, px.1.Holds k ∧ px.2.testBit (k - px.1.first) = true := by
  induction l generalizing bits with
  | nil => simp
  | cons px l ih => rw [List.foldl_cons, ih, setField_getLsbD _ _ _ hk, List.exists_mem_cons_iff, or_assoc]

/-- Bit j of a field of the packed frame is bit j of the field's value. -/
theorem packFrame_getLsbD {f : Frame} {px : FieldPos × Nat} (hpx : px ∈ f.fields) {j : Nat} (hj : j < px.1.width) :
    (packFrame f).getLsbD (px.1.first + j) = px.2.testBit j := by
  have hend := ((tiles_fields f).bounds hpx).2
  have hholds : px.1.Holds (px.1.first + j) := FieldPos.holds_iff.mpr ⟨j, hj, rfl⟩
  rw [Bool.eq_iff_iff, packFrame, foldl_setField_getLsbD _ _ (by omega)]
  constructor
  · rintro (hzero | ⟨py, hpy, hy, hbit⟩)
    · simp at hzero
    · obtain rfl := (tiles_fields f).eq_of_holds hpx hpy hholds hy
      rwa [Nat.add_sub_cancel_left] at hbit
  · intro hbit
    exact .inr ⟨px, hpx, hholds, by rwa [Nat.add_sub_cancel_left]⟩

theorem getField_testBit (bits : BitVec 384) (p : FieldPos) (j : Nat) :
    (getField bits p).testBit j = (decide (j < p.width) && bits.getLsbD (p.first + j)) := by
  rw [getField, ← BitVec.getLsbD, BitVec.getLsbD_extractLsb']

theorem getField_lt (bits : BitVec 384) (p : FieldPos) : getField bits p < 2 ^ p.width := BitVec.isLt _

/-- A field of the packed frame holds its value, up to the field's width. -/
theorem getField_packFrame {f : Frame} {px : FieldPos × Nat} (hpx : px ∈ f.fields) :
    getField (packFrame f) px.1 = px.2 % 2 ^ px.1.width := by
  refine Nat.eq_of_testBit_eq fun j => ?_
  rw [getField_testBit, Nat.testBit_mod_two_pow]
  by_cases hj : j < px.1.width
  · rw [packFrame_getLsbD hpx hj]
  · simp [hj]

/-! ### The fields, kind by kind -/

/-- What is asked of every field is asked of every field of each of the five kinds. -/
theorem forall_mem_fields {f : Frame} {Q : FieldPos → Nat → Prop} : (∀ px ∈ f.fields, Q px.1 px.2) ↔
    (∀ s < 4, Q (posLagIdx s) (rd f.lagIdx s)) ∧ (∀ s < 4, Q (posLagV s) (rd f.lagV s)) ∧
    (∀ i < 10, Q (posLsfIdx i) (rd f.lsfIdx i)) ∧
    (∀ n < 48, Q (posCbSign n) (rd f.cbSign n)) ∧ ∀ n < 48, Q (posCbIdx n) (rd f.cbIdx n) := by
  simp only [Frame.fields, rd, List.forall_mem_append, List.forall_mem_flatMap, List.forall_mem_map,
    List.forall_mem_cons, List.mem_range, List.not_mem_nil, forall_and, and_assoc, IsEmpty.forall_iff, implies_true,
    and_true, Nat.default_eq_zero]

theorem all_lt_iff {n m : Nat} {x : Vector Nat n} : x.all (· < m) = true ↔ ∀ i < n, rd x i < m := by
  simp only [Vector.all_eq_true, decide_eq_true_eq]
  exact forall₂_congr fun i hi => by rw [rd_of_lt x hi]

theorem Frame.lsfIdxFit_iff {f : Frame} : f.lsfIdxFit = true ↔ ∀ i < 10, rd f.lsfIdx i < 2 ^ lsfBits i := by
  simp only [Frame.lsfIdxFit, Vector.all_eq_true, Vector.getElem_zip, decide_eq_true_eq]
  exact forall₂_congr fun i hi => by rw [rd_of_lt f.lsfIdx hi, lsfBits, Vector.getElem?_eq_getElem hi, Option.getD_some]

/-- A frame is well formed when every field's value fits the field's width (30_encoding.md R134). -/
theorem Frame.wf_iff {f : Frame} : f.wf = true ↔ ∀ px ∈ f.fields, px.2 < 2 ^ px.1.width := by
  rw [forall_mem_fields (Q := fun p x => x < 2 ^ p.width)]
  simp only [Frame.wf, Bool.and_eq_true, and_assoc, Frame.lsfIdxFit_iff, Frame.lagIdxFit, Frame.lagVFit, Frame.cbSignFit,
    Frame.cbIdxFit, all_lt_iff, posLagIdx, posLagV, posLsfIdx, posCbSign, posCbIdx]

/-- The value of every field of an unpacked frame is what stands at its place. -/
theorem fields_unpackFrame (bits : BitVec 384) : ∀ px ∈ (unpackFrame bits).fields, px.2 = getField bits px.1 := by
  rw [forall_mem_fields (Q := fun p x => x = getField bits p)]
  refine ⟨fun s hs => ?_, fun s hs => ?_, fun i hi => ?_, fun n hn => ?_, fun n hn => ?_⟩ <;>
    exact rd_ofFn _ ‹_›

/-- A frame whose fields hold what stands at their places is the unpacked frame. -/
theorem eq_unpackFrame {f : Frame} {bits : BitVec 384} (h : ∀ px ∈ f.fields, px.2 = getField bits px.1) :
    f = unpackFrame bits := by
  rw [forall_mem_fields (Q := fun p x => x = getField bits p)] at h
  obtain ⟨hlagIdx, hlagV, hlsfIdx, hcbSign, hcbIdx⟩ := h
  obtain ⟨lagIdx, lagV, lsfIdx, cbSign, cbIdx⟩ := f
  rw [unpackFrame, Frame.mk.injEq]
  refine ⟨ext_rd fun s hs => ?_, ext_rd fun s hs => ?_, ext_rd fun i hi => ?_, ext_rd fun n hn => ?_,
    ext_rd fun n hn => ?_⟩
  · rw [rd_ofFn _ hs, hlagIdx s hs]
  · rw [rd_ofFn _ hs, hlagV s hs]
  · rw [rd_ofFn _ hi, hlsfIdx i hi]
  · rw [rd_ofFn _ hn, hcbSign n hn]
  · rw [rd_ofFn _ hn, hcbIdx n hn]

/-- A field of a well-formed packed frame holds its value. -/
theorem getField_packFrame_of_wf {f : Frame} (hf : f.wf = true) : ∀ px ∈ f.fields, px.2 = getField (packFrame f) px.1 :=
  fun px hpx => by rw [getField_packFrame hpx, Nat.mod_eq_of_lt (Frame.wf_iff.mp hf px hpx)]

theorem unpackFrame_packFrame {f : Frame} (hf : f.wf = true) : unpackFrame (packFrame f) = f :=
  (eq_unpackFrame (getField_packFrame_of_wf hf)).symm

theorem getField_packFrame_lagV {f : Frame} (hf : f.wf = true) {s : Nat} (hs : s < 4) :
    getField (packFrame f) (posLagV s) = rd f.lagV s := by
  have hfields := getField_packFrame_of_wf hf
  rw [forall_mem_fields (Q := fun p x => x = getField (packFrame f) p)] at hfields
  obtain ⟨-, hlagV, -⟩ := hfields
  exact (hlagV s hs).symm

theorem wf_unpackFrame (bits : BitVec 384) : (unpackFrame bits).wf = true :=
  Frame.wf_iff.mpr fun px hpx => fields_unpackFrame bits px hpx ▸ getField_lt bits px.1

/-- Every bit of the pattern belongs to a field, which carries it to the same place of the packing. -/
theorem packFrame_unpackFrame (bits : BitVec 384) : packFrame (unpackFrame bits) = bits := by
  refine BitVec.eq_of_getLsbD_eq fun k hk => ?_
  obtain ⟨px, hpx, hholds⟩ := (tiles_fields (unpackFrame bits)).exists_holds (Nat.zero_le k) hk
  obtain ⟨j, hj, rfl⟩ := FieldPos.holds_iff.mp hholds
  rw [packFrame_getLsbD hpx hj, fields_unpackFrame bits px hpx, getField_testBit, decide_eq_true hj, Bool.true_and]

/-- Settles O14, each inverse from the fields' tiling of the frame. -/
theorem framePackingIsBijective : Obligations.FramePackingIsBijective :=
  ⟨fun _ hf => unpackFrame_packFrame hf, fun bits => ⟨wf_unpackFrame bits, packFrame_unpackFrame bits⟩⟩

end Sys2Proof
end

section
/-! PROOFS. 30_encoding.md R125, R127, R128: the command words are 0, 1 and 2, and the decoder takes these alone (statements
DecodeInvertsEncode, O13, and CommandTableWordsDecode, O12). -/

namespace Sys2Proof

/-! ### Command words -/

theorem commandWordWf_iff {d : Word32} : commandWordWf d = true ↔ d.toNat ≤ 2 := by
  simp only [commandWordWf, Bool.and_eq_true, beq_iff_eq, decide_eq_true_eq, ← BitVec.toNat_inj,
    BitVec.extractLsb'_toNat, Nat.shiftRight_eq_div_pow, BitVec.ofNat_eq_ofNat, BitVec.toNat_ofNat]
  omega

theorem eq_encode_of_toNat_le_two {d : Word32} (h : d.toNat ≤ 2) : ∃ i, d = encode i := by
  match hd : d.toNat with
  | 0 => exact ⟨.nop, BitVec.eq_of_toNat_eq hd⟩
  | 1 => exact ⟨.reset, BitVec.eq_of_toNat_eq hd⟩
  | 2 => exact ⟨.decode, BitVec.eq_of_toNat_eq hd⟩
  | n + 3 => omega

theorem decodeCommand_encode (i : Instr) : decodeCommand (encode i) = .ok i := by
  cases i with
  | nop => exact Laws.EncodingRoundTrip.nop.2
  | reset => exact Laws.EncodingRoundTrip.reset.2
  | decode => exact Laws.EncodingRoundTrip.decode.2

/-- A word that breaks one of R125's two conditions is rejected, by the condition it breaks. -/
theorem decodeCommand_of_not_wf {d : Word32} (h : commandWordWf d = false) : ∃ r, decodeCommand d = .error r := by
  by_cases hhigh : d.extractLsb' 4 28 = 0
  · have hop : ¬ (d.extractLsb' 0 4).toNat ≤ 2 := by simpa [commandWordWf, hhigh] using h
    refine ⟨.reservedOp (d.extractLsb' 0 4), ?_⟩
    rw [decodeCommand, if_neg (not_not.mpr hhigh)]
    split
    · omega
    · omega
    · omega
    · rfl
  · exact ⟨_, if_pos hhigh⟩

/-- A command word is the word of a command, or ill formed and rejected (30_encoding.md R127). -/
theorem decodeCommand_cases (d : Word32) :
    (∃ i, d = encode i ∧ commandWordWf d = true ∧ decodeCommand d = .ok i) ∨
    (commandWordWf d = false ∧ ∃ r, decodeCommand d = .error r) := by
  cases hwf : commandWordWf d with
  | true =>
    obtain ⟨i, rfl⟩ := eq_encode_of_toNat_le_two (commandWordWf_iff.mp hwf)
    exact .inl ⟨i, rfl, rfl, decodeCommand_encode i⟩
  | false => exact .inr ⟨rfl, decodeCommand_of_not_wf hwf⟩

theorem decodeCommand_eq_ok_iff {d : Word32} {i : Instr} : decodeCommand d = .ok i ↔ d = encode i := by
  refine ⟨fun h => ?_, fun h => h ▸ decodeCommand_encode i⟩
  rcases decodeCommand_cases d with ⟨j, hd, _, hj⟩ | ⟨_, r, hr⟩
  · rwa [← Except.ok.inj (hj.symm.trans h)]
  · cases hr.symm.trans h

theorem commandWordWf_eq_false_iff {d : Word32} : commandWordWf d = false ↔ ∃ r, decodeCommand d = .error r := by
  refine ⟨decodeCommand_of_not_wf, fun ⟨r, hr⟩ => ?_⟩
  rcases decodeCommand_cases d with ⟨i, _, _, hi⟩ | ⟨hwf, _⟩
  · cases hr.symm.trans hi
  · exact hwf

/-! ### Command bytes -/

/-- The four bytes of a word make it up (20_memory.md R93). -/
theorem wordOfBytes_byteOfWord (w : Word32) :
    wordOfBytes (byteOfWord w 0) (byteOfWord w 1) (byteOfWord w 2) (byteOfWord w 3) = w := by
  refine BitVec.eq_of_getLsbD_eq fun k hk => ?_
  simp only [wordOfBytes, byteOfWord, BitVec.getLsbD_append, BitVec.getLsbD_extractLsb']
  grind

/-- The decoder takes the bytes of a word, and leaves those after them. -/
theorem decodeBytes_word (w : Word32) (rest : List Byte) :
    decodeBytes ((List.range 4).map (byteOfWord w) ++ rest) = (decodeCommand w).map (·, rest) := by
  change (decodeCommand (wordOfBytes (byteOfWord w 0) (byteOfWord w 1) (byteOfWord w 2) (byteOfWord w 3))).map (·, rest) = _
  rw [wordOfBytes_byteOfWord]

theorem decodeBytes_encodeBytes (i : Instr) (rest : List Byte) : decodeBytes (encodeBytes i ++ rest) = .ok (i, rest) := by
  rw [encodeBytes, decodeBytes_word, decodeCommand_encode]
  rfl

/-- Settles O13, from the bytes of a word and the two cases of a word. -/
theorem decodeInvertsEncode : Obligations.DecodeInvertsEncode :=
  ⟨fun i rest _ => decodeBytes_encodeBytes i rest, fun _ _ => decodeCommand_eq_ok_iff, fun _ => commandWordWf_eq_false_iff⟩

/-- Settles O12, word by word. -/
theorem commandTableWordsDecode : Obligations.CommandTableWordsDecode := by
  refine ⟨?_, ?_, ?_, ?_, ?_, ?_, ?_⟩ <;> decide

end Sys2Proof
end

section
/-! PROOFS. Host assembly (30_encoding.md R133): what the transactions of LOADF and of WAIT leave (statements
LoadFrameFillsFrameIn, O49, and WaitEndsIdle, O50). -/

namespace Sys2Proof.Machine

open Sys2Proof

theorem core_run_succ {s t : State} (k : Nat) (h : step s = .next t) :
    Host.Core.run core (k + 1) s = Host.Core.run core k t := by
  simp only [Host.Core.run, core, h]

/-! ### LOADF -/

/-- A write of a FRAME_IN word (20_memory.md R90). -/
theorem step_asmWrite_frameIn {s : State} {j : Nat} {d : Word32} {rest : List PortEvent} (hr : s.rst = false)
    (hj : j < 12) (hs : s.script = asmWrite (BitVec.ofNat 14 (0x0100 + 4 * j)) d :: rest) :
    step s = .next { s with script := rest, actor := .host, frameIn := wr s.frameIn j d } :=
  step_write_done hs (hostWrite_frameIn hr (accessed_frameIn hj))

/-- Writes of FRAME_IN words, one after the other, store them in that order and do nothing else. -/
theorem run_frameIn_writes (w : Vector Word32 12) (rest : List PortEvent) (js : List Nat) {s : State}
    (hr : s.rst = false) (ha : s.actor = .host ∨ js ≠ []) (hjs : ∀ j ∈ js, j < 12)
    (hs : s.script = js.map (fun j => asmWrite (BitVec.ofNat 14 (0x0100 + 4 * j)) (rd w j)) ++ rest) :
    Host.Core.run core js.length s = .next { s with
      script := rest, actor := .host, frameIn := js.foldl (fun x j => wr x j (rd w j)) s.frameIn } := by
  induction js generalizing s with
  | nil =>
    have hactor : s.actor = .host := ha.resolve_right (by simp)
    obtain rfl : s.script = rest := hs
    rw [← hactor]
    rfl
  | cons j js ih =>
    obtain ⟨hj, hjs⟩ := List.forall_mem_cons.mp hjs
    have hstep := step_asmWrite_frameIn hr hj hs
    exact (core_run_succ _ hstep).trans (ih hr (.inl rfl) hjs rfl)

/-- Storing all twelve words of w makes FRAME_IN w, whatever it held. -/
theorem foldl_wr_all (w x : Vector Word32 12) : (List.range 12).foldl (fun x j => wr x j (rd w j)) x = w := by
  rw [List.range_eq_range']
  refine ext_rd (forRange_induct (by omega : 0 ≤ 12) (fun j x => wr x j (rd w j))
    (fun k x => ∀ j < k, rd x j = rd w j) x (by simp) fun k t _ hk ih j hj => ?_)
  rw [rd_wr]
  split
  · next h => rw [h.1]
  · exact ih j (by omega)

/-- LOADF (30_encoding.md R133). -/
theorem run_asmLoad {s : State} {w : Vector Word32 12} {rest : List PortEvent} (hr : s.rst = false)
    (hs : s.script = asmLoad w ++ rest) :
    Host.Core.run core 12 s = .next { s with script := rest, actor := .host, frameIn := w } :=
  (run_frameIn_writes w rest (List.range 12) hr (.inr (by decide)) (fun _ => List.mem_range.mp) hs).trans
    (by rw [foldl_wr_all])

/-- Settles O49: a LOADF of the packed words. -/
theorem loadFrameFillsFrameIn : Obligations.LoadFrameFillsFrameIn := fun _ _ _ hr hs => run_asmLoad hr hs

/-! ### WAIT -/

/-- The engine's turn ends idle when BUSY and PENDING agree: with nothing pending it is idle, and else it completes. -/
theorem engineTurn_ends_idle {s : State} (hr : s.rst = false) (hp : pendingAgrees s = true) :
    ∃ t, engineTurn s = .next t ∧ t.rst = false ∧ t.status.busy = false ∧ t.pending = .none ∧ t.script = s.script := by
  cases h : s.pending with
  | none =>
    have hbusy : s.status.busy = false := by simpa [pendingAgrees, h] using hp
    exact ⟨setActor .engine s, by simp [engineTurn, engineCommand, h], hr, hbusy, h, rfl⟩
  | reset =>
    exact ⟨completeReset (setActor .engine s), by simp [engineTurn, engineCommand, hr, h, exec, execReset], by simp [hr]⟩
  | decode =>
    exact ⟨completeDecode Config.params (setActor .engine s),
      by simp [engineTurn, engineCommand, hr, h, exec, execDecode], by simp [hr]⟩

/-- A poll of WAIT leaves what the next poll needs. -/
theorem step_poll {s : State} {rest : List PortEvent} (hr : s.rst = false) (hp : pendingAgrees s = true)
    (hs : s.script = asmRead 0x000C :: rest) :
    ∃ t, step s = .next t ∧ t.rst = false ∧ pendingAgrees t = true ∧ t.script = rest ∧
      t.status = s.status ∧ t.pending = s.pending ∧ t.rdata.getLsbD 0 = s.status.busy := by
  obtain ⟨w, n, hstep, hbits⟩ := step_read_status hr hs
  exact ⟨_, hstep, hr, hp, rfl, rfl, rfl, (hbits 0 (.inl (by decide))).trans (statusWord_getLsbD _ _ 0)⟩

/-- Settles O50, by induction on the number of polls that come before the completion. -/
theorem waitEndsIdle : Obligations.WaitEndsIdle := by
  intro s polls rest hr hp hs
  induction polls generalizing s with
  | zero =>
    obtain ⟨t, hturn, hrt, hbt, hpt, hst⟩ := engineTurn_ends_idle (s := { s with script := asmRead 0x000C :: rest }) hr hp
    have hstep : step s = .next t := by simpa [step, hs, AsmLine.expand, stepEvent] using hturn
    obtain ⟨u, hread, _, _, hsu, hstatus, hpending, hdata⟩ := step_poll hrt (by simp [pendingAgrees, hbt, hpt]) hst
    refine ⟨u, ?_, hdata.trans hbt, by rw [hstatus, hbt], by rw [hpending, hpt], hsu⟩
    rw [core_run_succ 1 hstep, core_run_succ 0 hread]
    rfl
  | succ polls ih =>
    obtain ⟨t, hstep, hrt, hpt, hst, _, _, _⟩ := step_poll hr hp hs
    obtain ⟨u, hrun, hu⟩ := ih t hrt hpt hst
    exact ⟨u, by rw [core_run_succ _ hstep, hrun], hu⟩

end Sys2Proof.Machine
end

section
/-! PROOFS. When a DECODE reads outside the lag buffer (30_encoding.md R123; 44_pitch_excitation.md R208): the statement
OutOfRangeExactlyForLagZeroOrAbove120, O34. PITCH alone raises oor, at a codebook step that depends on the raw lag only, and
UNPACK_HEADER alone sets the raw lags, to the fields of the frame. -/

namespace Sys2Proof.Machine

open Sys2Proof

/-! ### The raw lags the header sets (40_bitreader.md R152, R155) -/

/-- GETBITS of a latched frame reads the field that stands there (20_memory.md R94). -/
theorem bitsFrom_latchOf (bits : BitVec 384) (p n : Nat) : bitsFrom (latchOf (frameWords bits)) p n = getField bits ⟨p, n⟩ := by
  induction n with
  | zero => simp [getField]
  | succ n ih =>
    rw [bitsFrom_succ, ih, latchedWordsKeepBitOrder, getField, getField, BitVec.extractLsb'_toNat, BitVec.extractLsb'_toNat,
      Nat.mod_pow_succ, ← Nat.toNat_testBit, Nat.testBit_shiftRight, Nat.mul_comm (2 ^ n)]
    rfl

theorem unpackLag_lagv (P : Params) (s : Nat) (e : Engine) : (unpackLag P s e).wk.lagv =
    wr e.wk.lagv s (BitVec.ofNat 7 (bitsFrom e.latch (e.wk.cursor + 6).toNat 7)) := by
  simp [unpackLag]

theorem unpackLsf_lagv (P : Params) (i : Nat) (e : Engine) : (unpackLsf P i e).wk.lagv = e.wk.lagv := by
  simp only [unpackLsf, getBits_wk]

theorem unpackLag_oor (P : Params) (s : Nat) (e : Engine) : (unpackLag P s e).wk.oor = e.wk.oor := by
  simp only [unpackLag, getBits_wk]

theorem unpackLsf_oor (P : Params) (i : Nat) (e : Engine) : (unpackLsf P i e).wk.oor = e.wk.oor := by
  simp only [unpackLsf, getBits_wk]

theorem unpackHeader_oor (P : Params) (e : Engine) : (unpackHeader P e).wk.oor = e.wk.oor :=
  (forRange_frame (by omega) _ (fun t : Engine => t.wk.oor) (unpackLsf_oor P) _).trans
    ((forRange_frame (by omega) _ (fun t : Engine => t.wk.oor) (unpackLag_oor P) _).trans (by simp))

/-- UNPACK_HEADER reads the raw lags where R121 puts them. -/
theorem rd_unpackHeader_lagv (P : Params) {e : Engine} {bits : BitVec 384} (he : e.latch = latchOf (frameWords bits)) :
    ∀ s < 4, (rd (unpackHeader P e).wk.lagv s).toNat = getField bits (posLagV s) := by
  have hlags := forRange_induct (by omega : 0 ≤ 4) (unpackLag P)
    (fun k t => t.latch = latchOf (frameWords bits) ∧ t.wk.cursor.toNat = 13 * k ∧
      ∀ s < k, (rd t.wk.lagv s).toNat = getField bits (posLagV s)) (setCursor 0 e)
    ⟨by simpa using he, by simp, by simp⟩ ?_
  · obtain ⟨-, -, hlagv⟩ := hlags
    rwa [unpackHeader, forRange_frame (by omega) _ (fun t : Engine => t.wk.lagv) (unpackLsf_lagv P)]
  · rintro k t - hk ⟨hlatch, hcursor, hlagv⟩
    have hcursor6 : (t.wk.cursor + 6).toNat = 13 * k + 6 := by bv_omega
    refine ⟨by simpa using hlatch, by rw [unpackLag_cursor]; bv_omega, fun s hs => ?_⟩
    rw [unpackLag_lagv, rd_wr]
    split
    · next h =>
      rw [hlatch, bitsFrom_latchOf, hcursor6, BitVec.toNat_ofNat, Nat.mod_eq_of_lt (getField_lt _ _), ← h.1, posLagV]
    · exact hlagv s (by omega)

/-! ### The codebook steps leave the raw lags and raise oor at an index out of range -/

/-- The taps of PITCH at step v reach outside LAG: the first index R is below 0 or the last, R + 5, above 168
(44_pitch_excitation.md R206, R208). -/
def TapsLeave (v lag : Nat) : Prop := pitchBase v lag < 0 ∨ 168 < pitchBase v lag + 5

/-- The twelve steps of a subframe leave LAG at one end or the other exactly for a raw lag of 0 or above 120. -/
theorem exists_tapsLeave_iff (lag : Nat) : (∃ v < 12, TapsLeave v lag) ↔ lag = 0 ∨ 121 ≤ lag := by
  simp only [TapsLeave, pitchBase]
  constructor
  · rintro ⟨v, _, _⟩
    omega
  · rintro (h | h)
    · exact ⟨11, by omega, by omega⟩
    · exact ⟨0, by omega, by omega⟩

theorem lagInRange_eq_false_iff {j : Int} : lagInRange j = false ↔ j < 0 ∨ 168 < j := by
  simp only [lagInRange, Bool.and_eq_false_iff, decide_eq_false_iff_not]
  omega

theorem pitchTap_lagv (P : Params) (R : Int) (c : Vector NumVal 3) (i : Nat) (e : Engine) :
    (pitchTap P R c i e).wk.lagv = e.wk.lagv := by simp only [pitchTap, lagRead_wk]

theorem pitchTap_oor (P : Params) (R : Int) (c : Vector NumVal 3) (i : Nat) (e : Engine) :
    (pitchTap P R c i e).wk.oor = true ↔ e.wk.oor = true ∨ R + i < 0 ∨ 168 < R + i + 2 := by
  simp only [pitchTap, lagRead_wk, Bool.or_eq_true, Bool.not_eq_true', lagInRange_eq_false_iff, or_assoc]
  exact or_congr_right (by omega)

@[simp] theorem pitch_lagv (P : Params) (s v : Nat) (e : Engine) : (pitch P s v e).wk.lagv = e.wk.lagv :=
  forRange_frame (by omega) _ (fun t : Engine => t.wk.lagv) (pitchTap_lagv P _ _) e

/-- PITCH raises oor exactly when its first tap or its last is out of range: those between lie between. -/
@[simp] theorem pitch_oor (P : Params) (s v : Nat) (e : Engine) :
    (pitch P s v e).wk.oor = true ↔ e.wk.oor = true ∨ TapsLeave v (rd e.wk.lagv s).toNat := by
  rw [pitch, TapsLeave]
  simp only [forRange, List.range', List.foldl_cons, List.foldl_nil, pitchTap_oor, or_assoc]
  exact or_congr_right (by omega)

@[simp] theorem readCb_lagv (e : Engine) : (readCb e).wk.lagv = e.wk.lagv := by simp only [readCb, getBits_wk]
@[simp] theorem readCb_oor (e : Engine) : (readCb e).wk.oor = e.wk.oor := by simp only [readCb, getBits_wk]

theorem codebookStep_lagv (P : Params) (s v : Nat) (e : Engine) : (codebookStep P s v e).wk.lagv = e.wk.lagv := by
  simp [codebookStep, sampleSteps, gainSteps]

theorem codebookStep_oor (P : Params) (s v : Nat) (e : Engine) :
    (codebookStep P s v e).wk.oor = true ↔ e.wk.oor = true ∨ TapsLeave v (rd e.wk.lagv s).toNat := by
  simp [codebookStep, sampleSteps, gainSteps]

theorem subframe_lagv (P : Params) (s : Nat) (e : Engine) : (subframe P s e).wk.lagv = e.wk.lagv :=
  (forRange_frame (by omega) _ (fun t : Engine => t.wk.lagv) (codebookStep_lagv P s) _).trans (by simp [subframeStart])

theorem subframe_oor (P : Params) (s : Nat) (e : Engine) : (subframe P s e).wk.oor = true ↔
    e.wk.oor = true ∨ (rd e.wk.lagv s).toNat = 0 ∨ 121 ≤ (rd e.wk.lagv s).toNat := by
  rw [← exists_tapsLeave_iff]
  refine (forRange_induct (by omega : 0 ≤ 12) (codebookStep P s) (fun k t => t.wk.lagv = e.wk.lagv ∧
    (t.wk.oor = true ↔ e.wk.oor = true ∨ ∃ v < k, TapsLeave v (rd e.wk.lagv s).toNat)) (subframeStart P s e)
    (by simp [subframeStart]) ?_).2
  rintro k t - - ⟨hlagv, hoor⟩
  refine ⟨by rw [codebookStep_lagv, hlagv], ?_⟩
  rw [codebookStep_oor, hoor, hlagv, or_assoc, Nat.exists_lt_succ_right]

/-! ### The whole DECODE -/

theorem decodeFrame_oor (P : Params) (e : Engine) {h : Engine}
    (hh : h = unpackHeader P (setSeq 0 0 .unpack (clearOor e))) : (decodeFrame P e).wk.oor = true ↔
      ∃ s < 4, (rd h.wk.lagv s).toNat = 0 ∨ 121 ≤ (rd h.wk.lagv s).toNat := by
  have hclear : h.wk.oor = false := by simp [hh, unpackHeader_oor]
  have hframes := forRange_induct (by omega : 0 ≤ 4) (subframe P) (fun k t => t.wk.lagv = h.wk.lagv ∧
    (t.wk.oor = true ↔ ∃ s < k, (rd h.wk.lagv s).toNat = 0 ∨ 121 ≤ (rd h.wk.lagv s).toNat)) h (by simp [hclear]) ?_
  · have hend : (decodeFrame P e).wk.oor = (forRange 0 4 (subframe P) h).wk.oor := by
      rw [hh, decodeFrame, frameEnd_wk]
    rw [hend]
    exact hframes.2
  · rintro k t - - ⟨hlagv, hoor⟩
    refine ⟨by rw [subframe_lagv, hlagv], ?_⟩
    rw [subframe_oor, hoor, hlagv, Nat.exists_lt_succ_right]

/-- Settles O34: the raw lags the header sets are the frame's, and each decides its subframe's reads. -/
theorem outOfRangeExactlyForLagZeroOrAbove120 : Obligations.OutOfRangeExactlyForLagZeroOrAbove120 := by
  intro P f e hf he
  have hlagv (s : Nat) (hs : s < 4) :
      (rd (unpackHeader P (setSeq 0 0 .unpack (clearOor e))).wk.lagv s).toNat = rd f.lagV s := by
    rw [rd_unpackHeader_lagv P (bits := packFrame f) (by simpa using he) s hs]
    exact getField_packFrame_lagV hf hs
  rw [decodeFrame_oor P e rfl]
  exact exists_congr fun s => and_congr_right fun hs => by rw [hlagv s hs]

end Sys2Proof.Machine
end

section
/-! PROOFS. The bit reader (40_bitreader.md): GETBITS reads the frame's bits in order (statement GetBitsReadsNextField, O16),
every field of a packed frame reaches its register (FrameFieldsReachDatapath, O17), and a DECODE reads all 384 bits
(DecodeReadsWholeFrame, O18). Where a field is read follows from the widths read before it; what is read there is the field. -/

namespace Sys2Proof.Machine

open Sys2Proof

/-! ### GETBITS bit by bit (40_bitreader.md R150) -/

theorem latchBit_eq_one_iff {latch : Vector Byte 48} {p : Nat} :
    latchBit latch p = 1 ↔ p < 384 ∧ (rd latch (p / 8)).getLsbD (p % 8) = true := by
  rw [latchBit]
  split
  · next hp => rw [Bool.toNat_eq_one, and_iff_right hp]
  · next hp => simp [hp]

/-- Bit j of what GETBITS answers is frame bit p + j. -/
theorem bitsFrom_testBit_iff {latch : Vector Byte 48} {p n j : Nat} (hj : j < n) :
    (bitsFrom latch p n).testBit j = true ↔ latchBit latch (p + j) = 1 := by
  induction n with
  | zero => omega
  | succ n ih =>
    rw [bitsFrom_succ, Nat.add_comm, Nat.mul_comm, Nat.testBit_two_pow_mul_add _ (bitsFrom_lt latch p n)]
    split
    · next hlt => exact ih hlt
    · obtain rfl : j = n := by omega
      have hbit := latchBit_le_one latch (p + j)
      rw [Nat.sub_self, Nat.testBit_zero, decide_eq_true_eq]
      omega

/-- GETBITS changes CURSOR alone. -/
theorem getBits_frame (n : Nat) (e : Engine) :
    (getBits n e).2 = { e with wk := { e.wk with cursor := (getBits n e).2.wk.cursor } } := rfl

/-- Settles O16, bit by bit. A cursor of at most 384 does not wrap when it moves by at most 32. -/
theorem getBitsReadsNextField : Obligations.GetBitsReadsNextField := by
  intro e n hn hc
  refine ⟨?_, fun j hj => ?_, getBits_frame n e, ?_⟩
  · rw [getBits_value]
    exact bitsFrom_lt _ _ _
  · rw [getBits_value, bitsFrom_testBit_iff hj, latchBit_eq_one_iff]
  · rw [getBits_wk, BitVec.toNat_ofNat, Nat.mod_eq_of_lt (by omega)]

/-! ### The cursor through the loops (40_bitreader.md R154) -/

/-- A loop whose turn k moves the cursor by w k moves it by the sum of these. -/
theorem forRange_cursor {body : Nat → Engine → Engine} {w : Nat → Nat}
    (h : ∀ k t, (body k t).wk.cursor = t.wk.cursor + BitVec.ofNat 9 (w k)) (n : Nat) (e : Engine) :
    (forRange 0 n body e).wk.cursor = e.wk.cursor + BitVec.ofNat 9 ((List.range n).map w).sum := by
  induction n with
  | zero => simp
  | succ n ih => simp [forRange_succ, h, ih, List.range_succ, BitVec.ofNat_add, BitVec.add_assoc]

/-- The lags of the subframes before s take 13 bits each. -/
theorem unpackLags_cursor (P : Params) (s : Nat) (e : Engine) :
    (forRange 0 s (unpackLag P) (setCursor 0 e)).wk.cursor = BitVec.ofNat 9 (13 * s) := by
  rw [forRange_cursor (w := fun _ => 13) (unpackLag_cursor P)]
  simp [Nat.mul_comm]

/-- LSF index i is read at bit 52 + LSF_BITS[0] + … + LSF_BITS[i − 1]. -/
theorem unpackLsfs_cursor (P : Params) (i : Nat) (e : Engine) :
    (forRange 0 i (unpackLsf P) (forRange 0 4 (unpackLag P) (setCursor 0 e))).wk.cursor =
      BitVec.ofNat 9 (52 + lsfBitsBefore i) := by
  rw [forRange_cursor (unpackLsf_cursor P), unpackLags_cursor, BitVec.ofNat_add]
  rfl

theorem unpackHeader_cursor (P : Params) (e : Engine) : (unpackHeader P e).wk.cursor = 96 :=
  unpackLsfs_cursor P 10 e

/-- A subframe reads twelve codebook pairs of six bits. -/
theorem subframe_cursor (P : Params) (s : Nat) (e : Engine) : (subframe P s e).wk.cursor = e.wk.cursor + 72 := by
  rw [subframe, forRange_cursor (w := fun _ => 6) (codebookStep_cursor P s)]
  simp [subframeStart]

theorem decodeFrame_cursor (P : Params) (e : Engine) : (decodeFrame P e).wk.cursor = 384 := by
  simp only [decodeFrame, frameEnd_wk]
  rw [forRange_cursor (w := fun _ => 72) (subframe_cursor P), unpackHeader_cursor]
  rfl

/-- Settles O18, from the bits each part of a DECODE reads. -/
theorem decodeReadsWholeFrame : Obligations.DecodeReadsWholeFrame := by
  intro P e
  refine ⟨?_, fun s v hc => ?_, ?_⟩
  · rw [unpackHeader_cursor]
    rfl
  · rw [codebookStep_cursor]
    bv_omega
  · rw [decodeFrame_cursor]
    rfl

/-! ### The registers the header sets (40_bitreader.md R152) -/

/-- Where every turn of a loop writes its own element of a vector, element k is what turn k wrote. -/
theorem rd_forRange_of_wr {α σ : Type} [Inhabited α] {n : Nat} {body : Nat → σ → σ} (view : σ → Vector α n)
    {val : Nat → σ → α} (h : ∀ k t, view (body k t) = wr (view t) k (val k t)) (s : σ) {m k : Nat} (hm : k < m)
    (hn : k < n) : rd (view (forRange 0 m body s)) k = val k (forRange 0 k body s) := by
  induction m with
  | zero => omega
  | succ m ih =>
    rw [forRange_succ (Nat.zero_le m), h, rd_wr]
    split
    · next heq => rw [heq.1]
    · exact ih (by omega)

theorem unpackLag_lagc (P : Params) (s : Nat) (e : Engine) : (unpackLag P s e).wk.lagc =
    wr e.wk.lagc s (lagRow P (bitsFrom e.latch e.wk.cursor.toNat 6)) := by
  simp [unpackLag]

theorem unpackLsf_lagc (P : Params) (i : Nat) (e : Engine) : (unpackLsf P i e).wk.lagc = e.wk.lagc := by
  simp only [unpackLsf, getBits_wk]

theorem unpackLsf_lsf (P : Params) (i : Nat) (e : Engine) : (unpackLsf P i e).wk.lsf =
    wr e.wk.lsf i (romLsf P i (bitsFrom e.latch e.wk.cursor.toNat (lsfBits i))) := by
  simp only [unpackLsf, getBits_wk, getBits_value]

theorem unpackLags_latch (P : Params) (s : Nat) (e : Engine) :
    (forRange 0 s (unpackLag P) (setCursor 0 e)).latch = e.latch :=
  (forRange_frame (Nat.zero_le s) _ Engine.latch (unpackLag_latch P) _).trans (setCursor_latch 0 e)

theorem unpackLsfs_latch (P : Params) (i : Nat) (e : Engine) :
    (forRange 0 i (unpackLsf P) (forRange 0 4 (unpackLag P) (setCursor 0 e))).latch = e.latch :=
  (forRange_frame (Nat.zero_le i) _ Engine.latch (unpackLsf_latch P) _).trans (unpackLags_latch P 4 e)

section Latched

variable (P : Params) {e : Engine} {bits : BitVec 384} (he : e.latch = latchOf (frameWords bits))

include he

/-- UNPACK_HEADER takes the table row that the index at R121's place selects. -/
theorem rd_unpackHeader_lagc {s : Nat} (hs : s < 4) :
    rd (unpackHeader P e).wk.lagc s = lagRow P (getField bits (posLagIdx s)) := by
  rw [unpackHeader, forRange_frame (by omega) _ (fun t : Engine => t.wk.lagc) (unpackLsf_lagc P),
    rd_forRange_of_wr (fun t : Engine => t.wk.lagc) (unpackLag_lagc P) _ hs hs, unpackLags_latch, unpackLags_cursor,
    BitVec.toNat_ofNat, Nat.mod_eq_of_lt (by omega), he, bitsFrom_latchOf, posLagIdx]

/-- UNPACK_HEADER takes the table entry that the index at R121's place selects. -/
theorem rd_unpackHeader_lsf {i : Nat} (hi : i < 10) :
    rd (unpackHeader P e).wk.lsf i = romLsf P i (getField bits (posLsfIdx i)) := by
  have hbefore : lsfBitsBefore i ≤ 44 := by
    have hle := lsfBitsBefore_succ_le i hi
    rw [lsfBitsBefore_succ] at hle
    omega
  rw [unpackHeader, rd_forRange_of_wr (fun t : Engine => t.wk.lsf) (unpackLsf_lsf P) _ hi hi, unpackLsfs_latch,
    unpackLsfs_cursor, BitVec.toNat_ofNat, Nat.mod_eq_of_lt (by omega), he, bitsFrom_latchOf, posLsfIdx, lsfFirst_eq i hi]

end Latched

theorem rd_lagRow (P : Params) (row : Nat) : ∀ k < 3, rd (lagRow P row) k = romLagCoef P row k
  | 0, _ | 1, _ | 2, _ => rfl

/-! ### READ_CB (40_bitreader.md R153) -/

theorem readCb_cbSign (e : Engine) : (readCb e).wk.cbSign = (bitsFrom e.latch e.wk.cursor.toNat 1 == 1) := by
  simp only [readCb, getBits_wk, getBits_value]

theorem readCb_cbIdx (e : Engine) : (readCb e).wk.cbIdx.toNat = bitsFrom e.latch (e.wk.cursor + 1).toNat 5 := by
  simp only [readCb, getBits_wk, getBits_value, getBits_latch, BitVec.toNat_ofNat]
  exact Nat.mod_eq_of_lt (bitsFrom_lt _ _ 5)

/-! ### The fields of a packed frame (40_bitreader.md R155) -/

/-- The fields of a well-formed packed frame, kind by kind. -/
theorem getField_packFrame_kinds {f : Frame} (hf : f.wf = true) :
    (∀ s < 4, rd f.lagIdx s = getField (packFrame f) (posLagIdx s)) ∧
    (∀ s < 4, rd f.lagV s = getField (packFrame f) (posLagV s)) ∧
    (∀ i < 10, rd f.lsfIdx i = getField (packFrame f) (posLsfIdx i)) ∧
    (∀ n < 48, rd f.cbSign n = getField (packFrame f) (posCbSign n)) ∧
    ∀ n < 48, rd f.cbIdx n = getField (packFrame f) (posCbIdx n) :=
  (forall_mem_fields (Q := fun p x => x = getField (packFrame f) p)).mp (getField_packFrame_of_wf hf)

/-- Settles O17: each register reads the field at its place, which in a packed frame holds the field's value. -/
theorem frameFieldsReachDatapath : Obligations.FrameFieldsReachDatapath := by
  intro P f e hf he
  obtain ⟨hlagIdx, hlagV, hlsfIdx, hcbSign, hcbIdx⟩ := getField_packFrame_kinds hf
  refine ⟨fun s hs => ⟨?_, fun k hk => ?_⟩, fun i hi => ?_, ?_, unpackHeader_dec P e, unpackHeader_latch P e,
    fun n hn hc => ⟨?_, ?_, ?_⟩⟩
  · rw [rd_unpackHeader_lagv P he s hs, hlagV s hs]
  · rw [rd_unpackHeader_lagc P he hs, hlagIdx s hs, rd_lagRow P _ k hk]
  · rw [rd_unpackHeader_lsf P he hi, hlsfIdx i hi]
  · rw [unpackHeader_cursor]
    rfl
  · rw [readCb_cbSign, he, bitsFrom_latchOf, hc, hcbSign n hn, posCbSign]
  · have hcursor : (e.wk.cursor + 1).toNat = 97 + 6 * n := by bv_omega
    rw [readCb_cbIdx, he, bitsFrom_latchOf, hcursor, hcbIdx n hn, posCbIdx]
  · rw [readCb_cursor]
    bv_omega

end Sys2Proof.Machine
end

section
/-! PROOFS. The LSF→LPC converter and the LSF interpolator (41_lsf.md): the closed form of an iteration (LpcIterationClosedForm,
O19), lpc[0] (ConverterLeadingCoefficientIsOne, O20), the weights (InterpolationWeightsAreExact, O21), subframe 3
(LastSubframeUsesCurrentLsf, O22) and the choice of the vector (LpcSelectChoosesVector, O23). The closed form says what the loop
over the pairs leaves in each element; lpc[0] is the lemma the invariant uses; the weights and subframe 3 rest on operations
whose exact result needs no rounding. -/

namespace Sys2Proof.Machine

open Sys2Proof

/-! ### Operations whose exact result is a value of the format -/

theorem roundTo_stored {f : NumFmt} {s : Bool} {m : Nat} {e : Int} (h : numWf f (.fin s m e) = true) :
    roundTo f s m e = .fin s m e := by
  rcases eq_or_ne m 0 with rfl | hm
  · have he : e = 0 := by simpa [numWf] using h
    rw [roundTo_zero, he]
  · simpa using roundTo_of_wf s h hm 0

theorem fmul_fin_of_wf {P : Params} {s t : Bool} {m n : Nat} {e g : Int}
    (h : numWf P.numfmt (.fin (s != t) (m * n) (e + g)) = true) :
    fmul P (.fin s m e) (.fin t n g) = .fin (s != t) (m * n) (e + g) :=
  roundTo_stored h

theorem signedInt_natAbs (s : Bool) (m : Nat) : (signedInt s m).natAbs = m := by
  cases s <;> simp [signedInt]

theorem signedInt_neg_iff {s : Bool} {m : Nat} (hm : m ≠ 0) : signedInt s m < 0 ↔ s = true := by
  cases s with
  | false => simp [signedInt]
  | true => simpa [signedInt] using Nat.pos_of_ne_zero hm

/-- A sum of finite numbers that is a nonzero value of the format, in the units of the lower exponent. -/
theorem sumOr_fin_of_wf {f : NumFmt} (inv : NumVal) {s t u : Bool} {m n o : Nat} {e g c : Int} (k : Nat)
    (hx : alignedSum s m e t n g = signedInt u (o * 2 ^ k)) (hmin : min e g = c - k) (ho : o ≠ 0)
    (h : numWf f (.fin u o c) = true) : sumOr f inv (.fin s m e) (.fin t n g) = .fin u o c := by
  have hne : o * 2 ^ k ≠ 0 := mul_ne_zero ho (by positivity)
  have hx0 : signedInt u (o * 2 ^ k) ≠ 0 := by
    rw [← Int.natAbs_ne_zero, signedInt_natAbs]
    exact hne
  have hsign : decide (signedInt u (o * 2 ^ k) < 0) = u := by simp [signedInt_neg_iff hne]
  simp only [sumOr]
  rw [hx, if_neg hx0, signedInt_natAbs, hsign, hmin, roundTo_of_wf _ h ho]

/-! ### The closed form of an iteration (41_lsf.md R160 to R162) -/

/-- What the turns over the pairs (a, b), (a + 1, b − 1), … leave in element j. Each turn reads both elements of its pair as they
were before the loop, because the later pairs lie inside; the middle element, a pair with itself, is written twice alike. -/
theorem rd_lpcWhile (P : Params) (f : NumVal) {fuel a b : Nat} (ha : 1 ≤ a) (hb : b < 11) (hfuel : b < a + 2 * fuel)
    (lpc : Vector NumVal 11) (j : Nat) : rd (lpcWhile P f fuel a b lpc) j =
      if a ≤ j ∧ j ≤ b then fadd P (fmul P f (rd lpc (a + b - j))) (rd lpc j) else rd lpc j := by
  induction fuel generalizing a b lpc with
  | zero => rw [lpcWhile, if_neg (by omega)]
  | succ fuel ih =>
    rw [lpcWhile]
    split
    · next hab =>
      have hpair (i : Nat) : rd (lpcPair P f a b lpc) i =
          if i = a ∨ i = b then fadd P (fmul P f (rd lpc (a + b - i))) (rd lpc i) else rd lpc i := by
        rw [lpcPair, rd_wr, rd_wr]
        rcases eq_or_ne i b with rfl | hib
        · simp [hb]
        · rcases eq_or_ne i a with rfl | hia
          · simp [hib.symm, show i < 11 by omega]
          · simp [hib, hia, hib.symm, hia.symm]
      rw [ih (by omega) (by omega) (by omega), show a + 1 + (b - 1) - j = a + b - j by omega]
      split
      · next hin =>
        rw [hpair, hpair, if_neg (by omega), if_neg (by omega), if_pos (by omega)]
      · next hout =>
        rw [hpair]
        exact if_congr (by omega) rfl rfl
    · next hab => rw [if_neg (by omega)]

theorem rd_lpcIteration (P : Params) (f : NumVal) {i : Nat} (hi : 1 ≤ i) (hi' : i ≤ 10) (lpc : Vector NumVal 11) (j : Nat) :
    rd (lpcIteration P f i lpc) j =
      if 1 ≤ j ∧ j < i then fadd P (fmul P f (rd lpc (i - j))) (rd lpc j) else if j = i then f else rd lpc j := by
  rw [lpcIteration, rd_lpcWhile P f le_rfl (by omega) (by omega), show 1 + (i - 1) - j = i - j by omega]
  rcases eq_or_ne j i with rfl | hj
  · rw [if_neg (by omega), if_neg (by omega), if_pos rfl, rd_wr_same _ _ (by omega)]
  · rw [rd_wr_other _ _ hj.symm, if_neg hj]
    split
    · next hin => rw [rd_wr_other _ _ (by omega), if_pos (by omega)]
    · next hout => rw [if_neg (by omega)]

/-- Settles O19: `rd_lpcIteration` read off in its three cases. -/
theorem lpcIterationClosedForm : Obligations.LpcIterationClosedForm := by
  intro P
  refine ⟨fun x => lsfToLpc_eq P x, fun f lpc i hi hi' => ⟨?_, fun j hj hj' => ?_, fun j _ hj => ?_⟩⟩
  · rw [rd_lpcIteration P f hi hi', if_neg (by omega), if_pos rfl]
  · rw [rd_lpcIteration P f hi hi', if_pos ⟨hj, hj'⟩]
  · rw [rd_lpcIteration P f hi hi', if_neg (by omega), if_neg (by omega)]

/-- Settles O20: no iteration touches element 0. -/
theorem converterLeadingCoefficientIsOne : Obligations.ConverterLeadingCoefficientIsOne :=
  rd_lsfToLpc_zero

/-! ### The interpolation weights (41_lsf.md R165, R166) -/

theorem num_quarter (f : NumFmt) : num f 25 100 = .fin false 1 (-2) := by cases f <;> decide

theorem numOfInt_one : numOfInt 1 = .fin false 1 0 := by decide

/-- A quarter of s + 1 has the significand of s + 1. -/
theorem newRatio_of_numOfInt {P : Params} {s m : Nat} {e : Int} (hs : numOfInt (s + 1) = .fin false m e)
    (h : numWf P.numfmt (.fin false m (-2 + e)) = true) : newRatio P s = .fin false m (-2 + e) := by
  rw [newRatio, num_quarter, hs, fmul_fin_of_wf (by simpa using h)]
  simp

/-- 1 − n · 2^g for g ≤ 0, when its significand is the odd number of units 2^g that remains. -/
theorem oldRatio_of_newRatio {P : Params} {s n o : Nat} {g : Int} (hnew : newRatio P s = .fin false n g)
    (hx : alignedSum false 1 0 true n g = o) (hg : g ≤ 0) (ho : o ≠ 0) (h : numWf P.numfmt (.fin false o g) = true) :
    oldRatio P s = .fin false o g := by
  rw [oldRatio, hnew, numOfInt_one, fsub, fneg]
  exact sumOr_fin_of_wf _ 0 (by simpa [signedInt] using hx) (by simpa using hg) ho h

theorem numWf_quarters (f : NumFmt) : numWf f (.fin false 1 (-2)) = true ∧ numWf f (.fin false 1 (-1)) = true ∧
    numWf f (.fin false 3 (-2)) = true ∧ numWf f (.fin false 1 0) = true := by
  cases f <;> decide

theorem newRatio_three (P : Params) : newRatio P 3 = .fin false 1 0 := by
  obtain ⟨-, -, -, hone⟩ := numWf_quarters P.numfmt
  exact newRatio_of_numOfInt (e := 2) (by decide) hone

/-- In subframe 3 the difference of the two ones is an exact zero, +0.0. -/
theorem oldRatio_three (P : Params) : oldRatio P 3 = .fin false 0 0 := by
  rw [oldRatio, newRatio_three, numOfInt_one]
  rfl

/-- Settles O21: each weight is an exact product or difference. -/
theorem interpolationWeightsAreExact : Obligations.InterpolationWeightsAreExact := by
  intro P
  obtain ⟨hquarter, hhalf, hthree, -⟩ := numWf_quarters P.numfmt
  have hnew0 : newRatio P 0 = .fin false 1 (-2) := newRatio_of_numOfInt (e := 0) (by decide) hquarter
  have hnew1 : newRatio P 1 = .fin false 1 (-1) := newRatio_of_numOfInt (e := 1) (by decide) hhalf
  have hnew2 : newRatio P 2 = .fin false 3 (-2) := newRatio_of_numOfInt (e := 0) (by decide) hthree
  refine ⟨⟨hnew0, hnew1, hnew2, newRatio_three P⟩, ?_, ?_, ?_, oldRatio_three P⟩
  · exact oldRatio_of_newRatio hnew0 (by decide) (by decide) (by decide) hthree
  · exact oldRatio_of_newRatio hnew1 (by decide) (by decide) (by decide) hhalf
  · exact oldRatio_of_newRatio hnew2 (by decide) (by decide) (by decide) hquarter

/-! ### The interpolator and LPC_SELECT (41_lsf.md R165, R167) -/

theorem rd_lsfInterp (P : Params) (s : Nat) (prev cur : Vector NumVal 10) {i : Nat} (hi : i < 10) :
    rd (lsfInterp P s prev cur) i = fadd P (fmul P (oldRatio P s) (rd prev i)) (fmul P (newRatio P s) (rd cur i)) := by
  rw [lsfInterp, rd_ofFn _ hi, rd_of_lt prev hi, rd_of_lt cur hi]
  rfl

/-- +0.0 times a finite number is a zero of that number's sign. -/
theorem fmul_zero_left (P : Params) {x : NumVal} (hx : isFinite x = true) :
    fmul P (.fin false 0 0) x = .fin (signBit x) 0 0 := by
  obtain ⟨s, m, e, rfl⟩ := isFinite_iff.mp hx
  simp [fmul, signBit]

theorem fmul_one_left {P : Params} {x : NumVal} (hx : isFinite x = true) (hwf : numWf P.numfmt x = true) :
    fmul P (.fin false 1 0) x = x := by
  obtain ⟨s, m, e, rfl⟩ := isFinite_iff.mp hx
  rw [fmul_fin_of_wf (by simpa using hwf)]
  simp

/-- A zero of either sign added to a value of the format leaves it, but for −0.0, which +0.0 would turn into +0.0. -/
theorem fadd_zero_left {P : Params} (t : Bool) {x : NumVal} (hx : isFinite x = true) (hwf : numWf P.numfmt x = true)
    (hneg : x ≠ .fin true 0 0) : fadd P (.fin t 0 0) x = x := by
  obtain ⟨s, m, e, rfl⟩ := isFinite_iff.mp hx
  rw [fadd]
  rcases eq_or_ne m 0 with rfl | hm
  · obtain rfl : e = 0 := by simpa [numWf] using hwf
    obtain rfl : s = false := by simpa using hneg
    simp [sumOr, alignedSum, signedInt]
  · refine sumOr_fin_of_wf _ (e - min 0 e).toNat ?_ (by omega) hm hwf
    simp [alignedSum, signedInt, Nat.shiftLeft_eq]

/-- Settles O22: in subframe 3 the sum is a zero plus 1 times the current element. -/
theorem lastSubframeUsesCurrentLsf : Obligations.LastSubframeUsesCurrentLsf := by
  intro P prev cur i hi hprev hcur hwf hneg
  rw [rd_lsfInterp P 3 prev cur hi, oldRatio_three, newRatio_three, fmul_zero_left P hprev, fmul_one_left hcur hwf,
    fadd_zero_left _ hcur hwf hneg]

/-- Settles O23: `lpcSelect_wk` for each value of PREV_VALID. -/
theorem lpcSelectChoosesVector : Obligations.LpcSelectChoosesVector := by
  intro P s e
  refine ⟨rfl, fun hinvalid => ?_, fun hvalid => ⟨lsfInterp P s e.dec.prevLsf e.wk.lsf, ?_, fun i hi => ?_⟩⟩
  · simp [hinvalid]
  · simp [hvalid]
  · exact rd_lsfInterp P s _ _ hi

end Sys2Proof.Machine
end

section
/-! PROOFS. The gain operations (42_gain.md): the cascade of ENERGY_UPDATE (EnergyUpdateIsCascade, O24; EnergyFromZeroIsProduct,
O25), the ratio ladder (LadderTakesFirstRow, O26), CB_LEVEL (CodebookLevelIsClamped, O29) and the levels with an exact gain
(ExactLevelsGiveExactGains, O30). The cascade is read off the accumulator of its loop; an exact gain rests on sums and quotients
of integers that both formats hold. -/

namespace Sys2Proof.Machine

open Sys2Proof

/-! ### Integers that both formats hold (00_scope.md R14) -/

@[simp] theorem isFinite_numOfInt (n : Int) : isFinite (numOfInt n) = true := isFinite_normalize _ _ _

@[simp] theorem signBit_numOfInt (n : Int) : signBit (numOfInt n) = decide (n < 0) := signBit_normalize _ _ _

@[simp] theorem numRat_numOfInt (n : Int) : numRat (numOfInt n) = n := by
  rw [numOfInt, numRat_normalize, signFactor_mul_natAbs, zpow_zero, mul_one]

/-- The 24 bits of a binary32 significand hold the integer; binary64 has more. -/
theorem numWf_numOfInt (f : NumFmt) {n : Int} (hn : n.natAbs < 2 ^ 24) : numWf f (numOfInt n) = true := by
  have hlog : Nat.log2 n.natAbs < 24 := by
    rcases eq_or_ne n.natAbs 0 with h0 | h0
    · rw [h0]; decide
    · exact (Nat.log2_lt h0).mpr hn
  apply numWf_normalize
  · exact hn.le.trans (Nat.pow_le_pow_right two_pos (by cases f <;> decide))
  · cases f <;> decide
  · cases f <;> simp only [fmtEmax] <;> omega

/-- A number below the largest power of two of the format does not overflow. -/
theorem RoundedTo.isFinite_of_abs_lt {f : NumFmt} {x : ℚ} {y : NumVal} (h : RoundedTo f x y) (hx : |x| < 2 ^ fmtEmax f) :
    isFinite y = true := by
  refine h.finite ?_
  have hhalf : (2 : ℚ) ^ (fmtEmax f - (fmtPrec f : Int)) ≤ 2 ^ fmtEmax f := zpow_le_zpow_right₀ one_le_two (by omega)
  calc |x| + (2 : ℚ) ^ (fmtEmax f - (fmtPrec f : Int)) < 2 ^ fmtEmax f + 2 ^ fmtEmax f := add_lt_add_of_lt_of_le hx hhalf
    _ = 2 ^ (fmtEmax f + 1) := by rw [zpow_add_one₀ two_ne_zero]; ring

/-- An exact result that is a nonzero integer of at most 24 bits is delivered as it is. -/
theorem RoundedTo.eq_numOfInt {f : NumFmt} {n : Int} {y : NumVal} (h : RoundedTo f n y) (h0 : n ≠ 0)
    (hn : n.natAbs < 2 ^ 24) : y = numOfInt n := by
  have habs : |(n : ℚ)| < 2 ^ fmtEmax f := by
    have hnq : |(n : ℚ)| < 2 ^ (24 : Int) := by exact_mod_cast (show |n| < 2 ^ 24 by rw [Int.abs_eq_natAbs]; omega)
    exact hnq.trans_le (zpow_le_zpow_right₀ one_le_two (by cases f <;> decide))
  have hfin := h.isFinite_of_abs_lt habs
  have hwf := numWf_numOfInt f hn
  refine eq_of_numRat_eq h.wf hwf hfin (isFinite_numOfInt n) ?_ ?_
  · rw [h.sign (by exact_mod_cast h0), signBit_numOfInt]
    simp
  · rw [numRat_numOfInt]
    exact h.numRat_eq hfin hwf (isFinite_numOfInt n) (numRat_numOfInt n)

theorem fadd_numOfInt (P : Params) {a b : Int} (h : (a + b).natAbs < 2 ^ 24) :
    fadd P (numOfInt a) (numOfInt b) = numOfInt (a + b) := by
  obtain ⟨hround, hzero⟩ := sumOr_rounds P.numfmt (freeNaN P .add (numOfInt a) (numOfInt b)) (isFinite_numOfInt a)
    (isFinite_numOfInt b)
  rw [numRat_numOfInt, numRat_numOfInt, ← Int.cast_add] at hround hzero
  rcases eq_or_ne (a + b) 0 with h0 | h0
  · have hsign : ¬(a < 0 ∧ b < 0) := by omega
    rw [fadd, hzero (by exact_mod_cast h0), h0, signBit_numOfInt, signBit_numOfInt, ← Bool.decide_and, decide_eq_false hsign]
    rfl
  · exact hround.eq_numOfInt h0 h

/-- The quotient of a multiple of b by b > 0. -/
theorem fdiv_numOfInt_mul (P : Params) {b k : Int} (hb : 0 < b) (h : k.natAbs < 2 ^ 24) :
    fdiv P (numOfInt (k * b)) (numOfInt b) = numOfInt k := by
  have hbq : (b : ℚ) ≠ 0 := by exact_mod_cast hb.ne'
  obtain ⟨hround, hzero⟩ := fdiv_rounds P (isFinite_numOfInt (k * b)) (isFinite_numOfInt b) (by rwa [numRat_numOfInt])
  rw [numRat_numOfInt] at hzero
  rw [numRat_numOfInt, numRat_numOfInt, Int.cast_mul, mul_div_cancel_right₀ _ hbq] at hround
  rcases eq_or_ne k 0 with rfl | h0
  · rw [hzero (by simp), signBit_numOfInt, signBit_numOfInt, decide_eq_false (by omega), decide_eq_false (by omega)]
    rfl
  · exact hround.eq_numOfInt h0 h

/-! ### ENERGY_UPDATE (42_gain.md R175) -/

/-- The accumulator acc of ENERGY_UPDATE after i turns of its loop. -/
def energyAcc (P : Params) (g1 g2 : NumVal) (ge : Vector NumVal 3) : Nat → NumVal
  | 0 => fmul P g1 g2
  | i + 1 => fadd P (energyAcc P g1 g2 ge i) (fmul P (kGef P) (rd ge i))

/-- Turn i reads E[i] before any turn has written it, and leaves its accumulator there. -/
theorem rd_energyUpdate (P : Params) (g1 g2 : NumVal) (ge : Vector NumVal 3) :
    ∀ i < 3, rd (energyUpdate P g1 g2 ge) i = energyAcc P g1 g2 ge (i + 1) := by
  suffices h : ∀ i < 3, rd (energyUpdate P g1 g2 ge) i = if i < 3 then energyAcc P g1 g2 ge (i + 1) else rd ge i from
    fun i hi => (h i hi).trans (if_pos hi)
  rw [energyUpdate]
  refine (forRange_induct (by omega : 0 ≤ 3) _ (fun k (r : NumVal × Vector NumVal 3) => r.1 = energyAcc P g1 g2 ge k ∧
    ∀ i < 3, rd r.2 i = if i < k then energyAcc P g1 g2 ge (i + 1) else rd ge i) _ ⟨rfl, fun _ _ => rfl⟩ ?_).2
  rintro k ⟨acc, x⟩ _ hk ⟨rfl, hx⟩
  have hnew : fadd P (energyAcc P g1 g2 ge k) (fmul P (kGef P) (rd x k)) = energyAcc P g1 g2 ge (k + 1) := by
    rw [hx k hk, if_neg (by omega), energyAcc]
  refine ⟨hnew, fun i hi => ?_⟩
  rw [hnew]
  rcases eq_or_ne k i with rfl | hki
  · rw [rd_wr_same _ _ hi, if_pos (by omega)]
  · rw [rd_wr_other _ _ hki, hx i hi]
    exact if_congr (by omega) rfl rfl

/-- Settles O24: each component is the accumulator after its turn. -/
theorem energyUpdateIsCascade : Obligations.EnergyUpdateIsCascade := by
  intro P g1 g2 ge
  have hrd := rd_energyUpdate P g1 g2 ge
  rw [hrd 0 (by omega), hrd 1 (by omega), hrd 2 (by omega)]
  exact ⟨rfl, rfl, rfl⟩

theorem isFinite_kGef (P : Params) : isFinite (kGef P) = true := by
  rw [kGef]
  cases P.numfmt <;> decide

/-- The product of a finite number and a zero is a zero. -/
theorem fmul_zero_right (P : Params) {x : NumVal} (hx : isFinite x = true) :
    fmul P x NumVal.zero = .fin (signBit x) 0 0 := by
  obtain ⟨s, m, e, rfl⟩ := isFinite_iff.mp hx
  simp [fmul, NumVal.zero, signBit]

theorem fadd_comm_of_finite (P : Params) {x y : NumVal} (hx : isFinite x = true) (hy : isFinite y = true) :
    fadd P x y = fadd P y x := by
  obtain ⟨s, m, e, rfl⟩ := isFinite_iff.mp hx
  obtain ⟨t, n, g, rfl⟩ := isFinite_iff.mp hy
  have hsum : alignedSum s m e t n g = alignedSum t n g s m e := by
    rw [alignedSum, alignedSum, add_comm, min_comm]
  rw [fadd, fadd, sumOr, sumOr, hsum, min_comm, Bool.and_comm]

/-- Adding a zero of either sign to a number leaves it, but for −0.0, which +0.0 would turn into +0.0. -/
theorem fadd_zero_right {P : Params} (t : Bool) {x : NumVal} (hx : isNaN x = false) (hwf : numWf P.numfmt x = true)
    (hneg : x ≠ .fin true 0 0) : fadd P x (.fin t 0 0) = x := by
  cases x with
  | fin s m e => rw [fadd_comm_of_finite P rfl rfl, fadd_zero_left t rfl hwf hneg]
  | inf s => rfl
  | nan s p => cases hx

/-- Settles O25: with E zero each turn adds a zero to the product. -/
theorem energyFromZeroIsProduct : Obligations.EnergyFromZeroIsProduct := by
  intro P g1 g2 ge hge hnum hneg i hi
  have hacc : ∀ k ≤ 3, energyAcc P g1 g2 ge k = fmul P g1 g2 := by
    intro k hk
    induction k with
    | zero => rfl
    | succ k ih =>
      rw [energyAcc, ih (by omega), hge k (by omega), fmul_zero_right P (isFinite_kGef P),
        fadd_zero_right _ hnum (numWf_fmul P g1 g2) hneg]
  rw [rd_energyUpdate P g1 g2 ge i hi, hacc (i + 1) hi]

/-! ### The ratio ladder (42_gain.md R180) -/

section Ladder

variable {P : Params} {cE pE : NumVal}

theorem ladderPower_of_first_row {k : Nat} (hk : k < 15) (hrow : flt (fmul P cE (romRatio P k)) pE = true)
    (hbefore : ∀ j < k, flt (fmul P cE (romRatio P j)) pE = false) : ladderPower P cE pE = romPower P k := by
  have hfind : (List.range 15).find? (fun k => flt (fmul P cE (romRatio P k)) pE) = some k :=
    List.find?_range_eq_some.mpr ⟨hrow, List.mem_range.mpr hk, by simpa using hbefore⟩
  rw [ladderPower, hfind]

theorem ladderPower_of_no_row (hnone : ∀ k < 15, flt (fmul P cE (romRatio P k)) pE = false) :
    ladderPower P cE pE = fallbackPower P := by
  have hfind : (List.range 15).find? (fun k => flt (fmul P cE (romRatio P k)) pE) = none :=
    List.find?_range_eq_none.mpr (by simpa using hnone)
  rw [ladderPower, hfind]

end Ladder

theorem isNaN_fmul_left (P : Params) {x : NumVal} (y : NumVal) (hx : isNaN x = true) : isNaN (fmul P x y) = true := by
  cases x with
  | fin s m e => cases hx
  | inf s => cases hx
  | nan s p => rfl

/-- Settles O26: the first row is the least index whose test holds; with a NaN no test holds. -/
theorem ladderTakesFirstRow : Obligations.LadderTakesFirstRow := by
  intro P cE pE
  refine ⟨?_, fun hnan => ladderPower_of_no_row fun k _ => flt_of_isNaN (hnan.imp_left (isNaN_fmul_left P _))⟩
  by_cases hrow : ∃ k, k < 15 ∧ flt (fmul P cE (romRatio P k)) pE = true
  · obtain ⟨hk, htest⟩ := Nat.find_spec hrow
    have hbefore : ∀ j < Nat.find hrow, flt (fmul P cE (romRatio P j)) pE = false := fun j hj =>
      Bool.eq_false_iff.mpr fun h => Nat.find_min hrow hj ⟨hj.trans hk, h⟩
    exact .inl ⟨_, hk, htest, hbefore, ladderPower_of_first_row hk htest hbefore⟩
  · have hnone : ∀ k < 15, flt (fmul P cE (romRatio P k)) pE = false := fun k hk =>
      Bool.eq_false_iff.mpr fun h => hrow ⟨k, hk, h⟩
    exact .inr ⟨hnone, ladderPower_of_no_row hnone⟩

/-! ### CB_LEVEL (42_gain.md R181; 00_scope.md R20) -/

section Clamp

variable {x lo hi : NumVal}

theorem clamp_of_below (h : flt x lo = true) : clamp x lo hi = lo := if_pos h

theorem clamp_of_above (hlo : flt x lo = false) (hhi : flt hi x = true) : clamp x lo hi = hi := by
  rw [clamp, hlo, hhi]
  rfl

theorem clamp_of_within (hlo : flt x lo = false) (hhi : flt hi x = false) : clamp x lo hi = x := by
  rw [clamp, hlo, hhi]
  rfl

/-- The clamp of a number lies between bounds that stand in order. -/
theorem clamp_between (hlo : flt lo lo = false) (hhi : flt hi hi = false) (horder : flt hi lo = false) :
    flt (clamp x lo hi) lo = false ∧ flt hi (clamp x lo hi) = false := by
  cases hbelow : flt x lo with
  | true =>
    rw [clamp_of_below hbelow]
    exact ⟨hlo, horder⟩
  | false =>
    cases habove : flt hi x with
    | true =>
      rw [clamp_of_above hbelow habove]
      exact ⟨horder, hhi⟩
    | false =>
      rw [clamp_of_within hbelow habove]
      exact ⟨hbelow, habove⟩

end Clamp

/-- Settles O29: the cases of the clamp, at GL_MIN and GL_MAX. -/
theorem codebookLevelIsClamped : Obligations.CodebookLevelIsClamped := by
  intro P e x y
  have hy : y = clamp x glMin glMax := by rw [show y = (cbLevel P e).wk.cbGl from rfl, cbLevel_wk]
  rw [hy]
  refine ⟨rfl, fun hnan => ?_, fun _ => ?_, clamp_of_below, clamp_of_above, clamp_of_within⟩
  · exact clamp_of_within (flt_of_isNaN (.inl hnan)) (flt_of_isNaN (.inr hnan))
  · exact clamp_between (by decide) (by decide) (by decide)

/-! ### The levels with an exact gain (42_gain.md R182; 00_scope.md R21) -/

/-- POW10 at the four arguments R21 fixes, where it does not depend on the configuration. -/
theorem pow10_numOfInt (P : Params) : pow10 P (numOfInt 0) = numOfInt 1 ∧ pow10 P (numOfInt 1) = numOfInt 10 ∧
    pow10 P (numOfInt 2) = numOfInt 100 ∧ pow10 P (numOfInt 3) = numOfInt 1000 :=
  ⟨rfl, rfl, rfl, rfl⟩

/-- The level 20 · k − 32 stands k twenties above GL_MIN, and sum and quotient are exact. -/
theorem levelToGain_numOfInt (P : Params) {k : Int} (hk : (k * 20).natAbs < 2 ^ 24) :
    levelToGain P (numOfInt (k * 20 - 32)) = pow10 P (numOfInt k) := by
  rw [levelToGain, glOff, glDiv, fadd_numOfInt P (by rwa [sub_add_cancel]), sub_add_cancel,
    fdiv_numOfInt_mul P (by omega) (by omega)]

/-- Settles O30: the four levels are the k twenties above GL_MIN for k = 0 to 3. -/
theorem exactLevelsGiveExactGains : Obligations.ExactLevelsGiveExactGains := by
  intro P
  obtain ⟨h0, h1, h2, h3⟩ := pow10_numOfInt P
  have hlevel (k : Int) := levelToGain_numOfInt P (k := k)
  exact ⟨(hlevel 0 (by decide)).trans h0, (hlevel 1 (by decide)).trans h1, (hlevel 2 (by decide)).trans h2,
    (hlevel 3 (by decide)).trans h3⟩

end Sys2Proof.Machine
end

section
/-! PROOFS. What a codebook step answers (43_frame.md R197), field by field, in terms of the registers it reads: the gain
chain (CodebookStepGainChain, O31) and the samples (EmissionLagsOneSample, O37). -/

namespace Sys2Proof.Machine

open Sys2Proof

/-! ### Steps 1 to 9: the gain chain -/

/-- READ_CB moves CURSOR and sets CB_SIGN and CB_IDX (40_bitreader.md R153). -/
theorem readCb_wk (e : Engine) : (readCb e).wk = { e.wk with
    cursor := e.wk.cursor + 6
    cbSign := bitsFrom e.latch e.wk.cursor.toNat 1 == 1
    cbIdx := BitVec.ofNat 5 (bitsFrom e.latch (e.wk.cursor + 1).toNat 5) } := by
  rw [← readCb_cursor]
  simp only [readCb, getBits_wk, getBits_value, getBits_latch]
  rfl

/-- CGP of the step: the ladder's power at step 0 of subframes 1 to 3, the old CGP elsewhere (42_gain.md R180). -/
def stepPower (P : Params) (s v : Nat) (d : Decoder) : NumVal :=
  if s ≠ 0 ∧ v = 0 then
    ladderPower P (fadd P (fmul P (rd d.curGe 2) (kGef P)) (rd (energyUpdate P d.curGl d.curGl d.curGe) 2))
      (fmul P (rd (energyUpdate P d.curGl d.prevGl d.prevGe) 2) (kPrev P))
  else d.cgp

/-- CB_GL of the step (42_gain.md R181). -/
def stepLevel (P : Params) (s v : Nat) (d : Decoder) : NumVal := clamp (fmul P (stepPower P s v d) d.curGl) glMin glMax

@[simp] theorem maybeGainPower_latch (P : Params) (s v : Nat) (e : Engine) : (maybeGainPower P s v e).latch = e.latch := by
  rw [maybeGainPower]
  split
  · rw [gainPowerSelect_latch]
  · rfl

theorem gainSteps_dec (P : Params) (s v : Nat) (e : Engine) : (gainSteps P s v e).dec = { e.dec with
    curGe := energyUpdate P e.dec.curGl e.dec.curGl e.dec.curGe
    prevGe := energyUpdate P e.dec.curGl e.dec.prevGl e.dec.prevGe
    cgp := stepPower P s v e.dec
    prevGl := e.dec.curGl
    curGl := fadd P (stepLevel P s v e.dec) (romDgain P (readCb e).wk.cbIdx.toNat) } := by
  simp [gainSteps, readCb_wk, stepLevel, stepPower, currentEnergy, previousEnergy]

theorem gainSteps_wk (P : Params) (s v : Nat) (e : Engine) : (gainSteps P s v e).wk = { e.wk with
    cursor := e.wk.cursor + 6
    cbSign := (readCb e).wk.cbSign
    cbIdx := (readCb e).wk.cbIdx
    e2Init := rd e.dec.curGe 2
    cbGl := stepLevel P s v e.dec
    cbGain := if (readCb e).wk.cbSign then fneg (levelToGain P (stepLevel P s v e.dec))
      else levelToGain P (stepLevel P s v e.dec) } := by
  simp [gainSteps, readCb_wk, stepLevel, stepPower, currentEnergy, previousEnergy]

theorem gainSteps_latch (P : Params) (s v : Nat) (e : Engine) : (gainSteps P s v e).latch = e.latch := by
  simp [gainSteps]

/-! ### Steps 10 to 14: excitation, synthesis and emission -/

/-- LAGRD's value (44_pitch_excitation.md R208). -/
def lagElem (lag : Vector NumVal 169) (j : Int) : NumVal := if lagInRange j then rd lag j.toNat else NumVal.zero

/-- The sum of the three taps of output i (44_pitch_excitation.md R206). -/
def tapSum (P : Params) (lag : Vector NumVal 169) (R : Int) (c : Vector NumVal 3) (i : Nat) : NumVal :=
  fadd P (fadd P (fmul P (lagElem lag (R + i)) (rd c 2)) (fmul P (lagElem lag (R + i + 1)) (rd c 1)))
    (fmul P (lagElem lag (R + i + 2)) (rd c 0))

theorem pitchTap_pitch (P : Params) (R : Int) (c : Vector NumVal 3) (i : Nat) (e : Engine) :
    (pitchTap P R c i e).wk.pitch = wr e.wk.pitch i (tapSum P e.dec.lag R c i) := by
  simp [pitchTap, tapSum, lagElem]

theorem pitchTap_frame (P : Params) (R : Int) (c : Vector NumVal 3) (i : Nat) (e : Engine) :
    pitchTap P R c i e = { e with wk := { e.wk with
      pitch := (pitchTap P R c i e).wk.pitch, oor := (pitchTap P R c i e).wk.oor } } := by
  simp only [pitchTap, lagRead]
  split <;> split <;> split <;> rfl

/-- PITCH sets PITCH and oor alone. -/
theorem pitch_frame (P : Params) (s v : Nat) (e : Engine) : pitch P s v e = { e with wk := { e.wk with
    pitch := (pitch P s v e).wk.pitch, oor := (pitch P s v e).wk.oor } } := by
  refine forRange_induct (by omega : 0 ≤ 4) _ (fun _ t => t = { e with wk := { e.wk with
    pitch := t.wk.pitch, oor := t.wk.oor } }) e rfl fun i t _ _ ht => ?_
  rw [pitchTap_frame, ht]

theorem rd_pitch (P : Params) (s v : Nat) (e : Engine) {i : Nat} (hi : i < 4) : rd (pitch P s v e).wk.pitch i =
    tapSum P e.dec.lag (pitchBase v (rd e.wk.lagv s).toNat) (rd e.wk.lagc s) i := by
  rw [pitch, rd_forRange_of_wr (fun t : Engine => t.wk.pitch) (pitchTap_pitch P _ _) _ hi hi,
    forRange_frame (Nat.zero_le i) _ Engine.dec (pitchTap_dec P _ _)]

theorem rd_combine (P : Params) (e : Engine) {i : Nat} (hi : i < 4) : rd (combine P e).wk.comb i =
    fadd P (fmul P e.wk.cbGain (romCbvec P e.wk.cbIdx.toNat i)) (rd e.wk.pitch i) := by
  rw [combine_wk]
  exact rd_forRange_of_wr id (fun _ _ => rfl) _ hi hi

/-- A loop that writes the m elements from b on writes these and no other. -/
theorem rd_forRange_block {α : Type} [Inhabited α] {n : Nat} (b m : Nat) (g : Nat → α) (x : Vector α n) (j : Nat) :
    rd (forRange 0 m (fun i y => wr y (b + i) (g i)) x) j = if b ≤ j ∧ j < b + m ∧ j < n then g (j - b) else rd x j := by
  induction m with
  | zero => rw [forRange_self, if_neg (by omega)]
  | succ m ih =>
    rw [forRange_succ (Nat.zero_le m), rd_wr, ih]
    by_cases hj : b + m = j ∧ j < n
    · rw [if_pos hj, if_pos (by omega), show j - b = m by omega]
    · rw [if_neg hj]
      exact if_congr (by omega) rfl rfl

/-- A loop that moves every element from d on down by d places. -/
theorem rd_forRange_slide {α : Type} [Inhabited α] {d n : Nat} (hd : d ≤ n) (x : Vector α n) {j : Nat} (hj : j < n) :
    rd (forRange d n (fun i y => wr y (i - d) (rd y i)) x) j = if j + d < n then rd x (j + d) else rd x j := by
  refine forRange_induct hd _ (fun k y => ∀ j < n, rd y j = if j + d < k then rd x (j + d) else rd x j) x
    (fun j _ => by rw [if_neg (by omega)]) (fun k y hdk hk hy j hj => ?_) j hj
  rw [rd_wr, hy j hj]
  by_cases hkj : k - d = j
  · rw [if_pos ⟨hkj, hj⟩, if_pos (by omega), hy k hk, if_neg (by omega), show j + d = k by omega]
  · rw [if_neg (fun h => hkj h.1)]
    exact if_congr (by omega) rfl rfl

/-- SYN_SHIFT_STORE slides the six latest outputs (45_synthesis.md R222). -/
theorem rd_synShiftStore_slid (syn : Vector NumVal 10) (o : Vector NumVal 4) {i : Nat} (hi : i < 6) :
    rd (synShiftStore syn o) i = rd syn (i + 4) := by
  unfold synShiftStore
  rw [rd_wr_other _ _ (by omega), rd_wr_other _ _ (by omega), rd_wr_other _ _ (by omega), rd_wr_other _ _ (by omega),
    rd_forRange_slide (by omega) syn (by omega), if_pos (by omega)]

/-- SYN_SHIFT_STORE appends the step's four outputs (45_synthesis.md R222). -/
theorem rd_synShiftStore_stored (syn : Vector NumVal 10) (o : Vector NumVal 4) {i : Nat} (hi : i < 4) :
    rd (synShiftStore syn o) (6 + i) = rd o i := by
  unfold synShiftStore
  interval_cases i <;> simp [rd_wr]

/-- Output j reads no output of the step but those before it (45_synthesis.md R220). -/
theorem synOutput_congr (P : Params) (lpc : Vector NumVal 11) (syn : Vector NumVal 10) (comb : Vector NumVal 4)
    {o o' : Vector NumVal 4} {j : Nat} (h : ∀ i < j, rd o i = rd o' i) :
    synOutput P lpc syn comb o j = synOutput P lpc syn comb o' j := by
  refine forRange_induct (by omega : 1 ≤ 11) _ (fun k acc => acc =
    forRange 1 k (fun k acc => fsub P acc (fmul P (rd lpc k) (synTap syn o' j k))) (rd comb j)) _
    (forRange_self _ _ _).symm fun k acc hk _ hacc => ?_
  have htap : synTap syn o j k = synTap syn o' j k := by
    rw [synTap, synTap]
    split
    · exact h _ (by omega)
    · rfl
  rw [forRange_succ hk, ← hacc, htap]

/-- The four outputs satisfy R220 together: what output j reads of them is what they end as. -/
theorem rd_synOutputs (P : Params) (e : Engine) : ∀ j < 4,
    rd (synOutputs P e) j = synOutput P e.wk.lpc e.dec.syn e.wk.comb (synOutputs P e) j := by
  unfold synOutputs
  refine forRange_induct (by omega : 0 ≤ 4) _
    (fun k o => ∀ j < k, rd o j = synOutput P e.wk.lpc e.dec.syn e.wk.comb o j) _ (by simp) fun k o _ hk ho j hj => ?_
  have hkeep : ∀ i < k, rd (wr o k (synOutput P e.wk.lpc e.dec.syn e.wk.comb o k)) i = rd o i := fun i hi =>
    rd_wr_other _ _ (by omega)
  rw [synOutput_congr P _ _ _ fun i hi => hkeep i (by omega)]
  rcases Nat.lt_succ_iff_lt_or_eq.mp hj with hjk | rfl
  · rw [hkeep j hjk, ho j hjk]
  · exact rd_wr_same _ _ hk

/-- COMB of the step. -/
def stepComb (P : Params) (s v : Nat) (e : Engine) : Vector NumVal 4 := (combine P (pitch P s v e)).wk.comb

/-- The four outputs of the step. -/
def stepOutputs (P : Params) (s v : Nat) (e : Engine) : Vector NumVal 4 :=
  synOutputs P (lagWrite v (combine P (pitch P s v e)))

theorem sampleSteps_latch (P : Params) (s v : Nat) (e : Engine) : (sampleSteps P s v e).latch = e.latch := by
  simp [sampleSteps]

theorem sampleSteps_dec (P : Params) (s v : Nat) (e : Engine) : (sampleSteps P s v e).dec = { e.dec with
    lag := forRange 0 4 (fun i x => wr x (121 + 4 * v + i) (rd (stepComb P s v e) i)) e.dec.lag
    syn := synShiftStore e.dec.syn (stepOutputs P s v e) } := by
  simp only [sampleSteps, emit_dec, lpcSynth_dec, lagWrite_dec, combine_dec, pitch_dec]
  rfl

theorem sampleSteps_wk (P : Params) (s v : Nat) (e : Engine) : (sampleSteps P s v e).wk = { e.wk with
    pitch := (pitch P s v e).wk.pitch
    oor := (pitch P s v e).wk.oor
    comb := stepComb P s v e
    o := stepOutputs P s v e
    outbuf := forRange 0 4 (fun i x =>
      wr x ((s * 12 + v) * 4 + i) (rd (synShiftStore e.dec.syn (stepOutputs P s v e)) (5 + i))) e.wk.outbuf } := by
  have hpitch := congrArg Engine.wk (pitch_frame P s v e)
  simp only [sampleSteps, emit_wk, lpcSynth_wk, lpcSynth_dec, lagWrite_wk, lagWrite_dec, combine_dec, pitch_dec, stepComb,
    stepOutputs, combine_wk]
  rw [hpitch]

theorem rd_stepComb (P : Params) (s v : Nat) (e : Engine) {i : Nat} (hi : i < 4) : rd (stepComb P s v e) i =
    fadd P (fmul P e.wk.cbGain (romCbvec P e.wk.cbIdx.toNat i)) (rd (pitch P s v e).wk.pitch i) := by
  rw [stepComb, rd_combine P _ hi, pitch_frame]

theorem rd_stepOutputs (P : Params) (s v : Nat) (e : Engine) {j : Nat} (hj : j < 4) : rd (stepOutputs P s v e) j =
    synOutput P e.wk.lpc e.dec.syn (stepComb P s v e) (stepOutputs P s v e) j := by
  have hlpc : (lagWrite v (combine P (pitch P s v e))).wk.lpc = e.wk.lpc := by simp
  have hsyn : (lagWrite v (combine P (pitch P s v e))).dec.syn = e.dec.syn := by simp
  have hcomb : (lagWrite v (combine P (pitch P s v e))).wk.comb = stepComb P s v e := by rw [lagWrite_wk, stepComb]
  rw [stepOutputs, rd_synOutputs P _ j hj, hlpc, hsyn, hcomb]

/-! ### The codebook step -/

/-- READ_CB reads the same fields wherever the sequencer stands. -/
theorem readCb_setSeq (s v : Nat) (ph : Phase) (e : Engine) : readCb (setSeq s v ph e) = setSeq s v ph (readCb e) := rfl

/-- Settles O31: steps 10 to 14 leave what steps 1 to 9 set, and those see the state of the start, since seq is read by no
rule. -/
theorem codebookStepGainChain : Obligations.CodebookStepGainChain := by
  intro P s v e t
  have hdec : t.dec = _ := sampleSteps_dec P s v _
  have hwk : t.wk = _ := sampleSteps_wk P s v _
  have hlatch : t.latch = e.latch := by simp [t, codebookStep, sampleSteps_latch, gainSteps_latch]
  rw [hdec, hwk, hlatch, gainSteps_dec, gainSteps_wk, readCb_setSeq]
  exact ⟨rfl, rfl, rfl, rfl, rfl, rfl, rfl, rfl, rfl, fun h => if_pos h, rfl, rfl, rfl, rfl, rfl, rfl, rfl⟩

/-- What steps 10 to 14 leave in the engine t (43_frame.md R197), in terms of the engine e that they start from and of the
gain and the codebook index in t. -/
structure EmitsFrom (P : Params) (s v : Nat) (e t : Engine) : Prop where
  pitch_eq : t.wk.pitch = (pitch P s v e).wk.pitch
  oor_eq : t.wk.oor = (pitch P s v e).wk.oor
  comb : ∀ i < 4, rd t.wk.comb i = fadd P (fmul P t.wk.cbGain (romCbvec P t.wk.cbIdx.toNat i)) (rd t.wk.pitch i)
  lagWritten : ∀ i < 4, rd t.dec.lag (121 + 4 * v + i) = rd t.wk.comb i
  lagKept : ∀ j < 169, j < 121 + 4 * v ∨ 125 + 4 * v ≤ j → rd t.dec.lag j = rd e.dec.lag j
  outputs : ∀ j < 4, rd t.wk.o j = synOutput P e.wk.lpc e.dec.syn t.wk.comb t.wk.o j
  synSlid : ∀ i < 6, rd t.dec.syn i = rd e.dec.syn (i + 4)
  synStored : ∀ i < 4, rd t.dec.syn (6 + i) = rd t.wk.o i
  samples : ∀ i < 4, rd t.wk.outbuf (4 * (12 * s + v) + i) = rd t.dec.syn (5 + i)
  samplesKept : ∀ k < 192, k < 4 * (12 * s + v) ∨ 4 * (12 * s + v) + 4 ≤ k → rd t.wk.outbuf k = rd e.wk.outbuf k

theorem emitsFrom_sampleSteps (P : Params) {s v : Nat} (e : Engine) (hs : s < 4) (hv : v < 12) :
    EmitsFrom P s v e (sampleSteps P s v e) where
  pitch_eq := by rw [sampleSteps_wk]
  oor_eq := by rw [sampleSteps_wk]
  comb i hi := by
    rw [sampleSteps_wk]
    exact rd_stepComb P s v e hi
  lagWritten i hi := by
    rw [sampleSteps_dec, sampleSteps_wk, rd_forRange_block, if_pos (by omega), Nat.add_sub_cancel_left]
  lagKept j _ hkept := by
    rw [sampleSteps_dec, rd_forRange_block, if_neg (by omega)]
  outputs j hj := by
    rw [sampleSteps_wk]
    exact rd_stepOutputs P s v e hj
  synSlid i hi := by
    rw [sampleSteps_dec]
    exact rd_synShiftStore_slid _ _ hi
  synStored i hi := by
    rw [sampleSteps_dec, sampleSteps_wk]
    exact rd_synShiftStore_stored _ _ hi
  samples i hi := by
    rw [sampleSteps_dec, sampleSteps_wk, rd_forRange_block, if_pos (by omega)]
    exact congrArg _ (by omega)
  samplesKept k _ hkept := by
    rw [sampleSteps_wk, rd_forRange_block, if_neg (by omega)]

/-- PITCH sees nothing of what seq and the gain chain change. -/
theorem pitch_gainSteps (P : Params) (s v : Nat) (e : Engine) :
    (pitch P s v (gainSteps P s v (setSeq s v .step e))).wk.pitch = (pitch P s v e).wk.pitch ∧
    (pitch P s v (gainSteps P s v (setSeq s v .step e))).wk.oor = (pitch P s v e).wk.oor := by
  have hlag : (gainSteps P s v (setSeq s v .step e)).dec.lag = e.dec.lag := by rw [gainSteps_dec]; rfl
  constructor
  · refine ext_rd fun i hi => ?_
    rw [rd_pitch P _ _ _ hi, rd_pitch P _ _ _ hi, gainSteps_wk, hlag]
    rfl
  · rw [Bool.eq_iff_iff, pitch_oor, pitch_oor, gainSteps_wk]
    rfl

/-- The gain chain leaves LAG, SYN, LPC, OUTBUF and all that PITCH reads. -/
theorem EmitsFrom.of_gainSteps {P : Params} {s v : Nat} {e t : Engine}
    (h : EmitsFrom P s v (gainSteps P s v (setSeq s v .step e)) t) : EmitsFrom P s v e t :=
  { h with
    pitch_eq := h.pitch_eq.trans (pitch_gainSteps P s v e).1
    oor_eq := h.oor_eq.trans (pitch_gainSteps P s v e).2
    lagKept := by simpa [gainSteps_dec] using h.lagKept
    outputs := by simpa [gainSteps_dec, gainSteps_wk] using h.outputs
    synSlid := by simpa [gainSteps_dec] using h.synSlid
    samplesKept := by simpa [gainSteps_wk] using h.samplesKept }

theorem emitsFrom_codebookStep (P : Params) {s v : Nat} (e : Engine) (hs : s < 4) (hv : v < 12) :
    EmitsFrom P s v e (codebookStep P s v e) := (emitsFrom_sampleSteps P _ hs hv).of_gainSteps

/-- Steps 10 to 14 change LAG, SYN and five of the working registers. -/
theorem sampleSteps_frame (P : Params) (s v : Nat) (e : Engine) : sampleSteps P s v e = { e with
    dec := { e.dec with lag := (sampleSteps P s v e).dec.lag, syn := (sampleSteps P s v e).dec.syn }
    wk := { e.wk with
      pitch := (sampleSteps P s v e).wk.pitch, oor := (sampleSteps P s v e).wk.oor
      comb := (sampleSteps P s v e).wk.comb, o := (sampleSteps P s v e).wk.o
      outbuf := (sampleSteps P s v e).wk.outbuf } } := by
  calc
    sampleSteps P s v e = ⟨(sampleSteps P s v e).dec, (sampleSteps P s v e).latch, (sampleSteps P s v e).wk⟩ := rfl
    _ = _ := by rw [sampleSteps_latch, sampleSteps_dec, sampleSteps_wk]

/-- A codebook step leaves in the decoder state what the gain chain does, but for LAG and SYN. -/
theorem codebookStep_dec (P : Params) (s v : Nat) (e : Engine) :
    (codebookStep P s v e).dec = { (gainSteps P s v (setSeq s v .step e)).dec with
      lag := (codebookStep P s v e).dec.lag, syn := (codebookStep P s v e).dec.syn } :=
  congrArg Engine.dec (sampleSteps_frame P s v _)

theorem codebookStep_latch (P : Params) (s v : Nat) (e : Engine) : (codebookStep P s v e).latch = e.latch := by
  rw [codebookStep, sampleSteps_latch, gainSteps_latch, setSeq_latch]

theorem codebookStep_lagc (P : Params) (s v : Nat) (e : Engine) : (codebookStep P s v e).wk.lagc = e.wk.lagc := by
  rw [codebookStep, sampleSteps_wk, gainSteps_wk, setSeq_wk]

/-- Settles O37: the two runs emit alike. Sample 4n is SYN[5] after the step, which is SYN[9] before it; the three samples
after it are the step's first three outputs (90_conflicts.md C3). -/
theorem emissionLagsOneSample : Obligations.EmissionLagsOneSample := by
  intro P s v e hs hv n emits t
  have hemits (u : Engine) (h : EmitsFrom P s v e u) : emits u :=
    ⟨h.pitch_eq, h.oor_eq, h.comb, h.lagWritten, h.lagKept, h.outputs, h.synSlid, h.synStored,
      (h.samples 0 (by omega)).trans (h.synSlid 5 (by omega)),
      fun i hi => by
        rw [Nat.add_assoc, h.samples (1 + i) (by omega), ← Nat.add_assoc]
        exact h.synStored i (by omega),
      h.samplesKept⟩
  exact ⟨hemits _ (emitsFrom_sampleSteps P e hs hv), hemits _ (emitsFrom_codebookStep P e hs hv), sampleSteps_frame P s v e⟩

end Sys2Proof.Machine
end

section
/-! PROOFS. The whole DECODE_FRAME (43_frame.md): its order (DecodeFrameRunsInOrder, O60), what it leaves in PREV_LSF
(DecodePersistsQuantizedLsf, O40), and that no working register of an earlier DECODE reaches its results
(DecodeDependsOnlyOnFrameAndState, O39). -/

namespace Sys2Proof.Machine

open Sys2Proof

/-! ### The order of the operations (43_frame.md R195) -/

/-- A relation that every turn carries on holds between two runs of a loop. -/
theorem forRange_rel {σ : Type} {lo hi : Nat} (hle : lo ≤ hi) (body : Nat → σ → σ) (R : Nat → σ → σ → Prop) {x y : σ}
    (h0 : R lo x y) (hs : ∀ k t u, lo ≤ k → k < hi → R k t u → R (k + 1) (body k t) (body k u)) :
    R hi (forRange lo hi body x) (forRange lo hi body y) :=
  forRange_induct hle body (fun k t => R k t (forRange lo k body y)) x (by rwa [forRange_self]) fun k t hk hk' ht => by
    rw [forRange_succ hk]
    exact hs k t _ hk hk' ht

/-- A loop commutes with f when each of its turns does. -/
theorem forRange_comm {σ : Type} {lo hi : Nat} (hle : lo ≤ hi) (body : Nat → σ → σ) (f : σ → σ)
    (h : ∀ k t, body k (f t) = f (body k t)) (x : σ) : forRange lo hi body (f x) = f (forRange lo hi body x) :=
  forRange_rel hle body (fun _ t u => t = f u) rfl fun k _ u _ _ ht => by rw [ht, h]

theorem unpackLag_setSeq (P : Params) (i s v : Nat) (ph : Phase) (e : Engine) :
    unpackLag P i (setSeq s v ph e) = setSeq s v ph (unpackLag P i e) := by
  simp only [unpackLag, getBits, setCursor, setSeq]

theorem unpackLsf_setSeq (P : Params) (i s v : Nat) (ph : Phase) (e : Engine) :
    unpackLsf P i (setSeq s v ph e) = setSeq s v ph (unpackLsf P i e) := by
  simp only [unpackLsf, getBits, setCursor, setSeq]

/-- UNPACK_HEADER does not see seq. -/
theorem unpackHeader_setSeq (P : Params) (s v : Nat) (ph : Phase) (e : Engine) :
    unpackHeader P (setSeq s v ph e) = setSeq s v ph (unpackHeader P e) := by
  have hlags := forRange_comm (by omega : 0 ≤ 4) (unpackLag P) (setSeq s v ph) (unpackLag_setSeq P · s v ph)
  have hlsfs := forRange_comm (by omega : 0 ≤ 10) (unpackLsf P) (setSeq s v ph) (unpackLsf_setSeq P · s v ph)
  rw [unpackHeader, unpackHeader, ← hlsfs, ← hlags]
  rfl

/-- SUBFRAME_START sets seq, whatever it was. -/
theorem subframeStart_setSeq (P : Params) (s s' v : Nat) (ph : Phase) (e : Engine) :
    subframeStart P s (setSeq s' v ph e) = subframeStart P s e := rfl

/-- DECODE_FRAME without the model's own move of seq before UNPACK_HEADER: the first SUBFRAME_START overwrites it. -/
theorem decodeFrame_eq (P : Params) (e : Engine) :
    decodeFrame P e = frameEnd (forRange 0 4 (subframe P) (unpackHeader P (clearOor e))) := by
  have hfirst (x : Engine) : forRange 0 4 (subframe P) (setSeq 0 0 .unpack x) = forRange 0 4 (subframe P) x := rfl
  rw [decodeFrame, unpackHeader_setSeq]
  exact congrArg frameEnd (hfirst _)

theorem codebookStep_seq (P : Params) (s v : Nat) (e : Engine) :
    (codebookStep P s v e).wk.seq = ⟨Fin.ofNat 4 s, Fin.ofNat 12 v, .step⟩ := by
  rw [codebookStep, sampleSteps_wk, gainSteps_wk, setSeq_wk]

/-- The last step of subframe s leaves the sequencer at (s, 11). -/
theorem subframe_seq (P : Params) (s : Nat) (e : Engine) : (subframe P s e).wk.seq = ⟨Fin.ofNat 4 s, 11, .step⟩ := by
  rw [subframe, forRange_succ (by omega : 0 ≤ 11), codebookStep_seq]
  rfl

theorem decodeFrame_seq (P : Params) (e : Engine) : (decodeFrame P e).wk.seq = ⟨3, 11, .frameEnd⟩ := by
  rw [decodeFrame_eq, frameEnd_wk, forRange_succ (by omega : 0 ≤ 3), subframe_seq]
  rfl

/-- Settles O60: the loops of `decodeFrame_eq`, written out. -/
theorem decodeFrameRunsInOrder : Obligations.DecodeFrameRunsInOrder := by
  intro P e u l t
  have hloops : forRange 0 4 (subframe P) u = l := rfl
  have ht : t = frameEnd l := by rw [← hloops]; exact decodeFrame_eq P e
  have hseq : t.wk.seq = ⟨3, 11, .frameEnd⟩ := decodeFrame_seq P e
  refine ⟨?_, by rw [hseq], by rw [hseq]⟩
  rw [ht]
  rfl

/-! ### PREV_LSF after a DECODE (43_frame.md R199) -/

theorem codebookStep_lsf (P : Params) (s v : Nat) (e : Engine) : (codebookStep P s v e).wk.lsf = e.wk.lsf := by
  rw [codebookStep, sampleSteps_wk, gainSteps_wk, setSeq_wk]

theorem subframe_lsf (P : Params) (s : Nat) (e : Engine) : (subframe P s e).wk.lsf = e.wk.lsf :=
  (forRange_frame (by omega) _ (fun t : Engine => t.wk.lsf) (codebookStep_lsf P s) _).trans (by simp [subframeStart])

/-- FRAME_END persists the vector that UNPACK_HEADER read. -/
theorem decodeFrame_prevLsf (P : Params) (e : Engine) :
    (decodeFrame P e).dec.prevLsf = (unpackHeader P (clearOor e)).wk.lsf := by
  have hloop := forRange_frame (by omega : 0 ≤ 4) (subframe P) (fun t => t.wk.lsf) (subframe_lsf P)
    (unpackHeader P (clearOor e))
  simp only [decodeFrame_eq, frameEnd_dec]
  exact hloop

/-- Settles O40. -/
theorem decodePersistsQuantizedLsf : Obligations.DecodePersistsQuantizedLsf := by
  intro P f e hf he
  obtain ⟨-, -, hlsfIdx, -⟩ := getField_packFrame_kinds hf
  refine ⟨by rw [decodeFrame_eq, frameEnd_dec], fun i hi => ?_⟩
  rw [decodeFrame_prevLsf, rd_unpackHeader_lsf P (by rwa [clearOor_latch]) hi, ← hlsfIdx i hi]

/-! ### The working registers do not reach the results (43_frame.md R200) -/

/-- The registers that the header sets are functions of the latch. -/
theorem unpackHeader_congr (P : Params) {e1 e2 : Engine} (h : e1.latch = e2.latch) :
    (unpackHeader P e1).wk.lagc = (unpackHeader P e2).wk.lagc ∧
    (unpackHeader P e1).wk.lagv = (unpackHeader P e2).wk.lagv ∧
    (unpackHeader P e1).wk.lsf = (unpackHeader P e2).wk.lsf := by
  have hlagc (x : Engine) {s : Nat} (hs : s < 4) : rd (unpackHeader P x).wk.lagc s =
      lagRow P (bitsFrom x.latch (BitVec.ofNat 9 (13 * s)).toNat 6) := by
    rw [unpackHeader, forRange_frame (by omega) _ (fun t : Engine => t.wk.lagc) (unpackLsf_lagc P),
      rd_forRange_of_wr (fun t : Engine => t.wk.lagc) (unpackLag_lagc P) _ hs hs, unpackLags_latch, unpackLags_cursor]
  have hlagv (x : Engine) {s : Nat} (hs : s < 4) : rd (unpackHeader P x).wk.lagv s =
      BitVec.ofNat 7 (bitsFrom x.latch (BitVec.ofNat 9 (13 * s) + 6).toNat 7) := by
    rw [unpackHeader, forRange_frame (by omega) _ (fun t : Engine => t.wk.lagv) (unpackLsf_lagv P),
      rd_forRange_of_wr (fun t : Engine => t.wk.lagv) (unpackLag_lagv P) _ hs hs, unpackLags_latch, unpackLags_cursor]
  have hlsf (x : Engine) {i : Nat} (hi : i < 10) : rd (unpackHeader P x).wk.lsf i =
      romLsf P i (bitsFrom x.latch (BitVec.ofNat 9 (52 + lsfBitsBefore i)).toNat (lsfBits i)) := by
    rw [unpackHeader, rd_forRange_of_wr (fun t : Engine => t.wk.lsf) (unpackLsf_lsf P) _ hi hi, unpackLsfs_latch,
      unpackLsfs_cursor]
  exact ⟨ext_rd fun s hs => by rw [hlagc e1 hs, hlagc e2 hs, h], ext_rd fun s hs => by rw [hlagv e1 hs, hlagv e2 hs, h],
    ext_rd fun i hi => by rw [hlsf e1 hi, hlsf e2 hi, h]⟩

/-- Two engines that the rest of a DECODE cannot tell apart when n samples are written: they agree in the decoder state, the
latch, CURSOR, the registers of the header, oor and these samples. -/
structure SameCourse (n : Nat) (e1 e2 : Engine) : Prop where
  dec : e1.dec = e2.dec
  latch : e1.latch = e2.latch
  cursor : e1.wk.cursor = e2.wk.cursor
  lagc : e1.wk.lagc = e2.wk.lagc
  lagv : e1.wk.lagv = e2.wk.lagv
  lsf : e1.wk.lsf = e2.wk.lsf
  oor : e1.wk.oor = e2.wk.oor
  samples : ∀ i < n, rd e1.wk.outbuf i = rd e2.wk.outbuf i

/-- What a step emits is determined by the registers that its equations name: each output by the outputs before it. -/
theorem EmitsFrom.unique {P : Params} {s v : Nat} {e1 e2 t1 t2 : Engine} (h1 : EmitsFrom P s v e1 t1)
    (h2 : EmitsFrom P s v e2 t2) (he : SameCourse (4 * (12 * s + v)) e1 e2) (hlpc : e1.wk.lpc = e2.wk.lpc)
    (hgain : t1.wk.cbGain = t2.wk.cbGain) (hidx : t1.wk.cbIdx = t2.wk.cbIdx) (hs : s < 4) (hv : v < 12) :
    t1.dec.lag = t2.dec.lag ∧ t1.dec.syn = t2.dec.syn ∧ t1.wk.oor = t2.wk.oor ∧
    ∀ k < 4 * (12 * s + (v + 1)), rd t1.wk.outbuf k = rd t2.wk.outbuf k := by
  have hpitch : t1.wk.pitch = t2.wk.pitch := by
    rw [h1.pitch_eq, h2.pitch_eq]
    exact ext_rd fun i hi => by rw [rd_pitch P _ _ _ hi, rd_pitch P _ _ _ hi, he.dec, he.lagc, he.lagv]
  have hcomb : t1.wk.comb = t2.wk.comb := ext_rd fun i hi => by
    rw [h1.comb i hi, h2.comb i hi, hpitch, hgain, hidx]
  have ho : ∀ j < 4, rd t1.wk.o j = rd t2.wk.o j := fun j => by
    induction j using Nat.strong_induction_on with
    | _ j ih =>
      intro hj
      rw [h1.outputs j hj, h2.outputs j hj, hcomb, hlpc, he.dec]
      exact synOutput_congr P _ _ _ fun i hi => ih i hi (by omega)
  have hsyn : t1.dec.syn = t2.dec.syn := ext_rd fun j hj => by
    rcases lt_or_ge j 6 with hj6 | hj6
    · rw [h1.synSlid j hj6, h2.synSlid j hj6, he.dec]
    · obtain ⟨i, rfl⟩ := Nat.exists_eq_add_of_le hj6
      rw [h1.synStored i (by omega), h2.synStored i (by omega), ho i (by omega)]
  refine ⟨ext_rd fun j hj => ?_, hsyn, ?_, fun k hk => ?_⟩
  · by_cases hblock : 121 + 4 * v ≤ j ∧ j < 125 + 4 * v
    · obtain ⟨i, rfl⟩ := Nat.exists_eq_add_of_le hblock.1
      rw [h1.lagWritten i (by omega), h2.lagWritten i (by omega), hcomb]
    · rw [h1.lagKept j hj (by omega), h2.lagKept j hj (by omega), he.dec]
  · rw [h1.oor_eq, h2.oor_eq, Bool.eq_iff_iff, pitch_oor, pitch_oor, he.oor, he.lagv]
  · rcases lt_or_ge k (4 * (12 * s + v)) with hlt | hge
    · rw [h1.samplesKept k (by omega) (.inl hlt), h2.samplesKept k (by omega) (.inl hlt), he.samples k hlt]
    · obtain ⟨i, rfl⟩ := Nat.exists_eq_add_of_le hge
      rw [h1.samples i (by omega), h2.samples i (by omega), hsyn]

namespace SameCourse

variable {P : Params} {n : Nat} {e1 e2 : Engine}

theorem readCb_congr (h : SameCourse n e1 e2) : (readCb e1).wk.cbSign = (readCb e2).wk.cbSign ∧
    (readCb e1).wk.cbIdx = (readCb e2).wk.cbIdx := by
  simp only [readCb_wk, h.latch, h.cursor, and_self]

/-- The gain chain sees the decoder state and the fields READ_CB reads. -/
theorem gainSteps_congr (h : SameCourse n e1 e2) (s v : Nat) :
    (gainSteps P s v (setSeq s v .step e1)).dec = (gainSteps P s v (setSeq s v .step e2)).dec ∧
    (gainSteps P s v (setSeq s v .step e1)).wk.cbGain = (gainSteps P s v (setSeq s v .step e2)).wk.cbGain ∧
    (gainSteps P s v (setSeq s v .step e1)).wk.cbIdx = (gainSteps P s v (setSeq s v .step e2)).wk.cbIdx := by
  simp only [gainSteps_dec, gainSteps_wk, readCb_setSeq, setSeq_wk, setSeq_dec, h.readCb_congr, h.dec, and_self]

theorem after_codebookStep {s v : Nat} (h : SameCourse (4 * (12 * s + v)) e1 e2) (hlpc : e1.wk.lpc = e2.wk.lpc)
    (hs : s < 4) (hv : v < 12) :
    SameCourse (4 * (12 * s + (v + 1))) (codebookStep P s v e1) (codebookStep P s v e2) := by
  obtain ⟨hdec, hgain, hidx⟩ := h.gainSteps_congr (P := P) s v
  obtain ⟨hlag, hsyn, hoor, hsamples⟩ := (emitsFrom_codebookStep P e1 hs hv).unique (emitsFrom_codebookStep P e2 hs hv) h
    hlpc (by simpa only [codebookStep, sampleSteps_wk] using hgain) (by simpa only [codebookStep, sampleSteps_wk] using hidx)
    hs hv
  exact {
    dec := by rw [codebookStep_dec, codebookStep_dec P s v e2, hdec, hlag, hsyn]
    latch := by rw [codebookStep_latch, codebookStep_latch, h.latch]
    cursor := by rw [codebookStep_cursor, codebookStep_cursor, h.cursor]
    lagc := by rw [codebookStep_lagc, codebookStep_lagc, h.lagc]
    lagv := by rw [codebookStep_lagv, codebookStep_lagv, h.lagv]
    lsf := by rw [codebookStep_lsf, codebookStep_lsf, h.lsf]
    oor := hoor
    samples := hsamples }

/-- SUBFRAME_START sets LPC from the decoder state and LSF alone. -/
theorem after_subframeStart (h : SameCourse n e1 e2) (s : Nat) :
    SameCourse n (subframeStart P s e1) (subframeStart P s e2) ∧
    (subframeStart P s e1).wk.lpc = (subframeStart P s e2).wk.lpc := by
  simp only [subframeStart]
  exact ⟨{ h with dec := by simp [h.dec] }, by simp [h.dec, h.lsf]⟩

theorem after_subframe {s : Nat} (h : SameCourse (48 * s) e1 e2) (hs : s < 4) :
    SameCourse (48 * (s + 1)) (subframe P s e1) (subframe P s e2) := by
  have hstart : SameCourse (4 * (12 * s + 0)) e1 e2 := by rwa [Nat.add_zero, ← Nat.mul_assoc]
  have hsteps := forRange_rel (by omega : 0 ≤ 12) (codebookStep P s)
    (fun v t1 t2 => SameCourse (4 * (12 * s + v)) t1 t2 ∧ t1.wk.lpc = t2.wk.lpc) (hstart.after_subframeStart (P := P) s)
    fun v t1 t2 _ hv ⟨ht, hlpc⟩ => ⟨ht.after_codebookStep hlpc hs hv, by rw [codebookStep_lpc, codebookStep_lpc, hlpc]⟩
  rw [show 48 * (s + 1) = 4 * (12 * s + 12) by omega]
  exact hsteps.1

theorem of_unpackHeader (hdec : e1.dec = e2.dec) (hlatch : e1.latch = e2.latch) (hoor : e1.wk.oor = e2.wk.oor) :
    SameCourse 0 (unpackHeader P e1) (unpackHeader P e2) := by
  obtain ⟨hlagc, hlagv, hlsf⟩ := unpackHeader_congr P hlatch
  exact {
    dec := by rw [unpackHeader_dec, unpackHeader_dec, hdec]
    latch := by rw [unpackHeader_latch, unpackHeader_latch, hlatch]
    cursor := by rw [unpackHeader_cursor, unpackHeader_cursor]
    lagc := hlagc
    lagv := hlagv
    lsf := hlsf
    oor := by rw [unpackHeader_oor, unpackHeader_oor, hoor]
    samples := fun _ hi => absurd hi (Nat.not_lt_zero _) }

end SameCourse

/-- Settles O39: after UNPACK_HEADER the two engines take the same course, to the last of the 192 samples. -/
theorem decodeDependsOnlyOnFrameAndState : Obligations.DecodeDependsOnlyOnFrameAndState := by
  intro P e1 e2 hdec hlatch
  have hheader : SameCourse (48 * 0) (unpackHeader P (clearOor e1)) (unpackHeader P (clearOor e2)) :=
    .of_unpackHeader (by simpa using hdec) (by simpa using hlatch) (by simp)
  have hend := forRange_rel (by omega : 0 ≤ 4) (subframe P) (fun s t1 t2 => SameCourse (48 * s) t1 t2) hheader
    fun s t1 t2 _ hs ht => ht.after_subframe hs
  simp only [decodeFrame_eq, frameEnd_dec, frameEnd_wk]
  exact ⟨by rw [hend.dec, hend.lsf], ext_rd hend.samples, hend.oor⟩

end Sys2Proof.Machine
end

section
/-! PROOFS. The lag buffer and the excitation (44_pitch_excitation.md): the shift at the start of a subframe (LagShiftMovesBlock,
O32), the pitch predictor (PitchIsThreeTapPredictor, O33), and COMBINE with LAG_WRITE (ExcitationIsCombinedAndStored, O35). -/

namespace Sys2Proof.Machine

open Sys2Proof

/-! ### LAG_SHIFT and SUBFRAME_START (44_pitch_excitation.md R205; 43_frame.md R196) -/

/-- Each element is read before the turn that overwrites it (R205). -/
theorem rd_lagShifted (lag : Vector NumVal 169) {i : Nat} (hi : i < 169) :
    rd (lagShifted lag) i = if i < 121 then rd lag (i + 48) else rd lag i := by
  unfold lagShifted
  rw [rd_forRange_slide (by omega) lag hi]
  exact if_congr (by omega) rfl rfl

/-- SUBFRAME_START changes LAG, LPC and seq: LPC_SELECT does not read the seq set before it. -/
theorem subframeStart_frame (P : Params) (s : Nat) (e : Engine) : subframeStart P s e = { e with
    dec := { e.dec with lag := lagShifted e.dec.lag }
    wk := { e.wk with lpc := (lpcSelect P s e).wk.lpc, seq := (subframeStart P s e).wk.seq } } := rfl

/-- Settles O32: `rd_lagShifted` on either side of element 121, and what SUBFRAME_START leaves. -/
theorem lagShiftMovesBlock : Obligations.LagShiftMovesBlock := by
  intro P s e t
  have hlag : t.dec.lag = lagShifted e.dec.lag := by rw [lagShift_dec]
  refine ⟨fun i hi => ?_, fun i hlow hi => ?_, rfl, subframeStart_frame P s e⟩
  · rw [hlag, rd_lagShifted _ (by omega), if_pos hi]
  · rw [hlag, rd_lagShifted _ hi, if_neg (by omega)]

/-! ### PITCH (44_pitch_excitation.md R206, R208) -/

theorem lagInRange_iff {j : Int} : lagInRange j = true ↔ 0 ≤ j ∧ j ≤ 168 := by
  rw [lagInRange, Bool.and_eq_true, decide_eq_true_iff, decide_eq_true_iff]

/-- LAGRD's value with the bounds of R208 written out. -/
theorem lagElem_eq (lag : Vector NumVal 169) (j : Int) :
    lagElem lag j = if 0 ≤ j ∧ j ≤ 168 then rd lag j.toNat else NumVal.zero :=
  if_congr lagInRange_iff rfl rfl

theorem pitchBase_eq (v lag : Nat) : pitchBase v lag = 120 + 4 * v - lag := by
  rw [pitchBase]
  omega

/-- The six taps are consecutive: one is outside the buffer exactly when the first or the last is. -/
theorem tapsLeave_iff_exists (v lag : Nat) : TapsLeave v lag ↔
    ∃ j : Int, pitchBase v lag ≤ j ∧ j ≤ pitchBase v lag + 5 ∧ ¬(0 ≤ j ∧ j ≤ 168) := by
  constructor
  · rintro (hlow | hhigh)
    · exact ⟨pitchBase v lag, by omega, by omega, by omega⟩
    · exact ⟨pitchBase v lag + 5, by omega, by omega, by omega⟩
  · rintro ⟨j, hfirst, hlast, hout⟩
    rw [TapsLeave]
    omega

/-- Settles O33: PITCH does not write LAG, so every tap is of the LAG at its start; oor rises for the first tap or the last. -/
theorem pitchIsThreeTapPredictor : Obligations.PitchIsThreeTapPredictor := by
  intro P s v e R tap c t
  have hR : pitchBase v (rd e.wk.lagv s).toNat = R := pitchBase_eq v _
  have htap (j : Int) : lagElem e.dec.lag j = tap j := lagElem_eq e.dec.lag j
  refine ⟨fun i hi => ?_, ?_, pitch_frame P s v e⟩
  · rw [rd_pitch P s v e hi, tapSum, hR, htap, htap, htap]
  · rw [pitch_oor, tapsLeave_iff_exists, hR]

/-! ### COMBINE and LAG_WRITE (44_pitch_excitation.md R209, R210) -/

/-- LAG_WRITE(v) stores COMB in the four elements from 121 + 4v on. -/
theorem rd_lagWrite (v : Nat) (e : Engine) (j : Nat) : rd (lagWrite v e).dec.lag j =
    if 121 + 4 * v ≤ j ∧ j < 121 + 4 * v + 4 ∧ j < 169 then rd e.wk.comb (j - (121 + 4 * v)) else rd e.dec.lag j := by
  rw [lagWrite_dec]
  exact rd_forRange_block _ 4 (rd e.wk.comb) e.dec.lag j

/-- Settles O35: the block that step v < 12 writes ends within LAG. -/
theorem excitationIsCombinedAndStored : Obligations.ExcitationIsCombinedAndStored := by
  intro P v e hv
  refine ⟨rfl, fun i hi => rd_combine P e hi, rfl, fun i hi => ?_, fun j _ hkept => ?_⟩
  · rw [rd_lagWrite, if_pos (by omega), Nat.add_sub_cancel_left]
  · rw [rd_lagWrite, if_neg (by omega)]

end Sys2Proof.Machine
end

section
/-! PROOFS. The synthesis filter (45_synthesis.md): LPC_SYNTH alone (SynthesisSubtractsInOrderAndSlides, O36), and the filter
memory from one frame to the next (FilterMemoryCrossesFrames, O38). -/

namespace Sys2Proof.Machine

open Sys2Proof

/-! ### LPC_SYNTH (45_synthesis.md R220 to R222) -/

/-- The products of `synOutput`, their taps written out, in the order of R220. -/
theorem synOutput_eq_foldl (P : Params) (lpc : Vector NumVal 11) (syn : Vector NumVal 10) (comb o : Vector NumVal 4) (j : Nat) :
    synOutput P lpc syn comb o j = [1, 2, 3, 4, 5, 6, 7, 8, 9, 10].foldl (fun acc k =>
      fsub P acc (fmul P (rd lpc k) (if k ≤ j then rd o (j - k) else rd syn (10 + j - k)))) (rd comb j) := rfl

/-- Settles O36: the outputs satisfy R220 together (`rd_synOutputs`), and SYN slides over them. -/
theorem synthesisSubtractsInOrderAndSlides : Obligations.SynthesisSubtractsInOrderAndSlides := by
  intro P e t
  have ho : t.wk.o = synOutputs P e := by rw [lpcSynth_wk]
  have hsyn : t.dec.syn = synShiftStore e.dec.syn t.wk.o := by rw [ho, lpcSynth_dec]
  refine ⟨fun j hj => ?_, fun i hi => ?_, fun i hi => ?_, rfl⟩
  · rw [← synOutput_eq_foldl, ho]
    exact rd_synOutputs P e j hj
  · rw [hsyn, rd_synShiftStore_slid _ _ hi]
  · rw [hsyn, rd_synShiftStore_stored _ _ hi]

/-! ### The samples that later steps keep (45_synthesis.md R223) -/

/-- The first turn of a loop. -/
theorem forRange_first {σ : Type} {lo hi : Nat} (h : lo < hi) (body : Nat → σ → σ) (s : σ) :
    forRange lo hi body s = forRange (lo + 1) hi body (body lo s) := by
  have hcount : hi - lo = (hi - (lo + 1)) + 1 := by omega
  rw [forRange, forRange, hcount, List.range'_succ, List.foldl_cons]

/-- The steps of a subframe from v = lo on write no sample before their own. -/
theorem codebookSteps_samplesKept (P : Params) {s lo k : Nat} (hs : s < 4) (hlo : lo ≤ 12) (hk : k < 4 * (12 * s + lo))
    (e : Engine) : rd (forRange lo 12 (codebookStep P s) e).wk.outbuf k = rd e.wk.outbuf k :=
  forRange_induct hlo (codebookStep P s) (fun _ t => rd t.wk.outbuf k = rd e.wk.outbuf k) e rfl fun v t hv hv' ht =>
    ((emitsFrom_codebookStep P t hs hv').samplesKept k (by omega) (.inl (by omega))).trans ht

/-- A subframe writes no sample of an earlier one. -/
theorem subframe_samplesKept (P : Params) {s k : Nat} (hs : s < 4) (hk : k < 48 * s) (e : Engine) :
    rd (subframe P s e).wk.outbuf k = rd e.wk.outbuf k :=
  (codebookSteps_samplesKept P hs (Nat.zero_le 12) (by omega) _).trans (by rw [subframeStart_frame])

/-- The first sample of a subframe is the output that the step before it deferred in SYN[9] (90_conflicts.md C3). -/
theorem subframe_firstSample (P : Params) {s : Nat} (hs : s < 4) (e : Engine) :
    rd (subframe P s e).wk.outbuf (48 * s) = rd e.dec.syn 9 := by
  have hstep := emitsFrom_codebookStep P (subframeStart P s e) hs (by omega : 0 < 12)
  calc rd (subframe P s e).wk.outbuf (48 * s)
      = rd (codebookStep P s 0 (subframeStart P s e)).wk.outbuf (48 * s) := by
        rw [subframe, forRange_first (by omega), codebookSteps_samplesKept P hs (by omega) (by omega)]
    _ = rd (codebookStep P s 0 (subframeStart P s e)).dec.syn 5 := by
        rw [show 48 * s = 4 * (12 * s + 0) + 0 by omega, hstep.samples 0 (by omega)]
    _ = rd (subframeStart P s e).dec.syn 9 := hstep.synSlid 5 (by omega)
    _ = rd e.dec.syn 9 := by rw [subframeStart_frame]

/-! ### The first and the last step of a DECODE (45_synthesis.md R224) -/

theorem decodeFrame_firstSample (P : Params) (e : Engine) : rd (decodeFrame P e).wk.outbuf 0 = rd e.dec.syn 9 := by
  have hkept (t : Engine) : rd (forRange 1 4 (subframe P) t).wk.outbuf 0 = rd t.wk.outbuf 0 :=
    forRange_induct (by omega) (subframe P) (fun _ u => rd u.wk.outbuf 0 = rd t.wk.outbuf 0) t rfl fun s u hs hs' hu =>
      (subframe_samplesKept P hs' (by omega) u).trans hu
  rw [decodeFrame_eq, frameEnd_wk, forRange_first (by omega), hkept]
  exact (subframe_firstSample P (s := 0) (by omega) _).trans (by rw [unpackHeader_dec, clearOor_dec])

/-- A DECODE ends with step (3, 11) and FRAME_END. -/
theorem decodeFrame_lastStep (P : Params) (e : Engine) : ∃ u, decodeFrame P e = frameEnd (codebookStep P 3 11 u) := by
  rw [decodeFrame_eq, forRange_succ (by omega : 0 ≤ 3), subframe, forRange_succ (by omega : 0 ≤ 11)]
  exact ⟨_, rfl⟩

/-- Settles O38: the first sample stays from step (0, 0) on; step (3, 11) leaves the last four samples and the output o3
in SYN, and FRAME_END keeps them. -/
theorem filterMemoryCrossesFrames : Obligations.FilterMemoryCrossesFrames := by
  intro P e
  obtain ⟨u, hlast⟩ := decodeFrame_lastStep P e
  have hstep := emitsFrom_codebookStep P u (by omega : 3 < 4) (by omega : 11 < 12)
  refine ⟨decodeFrame_firstSample P e, ?_, fun i hi => ?_⟩
  · rw [hlast, frameEnd_dec, frameEnd_wk]
    exact hstep.synStored 3 (by omega)
  · rw [hlast, frameEnd_dec, frameEnd_wk]
    exact hstep.samples i hi

end Sys2Proof.Machine
end

section
/-! PROOFS. The commands (46_commands.md): acceptance, completion and the steps that run them, each said once, and that every
accepted command completes (statements O1, O2, O3, O5, O7, O8, O9, O10, O11, O52). -/

namespace Sys2Proof.Machine

open Sys2Proof

/-! ### A command at its two instants (R231, R233 to R235) -/

theorem exec_nop (s : State) : exec .nop s = .next s := rfl

theorem exec_reset_host_idle {s : State} (ha : s.actor = .host) (hb : s.status.busy = false) :
    exec .reset s = .next (accept .reset s) := by
  simp [exec, execReset, issueReset, ha, hb]

theorem exec_decode_host_idle {s : State} (ha : s.actor = .host) (hb : s.status.busy = false) :
    exec .decode s = .next (latchFrame (accept .decode s)) := by
  simp [exec, execDecode, issueDecode, ha, hb]

theorem exec_decode_engine {s : State} (ha : s.actor = .engine) :
    exec .decode s = .next (completeDecode Config.params s) := by
  simp only [exec, execDecode, ha]

/-- Settles O1. -/
theorem nopHasNoEffect : Obligations.NopHasNoEffect := ⟨rfl, exec_nop⟩

/-- Settles O2: the two acceptances, written out. -/
theorem idleEngineAcceptsCommand : Obligations.IdleEngineAcceptsCommand := fun _ ha hb =>
  ⟨exec_reset_host_idle ha hb, exec_decode_host_idle ha hb⟩

/-- Settles O3: the latch of an acceptance is `latchOf`, read byte by byte. -/
theorem acceptanceLatchesFrameBytes : Obligations.AcceptanceLatchesFrameBytes := fun s ha hb =>
  ⟨_, exec_decode_host_idle ha hb, rfl, fun _ hk => rd_latchOf s.frameIn hk⟩

/-- −32 is written the same as an integer and as the reset value of the gain levels (10_state.md R60). -/
theorem numOfInt_neg_32 : numOfInt (-32) = numMinus32 := by decide

/-- Settles O5: the decoder that the completion leaves is `Decoder.reset`. -/
theorem resetCompletionRestoresDecoder : Obligations.ResetCompletionRestoresDecoder := by
  refine ⟨rfl, fun s ha => ⟨Decoder.reset, exec_reset_engine ha, rfl, ?_, ?_, ?_, ?_, ?_, ?_, rfl⟩⟩
  · exact fun i hi => rd_replicate NumVal.zero hi
  · exact fun i hi => rd_replicate NumVal.zero hi
  · exact fun i hi => rd_replicate NumVal.zero hi
  · exact numOfInt_neg_32.symm
  · exact numOfInt_neg_32.symm
  · exact fun i hi => ⟨rd_replicate NumVal.zero hi, rd_replicate NumVal.zero hi⟩

theorem subframe_latch (P : Params) (s : Nat) (e : Engine) : (subframe P s e).latch = e.latch :=
  (forRange_frame (by omega) _ Engine.latch (codebookStep_latch P s) _).trans (by rw [subframeStart_frame])

/-- DECODE_FRAME reads the latched frame and leaves it (10_state.md R41). -/
theorem decodeFrame_latch (P : Params) (e : Engine) : (decodeFrame P e).latch = e.latch := by
  rw [decodeFrame_eq, frameEnd_latch]
  exact (forRange_frame (by omega) _ Engine.latch (subframe_latch P) _).trans (by simp)

theorem decodeFrame_prevValid (P : Params) (e : Engine) : (decodeFrame P e).dec.prevValid = true := by
  rw [decodeFrame_eq, frameEnd_dec]

/-- Settles O7. -/
theorem decodeCompletionPublishesFrame : Obligations.DecodeCompletionPublishesFrame := fun s ha =>
  ⟨exec_decode_engine ha, decodeFrame_prevValid _ s.eng, decodeFrame_latch _ s.eng⟩

/-! ### The step of a CMD write (R230) -/

/-- Out of reset a write of CMD is a command (20_memory.md R88). -/
theorem hostWrite_cmd {s : State} {off : Offset} {be : BitVec 4} (d : Word32) (hr : s.rst = false)
    (ha : accessed off be = .cmd) : hostWrite off be d s = .command d := by
  simp [hostWrite, hr, ha]

theorem accessed_cmd : accessed 0x0008 0b1111 = .cmd := rfl

theorem step_cmdWrite {s : State} {d : Word32} {rest : List PortEvent} (hr : s.rst = false)
    (hs : s.script = .write 0x0008 0b1111 d :: rest) :
    step s = commandWrite d (setActor .host { s with script := rest }) := by
  simp only [step, hs, stepEvent, hostWrite_cmd (s := setActor .host { s with script := rest }) d hr accessed_cmd]

/-- Settles O10. -/
theorem stepRunsDecodedCommand : Obligations.StepRunsDecodedCommand := by
  intro s d i rest hr hs hd
  rw [step_cmdWrite hr hs, commandWrite, hd]
  rfl

/-! ### The engine's turn (R236) -/

/-- An engine event and an empty list are both the engine's turn (notes/assumptions/9.md). -/
theorem step_engine {s : State} {rest : List PortEvent} (hs : s.script = .engine :: rest ∨ (s.script = [] ∧ rest = [])) :
    step s = engineTurn { s with script := rest } := by
  rcases hs with hs | ⟨hs, rfl⟩
  · simp only [step, hs, stepEvent]
  · simp only [step, hs]
    rw [← hs]

theorem engineTurn_of_command {s : State} {i : Instr} (h : engineCommand s = some i) :
    engineTurn s = exec i (setActor .engine s) := by
  simp only [engineTurn, h]

theorem engineCommand_reset {s : State} (hr : s.rst = false) (hp : s.pending = .reset) :
    engineCommand s = some .reset := by
  simp [engineCommand, hr, hp]

theorem engineCommand_decode {s : State} (hr : s.rst = false) (hp : s.pending = .decode) :
    engineCommand s = some .decode := by
  simp [engineCommand, hr, hp]

theorem engineTurn_of_none {s : State} (hp : s.pending = .none) : engineTurn s = .next (setActor .engine s) := by
  simp [engineTurn, engineCommand, hp]

/-- Settles O11, by the pending command. -/
theorem engineTurnRunsPendingCommand : Obligations.EngineTurnRunsPendingCommand := by
  intro s rest hr hs
  rw [step_engine hs]
  refine ⟨fun hp => ?_, fun hp => ?_, fun hp => ?_⟩
  · exact engineTurn_of_command (engineCommand_reset hr hp)
  · exact engineTurn_of_command (engineCommand_decode hr hp)
  · exact engineTurn_of_none hp

/-- The CMD write of DECODE on an idle engine (R231). -/
theorem step_issueDecode {s : State} {rest : List PortEvent} (hr : s.rst = false) (hb : s.status.busy = false)
    (hs : s.script = .write 0x0008 0b1111 0x00000002 :: rest) :
    step s = .next (latchFrame (accept .decode { s with script := rest, actor := .host })) :=
  (stepRunsDecodedCommand s _ .decode rest hr hs (decodeCommand_encode .decode)).trans (exec_decode_host_idle rfl hb)

/-- The engine's turn while a DECODE is pending (R233). -/
theorem step_completeDecode {s : State} {rest : List PortEvent} (hr : s.rst = false) (hp : s.pending = .decode)
    (hs : s.script = .engine :: rest) :
    step s = .next (completeDecode Config.params { s with script := rest, actor := .engine }) := by
  rw [step_engine (.inl hs), engineTurn_of_command (engineCommand_decode (s := { s with script := rest }) hr hp)]
  exact exec_decode_engine rfl

/-- Settles O8: the CMD write latches FRAME_IN, and the completion decodes the latch. -/
theorem issuedDecodeDecodesFrameIn : Obligations.IssuedDecodeDecodesFrameIn := by
  intro s rest hr hb hs e
  have hissue := step_issueDecode hr hb hs
  have hcomplete := step_completeDecode (s := latchFrame (accept .decode { s with script := .engine :: rest, actor := .host }))
    hr rfl rfl
  exact (core_run_succ 1 hissue).trans (core_run_succ 0 hcomplete)

/-! ### The reset input (R237) -/

/-- Settles O52: what `setRst` gives, in any state. -/
theorem assertedResetAbandonsCommand : Obligations.AssertedResetAbandonsCommand := by
  intro s rest hs
  simp only [step, hs, stepEvent, setRst, powerOn, ↓reduceIte]

/-! ### Every step has a next state, with the event taken off the list -/

theorem exec_total (i : Instr) (s : State) : ∃ t, exec i s = .next t := by
  cases i with
  | nop => exact ⟨s, rfl⟩
  | reset => cases ha : s.actor <;> simp [exec, execReset, ha]
  | decode => cases ha : s.actor <;> simp [exec, execDecode, ha]

theorem engineTurn_total (s : State) : ∃ t, engineTurn s = .next t := by
  cases h : engineCommand s with
  | none => exact ⟨setActor .engine s, by simp only [engineTurn, h]⟩
  | some i => simpa only [engineTurn_of_command h] using exec_total i _

theorem commandWrite_total (d : Word32) (s : State) : ∃ t, commandWrite d s = .next t := by
  cases hd : decodeCommand d with
  | ok i => simpa only [commandWrite, hd] using exec_total i s
  | error r => exact ⟨rejectCommand s, by simp only [commandWrite, hd]⟩

theorem stepEvent_total (ev : PortEvent) (s : State) : ∃ t, stepEvent ev s = .next t := by
  cases ev with
  | read off be => exact ⟨_, rfl⟩
  | write off be d =>
    cases hw : hostWrite off be d (setActor .host s) with
    | done t => exact ⟨t, by simp only [stepEvent, hw]⟩
    | command w => simpa only [stepEvent, hw] using commandWrite_total w _
  | engine => exact engineTurn_total s
  | rst level => exact ⟨_, rfl⟩

theorem step_total (s : State) : ∃ t, step s = .next t := by
  cases hs : s.script with
  | nil => simpa only [step, hs] using engineTurn_total s
  | cons ev rest => simpa only [step, hs] using stepEvent_total ev _

theorem exec_script {i : Instr} {s t : State} (h : exec i s = .next t) : t.script = s.script := by
  rcases exec_next_cases h with ⟨_, rfl⟩ | ⟨_, _, rfl⟩ | ⟨_, _, rfl⟩ | ⟨_, _, rfl⟩ | ⟨_, _, rfl⟩
  · rfl
  · rcases issueReset_cases s with ⟨_, hi⟩ | ⟨_, hi⟩ <;> simp [hi]
  · exact completeReset_script s
  · rcases issueDecode_cases s with ⟨_, hi⟩ | ⟨_, hi⟩ <;> simp [hi]
  · exact completeDecode_script _ s

theorem engineTurn_script {s t : State} (h : engineTurn s = .next t) : t.script = s.script := by
  rcases engineTurn_next_cases h with ⟨_, rfl⟩ | ⟨_, _, rfl⟩ | ⟨_, _, rfl⟩ <;> simp

theorem hostRead_script (P : Params) (off : Offset) (be : BitVec 4) (s : State) : (hostRead P off be s).script = s.script := by
  obtain ⟨_, _, _, _, _, hscript, _⟩ := hostRead_frame P off be s
  exact hscript

theorem hostWrite_script {off : Offset} {be : BitVec 4} {d : Word32} {s t : State} (h : hostWrite off be d s = .done t) :
    t.script = s.script := by
  rcases hostWrite_cases off be d s with ⟨_, hw⟩ | ⟨_, _, hw⟩ | ⟨_, _, hw⟩ | ⟨_, j, _, hw⟩ | ⟨_, hw⟩ <;>
    rw [hw] at h <;> cases h <;> rfl

theorem setRst_script (level : Bool) (s : State) : (setRst level s).script = s.script := by
  cases level <;> rfl

/-- A step takes the next event, if there is one, and leaves the others (notes/assumptions/9.md). -/
theorem step_script {s t : State} (h : step s = .next t) : t.script = s.script.tail := by
  rcases step_next_cases h with ⟨hs, ht⟩ | ⟨rest, hs, ht⟩ | ⟨level, rest, hs, rfl⟩ | ⟨off, be, rest, hs, rfl⟩ |
    ⟨off, be, d, rest, hs, ht⟩ | ⟨off, be, d, rest, hs, _, _, _, rfl⟩ | ⟨off, be, d, rest, i, hs, _, _, _, ht⟩ <;>
    rw [hs, List.tail]
  · exact (engineTurn_script ht).trans hs
  · exact engineTurn_script ht
  · exact setRst_script level _
  · exact hostRead_script _ off be _
  · exact hostWrite_script ht
  · rfl
  · exact exec_script ht

/-! ### An accepted command completes (R236) -/

/-- A command is being executed, and the reset input is released (10_state.md R45). -/
structure Executing (s : State) : Prop where
  rst : s.rst = false
  busy : s.status.busy = true
  pending : s.pending ≠ .none

/-- The instant after a completion (46_commands.md R236). -/
structure Completed (s : State) : Prop where
  pending : s.pending = .none
  busy : s.status.busy = false
  done : s.status.done = true

theorem executing_of_pendingAgrees {s : State} (hp : pendingAgrees s = true) (hr : s.rst = false)
    (hb : s.status.busy = true) : Executing s :=
  ⟨hr, hb, by simpa [pendingAgrees, hb] using hp⟩

theorem completed_completeReset (s : State) : Completed (completeReset s) := by
  constructor <;> simp

theorem completed_completeDecode (P : Params) (s : State) : Completed (completeDecode P s) := by
  constructor <;> simp

/-- While a command is being executed the engine's turn completes it. -/
theorem Executing.completed_of_engineTurn {s t : State} (hs : Executing s) (h : engineTurn s = .next t) : Completed t := by
  rcases engineTurn_next_cases h with ⟨hr | hp, _⟩ | ⟨_, _, rfl⟩ | ⟨_, _, rfl⟩
  · exact absurd (hs.rst.symm.trans hr) (by decide)
  · exact absurd hp hs.pending
  · exact completed_completeReset _
  · exact completed_completeDecode _ _

/-- While a command is being executed, a step that does not assert `rst` leaves it executing or completes it: no other
command is accepted (R231), and no host access clears BUSY or PENDING. -/
theorem Executing.step {s t : State} (hs : Executing s) (hno : PortEvent.rst true ∉ s.script) (h : step s = .next t) :
    Executing t ∨ Completed t := by
  obtain ⟨hr, hb, hp⟩ := hs
  cases step_effect h with
  | quiet hu | refuse hu | reject hu | writeStatus hu | writeFrameIn j d hu =>
    exact .inl (by constructor <;> simp [hu.rst, hu.status, hu.pending, hr, hb, hp])
  | acceptReset hu _ hidle | acceptDecode hu _ hidle => exact absurd (hb.symm.trans hidle) (by decide)
  | completeReset hu => exact .inr (completed_completeReset _)
  | completeDecode hu => exact .inr (completed_completeDecode _ _)
  | @setRst u level rest hu hscript =>
    cases level with
    | true => exact absurd (by rw [hscript]; exact List.mem_cons_self) hno
    | false => exact .inl ⟨rfl, hu.status ▸ hb, hu.pending ▸ hp⟩

/-- Within the events of the list and one step more, a command that is being executed has completed. -/
theorem Executing.completes {s : State} (hs : Executing s) (hno : PortEvent.rst true ∉ s.script) :
    ∃ k t, k ≤ s.script.length + 1 ∧ Host.Core.run core k s = .next t ∧ Completed t := by
  induction hl : s.script generalizing s with
  | nil =>
    obtain ⟨t, ht⟩ := engineTurn_total s
    have hstep : Machine.step s = .next t := by rw [Machine.step, hl]; exact ht
    exact ⟨1, t, le_add_self, core_run_succ 0 hstep, hs.completed_of_engineTurn ht⟩
  | cons ev rest ih =>
    obtain ⟨t, hstep⟩ := step_total s
    have hrest : t.script = rest := by rw [step_script hstep, hl, List.tail]
    rcases hs.step hno hstep with ht | ht
    · have hno' : PortEvent.rst true ∉ t.script := fun hmem =>
        hno (by rw [hl]; exact List.mem_cons_of_mem _ (hrest ▸ hmem))
      obtain ⟨k, u, hk, hrun, hu⟩ := ih ht hno' hrest
      exact ⟨k + 1, u, Nat.succ_le_succ hk, (core_run_succ k hstep).trans hrun, hu⟩
    · exact ⟨1, t, le_add_self, core_run_succ 0 hstep, ht⟩

/-- Settles O9, by induction on the events to come. -/
theorem acceptedCommandCompletes : Obligations.AcceptedCommandCompletes := by
  intro s hp hr hb hno
  obtain ⟨k, t, hk, hrun, ht⟩ := (executing_of_pendingAgrees hp hr hb).completes hno
  exact ⟨k, t, hk, hrun, ht.pending, ht.busy, ht.done⟩

end Sys2Proof.Machine
end

section
/-! PROOFS. The events of 60_exceptions.md: a rejected command and a refused access, each said once as the operation that
records it, that no event stops the machine, and the state after power-on (statements O4, O44, O51, O54). -/

namespace Sys2Proof.Machine

open Sys2Proof

/-! ### A rejected command (R242) -/

/-- A word with a bit of [31:4] set, or with OP from 3 on, is no command (30_encoding.md R125). -/
theorem commandWordWf_of_reserved {d : Word32} (h : d.extractLsb' 4 28 ≠ 0 ∨ 3 ≤ (d.extractLsb' 0 4).toNat) :
    commandWordWf d = false := by
  rw [commandWordWf, Bool.and_eq_false_iff]
  exact h.imp beq_eq_false_iff_ne.mpr fun hop => decide_eq_false (by omega)

theorem commandWrite_of_reserved {d : Word32} (h : commandWordWf d = false) (s : State) :
    commandWrite d s = .next (rejectCommand s) := by
  obtain ⟨r, hr⟩ := decodeCommand_of_not_wf h
  simp only [commandWrite, hr]

/-- RESET and DECODE are rejected while a command is executing (46_commands.md R230). -/
theorem exec_host_busy {i : Instr} {s : State} (ha : s.actor = .host) (hb : s.status.busy = true) (hi : i ≠ .nop) :
    exec i s = .next (rejectCommand s) := by
  cases i with
  | nop => exact absurd rfl hi
  | reset => simp [exec, execReset, issueReset, ha, hb]
  | decode => simp [exec, execDecode, issueDecode, ha, hb]

theorem commandWrite_host_busy {i : Instr} {s : State} (ha : s.actor = .host) (hb : s.status.busy = true) (hi : i ≠ .nop) :
    commandWrite (encode i) s = .next (rejectCommand s) := by
  simp only [commandWrite, decodeCommand_encode, exec_host_busy ha hb hi]

/-- Settles O4: either the word is reserved, or it is RESET or DECODE on a busy engine. -/
theorem rejectedCommandSetsOnlyCmderr : Obligations.RejectedCommandSetsOnlyCmderr := by
  intro s d rest hr hs hcause
  rw [step_cmdWrite hr hs]
  rcases hcause with hhigh | hop | ⟨hb, rfl | rfl⟩
  · exact commandWrite_of_reserved (commandWordWf_of_reserved (.inl hhigh)) _
  · exact commandWrite_of_reserved (commandWordWf_of_reserved (.inr hop)) _
  · exact commandWrite_host_busy (i := .reset) rfl hb (by decide)
  · exact commandWrite_host_busy (i := .decode) rfl hb (by decide)

/-! ### A refused access (R243) -/

/-- The registers a host write does not refuse (20_memory.md R86). -/
def Reg.writable : Reg → Bool
  | .cmd | .status | .frameIn _ => true
  | .id | .cfg | .stateSlot _ _ | .outSlot _ _ | .reserved => false

section RefusedAccess

variable {s : State} {off : Offset} {be : BitVec 4} {d : Word32} {rest : List PortEvent}

/-- The offsets that the register map leaves out (20_memory.md R84). -/
theorem regAt_reserved {a : Nat} (h4 : a % 4 = 0)
    (h : (0x10 ≤ a ∧ a ≤ 0xFF) ∨ (0x130 ≤ a ∧ a ≤ 0xFFF) ∨ (0x1800 ≤ a ∧ a ≤ 0x1FFF) ∨ 0x2600 ≤ a) :
    regAt a = .reserved := by
  rw [regAt, if_neg (by omega), if_neg (by omega), if_neg (by omega), if_neg (by omega), if_neg (by omega),
    if_neg (by omega), if_neg (by omega)]

/-- Only CMD, STATUS and FRAME_IN are written (20_memory.md R84, R86). -/
theorem regAt_writable {a : Nat} (h : (regAt a).writable = true) : a = 0x8 ∨ a = 0xC ∨ (0x100 ≤ a ∧ a ≤ 0x12F) := by
  unfold regAt at h
  split_ifs at h with _ _ hcmd hstatus hframeIn
  · cases h
  · cases h
  · exact .inl hcmd
  · exact .inr (.inl hstatus)
  · exact .inr (.inr hframeIn)
  · cases h
  · cases h
  · cases h

/-- A misaligned, partial or reserved access reaches no register (20_memory.md R85, R86). -/
theorem accessed_reserved (h : off.toNat % 4 ≠ 0 ∨ be ≠ 0b1111 ∨ (0x10 ≤ off.toNat ∧ off.toNat ≤ 0xFF) ∨
    (0x130 ≤ off.toNat ∧ off.toNat ≤ 0xFFF) ∨ (0x1800 ≤ off.toNat ∧ off.toNat ≤ 0x1FFF) ∨ 0x2600 ≤ off.toNat) :
    accessed off be = .reserved := by
  by_cases hpart : off.toNat % 4 ≠ 0 ∨ be ≠ 0b1111
  · exact if_pos hpart
  · have hreg : accessed off be = regAt off.toNat := if_neg hpart
    rw [← or_assoc] at h
    exact hreg.trans (regAt_reserved (by omega) (h.resolve_left hpart))

theorem accessed_not_writable_of_readOnly
    (h : off.toNat = 0x0 ∨ off.toNat = 0x4 ∨ (0x1000 ≤ off.toNat ∧ off.toNat ≤ 0x17FF) ∨
      (0x2000 ≤ off.toNat ∧ off.toNat ≤ 0x25FF)) : (accessed off be).writable = false := by
  rw [accessed]
  split_ifs
  · rfl
  · refine Bool.eq_false_iff.mpr fun hw => ?_
    have := regAt_writable hw
    omega

theorem hostRead_reserved (P : Params) (hr : s.rst = false) (ha : accessed off be = .reserved) :
    hostRead P off be s = setRdata 0 (refuseAccess s) := by
  simp [hostRead, hr, ha, regValue]

theorem hostWrite_not_writable (hr : s.rst = false) (ha : (accessed off be).writable = false) :
    hostWrite off be d s = .done (refuseAccess s) := by
  rcases hostWrite_cases off be d s with ⟨hr', _⟩ | ⟨_, hreg, _⟩ | ⟨_, hreg, _⟩ | ⟨_, j, hreg, _⟩ | ⟨_, hw⟩
  · exact absurd (hr.symm.trans hr') (by decide)
  · simp [hreg, Reg.writable] at ha
  · simp [hreg, Reg.writable] at ha
  · simp [hreg, Reg.writable] at ha
  · exact hw

theorem step_read_reserved (hr : s.rst = false) (hs : s.script = .read off be :: rest) (ha : accessed off be = .reserved) :
    step s = .next (setRdata 0 (refuseAccess (setActor .host { s with script := rest }))) := by
  rw [step_read hs, hostRead_reserved (s := setActor .host { s with script := rest }) _ hr ha]

theorem step_write_not_writable (hr : s.rst = false) (hs : s.script = .write off be d :: rest)
    (ha : (accessed off be).writable = false) :
    step s = .next (refuseAccess (setActor .host { s with script := rest })) :=
  step_write_done hs (hostWrite_not_writable (s := setActor .host { s with script := rest }) hr ha)

end RefusedAccess

/-- Settles O44: a bad access reaches no register, and a read-only one reaches a register that is not written. -/
theorem refusedAccessSetsOnlyAccerr : Obligations.RefusedAccessSetsOnlyAccerr := by
  intro s off be rest hr a bad readOnly t
  refine ⟨fun hbad hs => step_read_reserved hr hs (accessed_reserved hbad), fun d hcause hs => ?_⟩
  refine step_write_not_writable hr hs ?_
  rcases hcause with hbad | hro
  · rw [accessed_reserved hbad, Reg.writable]
  · exact accessed_not_writable_of_readOnly hro

/-! ### No event stops the machine (R240) -/

/-- Settles O54. -/
theorem machineNeverStops : Obligations.MachineNeverStops := ⟨step_total, exec_total⟩

/-! ### Power-on reset (70_reset_and_hazards.md R260) -/

/-- Settles O51: the decoder is the one a RESET completion leaves, and the vectors are constant. -/
theorem powerOnState : Obligations.PowerOnState := by
  refine ⟨⟨_, exec_reset_engine rfl, ?_⟩, ?_, ?_, ?_, ?_, rfl, rfl⟩
  · exact congrArg Engine.dec (completeReset_eng _)
  · exact fun j hj => rd_replicate 0 hj
  · exact fun k hk => rd_replicate 0 hk
  · exact fun n hn => rd_replicate NumVal.zero hn
  · rfl

end Sys2Proof.Machine
end
